-- ==== Sys2Proof/Word.lean ====
section
/-! DEFINITION. The widths the engine moves values in: the 32-bit word of a command, of a bus transfer and of a
response field (rules R51, R90, R101), and the byte of the region's byte image (rule R54). -/

namespace Sys2Proof

/-- A 32-bit value; bit 0 is the least significant (rule R15). -/
abbrev Word := BitVec 32

/-- A byte, of the region's image (rule R54) or of a front-end text (rule R195). -/
abbrev Byte := BitVec 8

end Sys2Proof
end

