-- ==== Sys2Proof/Syntax.lean ====
section
/-! DEFINITION. The commands of the engine (rules R91 to R99): one constructor for each row of the opcode table. -/

namespace Sys2Proof

/-- The four register families (rule R19), in the order in which rule R93 numbers them. -/
inductive Family where
  | fsel | set | clr | lev
deriving DecidableEq, Repr

/-- An output level, "binary, `LOW` or `HIGH`" (rule R94). -/
inductive Level where
  | low | high
deriving DecidableEq, Repr

/-- The seven commands (rule R96). A `pin` is the unsigned integer of bits 15:0 of the command word; whether it fits
them is `Instr.WellFormed`, whether the pin exists is checked when the command runs (rule R95). -/
inductive Instr where
  /-- `ADDR fam, pin`: the register offset, bit offset and width of a pin in a family (rule R122). -/
  | addr (fam : Family) (pin : Nat)
  /-- `CFGIN pin`: make the pin an input (rule R152). -/
  | cfgin (pin : Nat)
  /-- `CFGOUT pin, lvl`: make the pin an output and give it its level (rule R156). -/
  | cfgout (pin : Nat) (lvl : Level)
  /-- `SETLV pin, lvl`: drive the output latch of the pin (rule R159). -/
  | setlv (pin : Nat) (lvl : Level)
  /-- `RDFN pin`: read the pin's function field (rule R162). -/
  | rdfn (pin : Nat)
  /-- `RDLV pin`: read the pin's level (rule R165). -/
  | rdlv (pin : Nat)
  /-- `ENEXT`: one call of the pin enumerator (rule R177). -/
  | enext
deriving DecidableEq, Repr

end Sys2Proof
end

