-- ==== Sys2Proof/WellFormed.lean ====
section
/-! DEFINITION. Which commands a command word can hold: those whose `pin` fits 16 bits (rules R95, R99). -/

namespace Sys2Proof

/-- The pin operand fits bits 15:0 of the command word: `pin <= 65535` (rule R95). -/
def pinFits (pin : Nat) : Bool := decide (pin ≤ 65535)

/-- A command that has a command word (rule R99: "for every `c` with `pin <= 65535`"). -/
def Instr.wellFormed : Instr → Bool
  | .addr _ pin => pinFits pin
  | .cfgin pin => pinFits pin
  | .cfgout pin _ => pinFits pin
  | .setlv pin _ => pinFits pin
  | .rdfn pin => pinFits pin
  | .rdlv pin => pinFits pin
  | .enext => true

/-- `Instr.wellFormed` as a proposition. -/
abbrev Instr.WellFormed (i : Instr) : Prop := i.wellFormed = true

end Sys2Proof
end

