-- ==== Sys2Proof/Decode.lean ====
section
/-! DEFINITION. The command word and the command (rules R91 to R99): the rows of rule R97, the decoder, total on the
32-bit words and rejecting by name, and after it the encoder. -/

namespace Sys2Proof

/-- A row of rule R97: "a word `w` is the command exactly when `w & mask = match`". -/
structure OpRow where
  mask : Word
  bits : Word
deriving DecidableEq, Repr

/-- The word lies in the row. -/
def OpRow.covers (r : OpRow) (w : Word) : Bool := w &&& r.mask == r.bits

def rowAddr : OpRow := ⟨0xF3FF0000#32, 0x10000000#32⟩
def rowCfgin : OpRow := ⟨0xFFFF0000#32, 0x20000000#32⟩
def rowCfgout : OpRow := ⟨0xFDFF0000#32, 0x30000000#32⟩
def rowSetlv : OpRow := ⟨0xFDFF0000#32, 0x40000000#32⟩
def rowRdfn : OpRow := ⟨0xFFFF0000#32, 0x50000000#32⟩
def rowRdlv : OpRow := ⟨0xFFFF0000#32, 0x60000000#32⟩
def rowEnext : OpRow := ⟨0xFFFFFFFF#32, 0x70000000#32⟩

/-- The seven rows of rule R97. -/
def opRows : List OpRow := [rowAddr, rowCfgin, rowCfgout, rowSetlv, rowRdfn, rowRdlv, rowEnext]

/-- Why a word is illegal (rule R98): its `op` is reserved, or a field that must be zero is not. The engine answers
both alike. -/
inductive Illegal where
  | reservedOp
  | fieldNotZero
deriving DecidableEq, Repr

/-- What a 32-bit word is (rule R99: `decode : Word32 -> Cmd + Illegal`). -/
inductive Decoded where
  | legal (i : Instr)
  | illegal (why : Illegal)
deriving DecidableEq, Repr

/-- `op = cmd[31:28]` (rule R92). -/
def opField (w : Word) : BitVec 4 := w.extractLsb' 28 4

/-- `fam = cmd[27:26]`: 0 FSEL, 1 SET, 2 CLR, 3 LEV (rule R93). -/
def famField (w : Word) : Family :=
  if w.extractLsb' 26 2 = 0#2 then .fsel
  else if w.extractLsb' 26 2 = 1#2 then .set
  else if w.extractLsb' 26 2 = 2#2 then .clr
  else .lev

/-- `lvl = cmd[25]`: 0 LOW, 1 HIGH (rule R94). -/
def lvlField (w : Word) : Level := if w.getLsbD 25 then .high else .low

/-- `pin = zext_32(cmd[15:0])`, unsigned (rule R95). -/
def pinField (w : Word) : Nat := (w.extractLsb' 0 16).toNat

/-- The reason for which a word of no row is illegal (rule R98): `op` 0x0 and 0x8 to 0xF are the reserved ones. -/
def illegalReason (w : Word) : Illegal :=
  if opField w = 0#4 ∨ 8#4 ≤ opField w then .reservedOp else .fieldNotZero

/-- The decoder (rules R96 to R99). -/
def decode (w : Word) : Decoded :=
  if rowAddr.covers w then .legal (.addr (famField w) (pinField w))
  else if rowCfgin.covers w then .legal (.cfgin (pinField w))
  else if rowCfgout.covers w then .legal (.cfgout (pinField w) (lvlField w))
  else if rowSetlv.covers w then .legal (.setlv (pinField w) (lvlField w))
  else if rowRdfn.covers w then .legal (.rdfn (pinField w))
  else if rowRdlv.covers w then .legal (.rdlv (pinField w))
  else if rowEnext.covers w then .legal .enext
  else .illegal (illegalReason w)

/-- The instruction read from a table word of `nbits` bits (the bits above are zero). The command port takes the
32-bit word whole (rule R90), so no byte order enters. -/
def decodeTableWord (nbits w : Nat) : Option Instr :=
  match decode (BitVec.ofNat 32 (w % 2 ^ nbits)) with
  | .legal i => some i
  | .illegal _ => none

/-- The operation code of a command (rule R96). -/
def Instr.op : Instr → BitVec 4
  | .addr _ _ => 0x1#4
  | .cfgin _ => 0x2#4
  | .cfgout _ _ => 0x3#4
  | .setlv _ _ => 0x4#4
  | .rdfn _ => 0x5#4
  | .rdlv _ => 0x6#4
  | .enext => 0x7#4

/-- The code of a family (rule R93). -/
def Family.code : Family → BitVec 2
  | .fsel => 0#2
  | .set => 1#2
  | .clr => 2#2
  | .lev => 3#2

/-- The code of a level, in a command and in a response (rule R94). -/
def Level.code : Level → BitVec 1
  | .low => 0#1
  | .high => 1#1

/-- The `fam` field, zero where the command has no family (rule R97). -/
def Instr.famCode : Instr → BitVec 2
  | .addr fam _ => fam.code
  | .cfgin _ => 0#2
  | .cfgout _ _ => 0#2
  | .setlv _ _ => 0#2
  | .rdfn _ => 0#2
  | .rdlv _ => 0#2
  | .enext => 0#2

/-- The `lvl` field, zero where the command has no level (rule R97). -/
def Instr.lvlCode : Instr → BitVec 1
  | .addr _ _ => 0#1
  | .cfgin _ => 0#1
  | .cfgout _ lvl => lvl.code
  | .setlv _ lvl => lvl.code
  | .rdfn _ => 0#1
  | .rdlv _ => 0#1
  | .enext => 0#1

/-- The `pin` field, zero for `ENEXT` (rule R97). -/
def Instr.pin : Instr → Nat
  | .addr _ pin => pin
  | .cfgin pin => pin
  | .cfgout pin _ => pin
  | .setlv pin _ => pin
  | .rdfn pin => pin
  | .rdlv pin => pin
  | .enext => 0

/-- The encoder: `op << 28 | fam << 26 | lvl << 25 | pin` (rule R99). -/
def encode (i : Instr) : Word :=
  (i.op.setWidth 32 <<< 28) ||| (i.famCode.setWidth 32 <<< 26) ||| (i.lvlCode.setWidth 32 <<< 25)
    ||| BitVec.ofNat 32 i.pin

end Sys2Proof
end

