-- ==== Sys2Proof/Config.lean ====
section
/-! DEFINITION. What is fixed while the engine runs (00_scope.md section 4, rule R28) and the free values: constants
without a body, so that no proof can know what they are. -/

namespace Sys2Proof

/-- How the register bank answers a LEV read for a pin that is not an output (rule R68). -/
inductive LevModel where
  /-- The default: `lat[p]` for an output, the external line for any other pin. -/
  | latchWhenOutput
  /-- `lat[p]` whatever the function field is. -/
  | latchAlways
deriving DecidableEq, Repr

/-- The record `Config` of 00_scope.md section 4. The pins per register and bits per pin are fixed by the family
and stand in Machine/Operands.lean. `REGION_BASE` is opaque to every rule but `ConfigOK` (rule R50). -/
structure Config where
  numPins : Nat
  fselBase : Nat
  setBase : Nat
  clrBase : Nat
  levBase : Nat
  regionLen : Nat
  regionBase : Nat
  levModel : LevModel
deriving DecidableEq, Repr

/-- The configuration of `State.reset`: the spec's reference values for `NUM_PINS` and `LEV_MODEL`; PRESUMED (log 1)
the BCM2835 family's base offsets, which the spec offers as defaults; DESIGN CHOICE (log 1) the smallest `REGION_LEN`
that covers the four families, and `REGION_BASE` 0. Unsafe: no claim may rest on these numbers. -/
def Config.reference : Config where
  numPins := 54
  fselBase := 0x00
  setBase := 0x1C
  clrBase := 0x28
  levBase := 0x34
  regionLen := 0x3C
  regionBase := 0
  levModel := .latchWhenOutput

/-- FREE VALUE (log 7): the word of the n-th read that returns unspecified bits: a read of a SET or CLR register
(rule R67) and the bits of a LEV read that belong to no pin (rule R68). -/
opaque Config.freeWord : Nat → Word

/-- FREE VALUE (log 17): the bytes of the banner line the host makes of `HEADER` (rule R182, decision D27). -/
opaque Config.bannerLine : List Byte

/-- FREE VALUE (log 17): the bytes of the line the host makes of a report of this pin index, raw mode and level
(rule R182, decision D27). -/
opaque Config.reportLine : Nat → BitVec 3 → Level → List Byte

end Sys2Proof
end

