-- ==== Sys2Proof/Machine/Bits.lean ====
section
/-! DEFINITION. Bit fields of a 32-bit word (rules R15, R16, R125): extraction and replacement of a field, and a word
given bit by bit. -/

namespace Sys2Proof.Machine

/-- The mask of `w` bits from bit 0: `(1 << w) - 1`. -/
def lowMask (w : Nat) : Word := (1#32 <<< w) - 1#32

/-- `fmask`: the mask of the field at bit offset `bo` of width `w` (rule R125). -/
def fieldMask (bo w : Nat) : Word := lowMask w <<< bo

/-- `(v >> bo) & (2^w - 1)`: the field at bit offset `bo` of width `w`, moved to bit 0 (rule R15). -/
def extractField (v : Word) (bo w : Nat) : Word := (v >>> bo) &&& lowMask w

/-- `(v & ~(mask << bo)) | (m << bo)`: the field at bit offset `bo` of width `w` replaced by `m` (rule R151). -/
def replaceField (v : Word) (bo w : Nat) (m : Word) : Word := (v &&& ~~~(fieldMask bo w)) ||| (m <<< bo)

/-- The word whose bit `i` is `f i` for `i < n`, the other bits 0. -/
def bitsBelow (f : Nat → Bool) : Nat → Word
  | 0 => 0#32
  | n + 1 => if f n then bitsBelow f n ||| (1#32 <<< n) else bitsBelow f n

/-- The word whose bit `i` is `f i` (rule R15). -/
def wordOfBits (f : Nat → Bool) : Word := bitsBelow f 32

/-- The level a 1-bit value stands for: 0 `LOW`, 1 `HIGH` (rules R94, R165). -/
def levelOfBit (b : Bool) : Level := if b then .high else .low

/-- The bit of a level (rule R94). -/
def bitOfLevel : Level → Bool
  | .low => false
  | .high => true

end Sys2Proof.Machine
end

