-- ==== Sys2Proof/Machine/Operands.lean ====
section
/-! DEFINITION. The operand forms and the one addressing mode of the engine (rules R93 to R95, R140): the family table,
`ConfigOK`, and the Register Address Calculator (rules R120 to R127). -/

namespace Sys2Proof.Machine

/-- The four families. -/
def families : List Family := [.fsel, .set, .clr, .lev]

/-- `PPR[F]`, pins per register (rule R120). -/
def ppr : Family → Nat
  | .fsel => 10
  | .set => 32
  | .clr => 32
  | .lev => 32

/-- `BPP[F]`, bits per pin (rule R120). -/
def bpp : Family → Nat
  | .fsel => 3
  | .set => 1
  | .clr => 1
  | .lev => 1

/-- `BASE[F]`, the family base offset (rule R120). -/
def base (cfg : Config) : Family → Nat
  | .fsel => cfg.fselBase
  | .set => cfg.setBase
  | .clr => cfg.clrBase
  | .lev => cfg.levBase

/-- `NREGS[F] = ceil(NUM_PINS / PPR[F])` (rule R13). -/
def nregs (cfg : Config) (f : Family) : Nat := (cfg.numPins + ppr f - 1) / ppr f

/-- The byte just past the last register of a family. -/
def familyEnd (cfg : Config) (f : Family) : Nat := base cfg f + 4 * nregs cfg f

/-- `ConfigOK` (rule R13, clauses a to d), as a check. -/
def configOk (cfg : Config) : Bool :=
  decide ((1 ≤ cfg.numPins ∧ cfg.numPins ≤ 65534)
    ∧ ((∀ f ∈ families, base cfg f % 4 = 0) ∧ cfg.regionBase % 4 = 0)
    ∧ ((∀ f ∈ families, familyEnd cfg f ≤ cfg.regionLen) ∧ cfg.regionLen < 2 ^ 32)
    ∧ (∀ f ∈ families, ∀ g ∈ families, f ≠ g → familyEnd cfg f ≤ base cfg g ∨ familyEnd cfg g ≤ base cfg f))

/-- `ConfigOK(cfg)` (rule R13). -/
abbrev ConfigOK (cfg : Config) : Prop := configOk cfg = true

/-- The triple of `address_of` (rule R121). -/
structure RegAddr where
  offset : Nat
  bitOffset : Nat
  bitWidth : Nat
deriving DecidableEq, Repr

/-- `address_of(pin, F)` (rule R121). -/
def addressOf (cfg : Config) (f : Family) (pin : Nat) : RegAddr where
  offset := base cfg f + (pin / ppr f) * 4
  bitOffset := (pin % ppr f) * bpp f
  bitWidth := bpp f

/-- The family whose register a level write asserts: SET for `HIGH`, CLR for `LOW` (rule R155). -/
def levelFamily : Level → Family
  | .high => .set
  | .low => .clr

end Sys2Proof.Machine
end

