-- ==== Sys2Proof/Machine/Memory.lean ====
section
/-! DEFINITION. Memory as a canonical list of byte cells, and its little-endian 32-bit words (rule R54; K5 says that
nothing observable rests on the byte order). Three memories of the state have this type: the stored bytes of the mapped
region, the output latches and the external lines. -/

namespace Sys2Proof.Machine

/-- Cells by address; strictly rising addresses, no cell that holds what an unlisted address reads as. -/
abbrev Memory := List Host.Cell

/-- What an address that no cell lists reads as. DESIGN CHOICE (log 3), unsafe: the spec gives the bank no start
value (rules R36, R262). -/
def unlistedByte : Byte := 0#8

/-- The byte at an address. -/
def byteAt : Memory → Nat → Byte
  | [], _ => unlistedByte
  | (k, v) :: rest, a => if k = a then v else byteAt rest a

/-- A new cell put before the first cell of a greater address. -/
def insertCell : Memory → Host.Cell → Memory
  | [], c => [c]
  | d :: rest, c => if c.1 < d.1 then c :: d :: rest else d :: insertCell rest c

/-- The memory without the cells of one address. -/
def dropCell (m : Memory) (a : Nat) : Memory := m.filter fun c => !decide (c.1 = a)

/-- One byte written; the canonical form is kept. -/
def setByte (m : Memory) (a : Nat) (v : Byte) : Memory :=
  if v = unlistedByte then dropCell m a else insertCell (dropCell m a) (a, v)

/-- The canonical form. -/
abbrev Memory.Wf (m : Memory) : Prop :=
  List.Pairwise (fun c d => c.1 < d.1) m ∧ ∀ c ∈ m, c.2 ≠ unlistedByte

/-- The 32-bit value at an address, the byte at the lowest address in bits 7:0 (rule R54). -/
def wordAt (m : Memory) (a : Nat) : Word :=
  byteAt m (a + 3) ++ byteAt m (a + 2) ++ byteAt m (a + 1) ++ byteAt m a

/-- A 32-bit value stored at an address, bits 7:0 in the byte at the lowest address (rule R54). -/
def setWord (m : Memory) (a : Nat) (w : Word) : Memory :=
  setByte (setByte (setByte (setByte m a (w.extractLsb' 0 8)) (a + 1) (w.extractLsb' 8 8)) (a + 2) (w.extractLsb' 16 8))
    (a + 3) (w.extractLsb' 24 8)

end Sys2Proof.Machine
end

