-- ==== Sys2Proof/Machine/State.lean ====
section
/-! DEFINITION. The state of the machine as plain data, the inputs it takes and the outputs it gives, the reasons a step
can stop, and the state after reset. -/

namespace Sys2Proof.Machine

/-- `ECUR`, the enumeration cursor (rules R24, R25): the sentinel, or the next pin to examine. -/
inductive Cursor where
  | start
  | atPin (k : Nat)
deriving DecidableEq, Repr

/-- The status of a response (rule R102); `statusCode` in Machine/Flags.lean gives the four bits. -/
inductive Status where
  | ok | outOfRange | invalidCommand | hwFault
deriving DecidableEq, Repr

/-- The one response of an accepted command (rule R101). -/
structure Response where
  status : Status
  d0 : Word
  d1 : Word
deriving DecidableEq, Repr

/-- One access of the bus trace (rule R18): `Rd(off) = v` or `Wr(off, v)`. -/
inductive Access where
  | rd (off : Nat) (v : Word)
  | wr (off : Nat) (v : Word)
deriving DecidableEq, Repr

/-- The command in progress (rules R21, R27, R90): its operand fields, and the RMW temporary `T` between the read and
the write-back of a `CFGIN` or `CFGOUT`. -/
structure InFlight where
  cmd : Instr
  t : Option Word
deriving DecidableEq, Repr

/-- One binding of `BIND` (rule R31): a name and the pin it stands for. -/
structure Binding where
  name : List Byte
  pin : Nat
deriving DecidableEq, Repr

/-- What another agent does in one atomic event (rules R34, R71, R73, R241): the environment changes an external line,
another master writes a register, or external probing logic samples a pin. A read by another master changes nothing (rules
R61, R67, R68) and is not listed. -/
inductive EnvAct where
  | line (pin : Nat) (lvl : Level)
  | busWrite (off : Nat) (v : Word)
  | probe (pin : Nat)
deriving DecidableEq, Repr

/-- What the outside world sees of a pin: the pair of its function field and its output latch (rule R71). -/
structure Sample where
  pin : Nat
  field : BitVec 3
  latch : Bool
deriving DecidableEq, Repr

/-- How the bus answers one access (rules R57, R139), and where the reset input can arrive (rule R263). -/
inductive BusAnswer where
  /-- The access completes. -/
  | done
  /-- The access does not complete; `landed` says whether a faulting write took effect all the same. -/
  | fault (landed : Bool)
  /-- Reset arrives before the access is issued. -/
  | reset
  /-- The access completes and reset arrives before anything else happens. -/
  | doneThenReset
deriving DecidableEq, Repr

/-- One turn of the bus script: the acts of the other agents since the engine's previous access, in order, and the
answer to this access. -/
structure BusTurn where
  before : List EnvAct
  answer : BusAnswer
deriving DecidableEq, Repr

/-- The channel a text command comes on (rule R197): not bound to a pin, or bound to a name. -/
inductive Channel where
  | unbound
  | bound (name : List Byte)
deriving DecidableEq, Repr

/-- Whom a status query is about (rule R204): a pin the host names, or the pin a bound channel resolves to. -/
inductive QueryTarget where
  | named (pin : Nat)
  | bound (name : List Byte)
deriving DecidableEq, Repr

/-- One input of the machine: what the host or the environment does next, between commands. -/
inductive Input where
  /-- A command word at the command port (rule R90). -/
  | command (w : Word)
  /-- The reset input, with the `Config` the host supplies at this start (rules R28, R261). -/
  | reset (cfg : Config)
  /-- An act of another agent between two commands (rule R241). -/
  | act (a : EnvAct)
  /-- A text command on a channel (rule R195). -/
  | text (ch : Channel) (buf : List Byte)
  /-- A status query (rule R204). -/
  | query (q : QueryTarget)
  /-- An enumeration read (rule R207). -/
  | enumRead
  /-- `configure(list)` (rule R215). -/
  | configure (pins : List Nat)
  /-- `teardown()` (rule R219). -/
  | teardown
deriving DecidableEq, Repr

/-- The four results of `ENEXT` (rules R104, R176). -/
inductive EnumKind where
  | fin | header | report | skip
deriving DecidableEq, Repr

/-- What the front-end's caller is told. -/
inductive Reply where
  /-- The text command or `configure` succeeded (rule R208). -/
  | ok
  /-- The `InvalidCommand` signal (rule R203). -/
  | invalidCommand
  /-- `OutOfRange` (rules R204, R208, R215). -/
  | outOfRange
  /-- `HardwareFault` (rule R208). -/
  | hwFault
  /-- The status line of a query (rule R205). -/
  | line (bytes : List Byte)
  /-- The result kind of an enumeration read and the bytes it produced (rules R182, R207). -/
  | enumerated (kind : EnumKind) (bytes : List Byte)
deriving DecidableEq, Repr

/-- The state. The first eleven fields are the spec's (rule R20 and section 4 of 10_state.md), `inputs` the stream of
rule R34; `script`, `replies`, `draws` and `probes` are the model's own (INVENTORY.md). -/
structure State where
  /-- `Config`, supplied by the host (rule R28). -/
  cfg : Config
  /-- `ECUR` (rule R24). -/
  ecur : Cursor
  /-- `FAULTED` (rule R26). -/
  faulted : Bool
  /-- The command in progress, if any (rules R21, R27). -/
  busy : Option InFlight
  /-- `BIND` (rule R31). -/
  bind : List Binding
  /-- `configure` was called and no `teardown` since (rule R220). -/
  configured : Bool
  /-- The stored bytes of the mapped region: the FSEL registers (rules R50, R54, R60). -/
  mem : Memory
  /-- The output latches `lat[p]`: bit `p % 32` of the word at `4 * (p / 32)` (rule R60). -/
  lat : Memory
  /-- The external line levels `ext[p]`, laid out as `lat` (rule R60). -/
  ext : Memory
  /-- The response port, oldest first (rule R101). -/
  responses : List Response
  /-- The bus trace, oldest first (rule R18). -/
  trace : List Access
  /-- What the host and the environment do next (rules R34, R90). -/
  inputs : List Input
  /-- What happens at the coming accesses of the engine (rules R34, R57). -/
  script : List BusTurn
  /-- What the front-end's caller was told, oldest first. -/
  replies : List Reply
  /-- The number of free words drawn so far. -/
  draws : Nat
  /-- What external probing logic has sampled, oldest first (rule R71; log 23). -/
  probes : List Sample
deriving DecidableEq, Repr

/-- Why the machine stops with a fault. Each is safe: the hardware takes no step there either. -/
inductive Fault where
  /-- Raised for every input but reset and an environment act while `FAULTED = 1`: "the engine accepts no command"
  (rule R26, U24). Safe. -/
  | engineFaulted
  /-- Raised when a command or a front-end input is presented while a command is in progress (rule R90, U24). Safe. -/
  | engineBusy
  /-- Raised by `ENEXT` for a cursor beyond `NUM_PINS`, a value `ECUR` does not have (rule R24); no step reaches it
  (log 13). Safe. -/
  | cursorOutside
deriving DecidableEq, Repr

/-- Why a step is given no meaning. Each is safe: nothing is claimed past it. -/
inductive Refusal where
  /-- Raised by an arm of `exec` that has no meaning yet. Safe. -/
  | notModelled (mnemonic : String)
  /-- Raised by every step under a `Config` that is not `ConfigOK` (rule R13, U18). Safe. -/
  | configNotOk
  /-- Raised by a second `configure` without a `teardown` (rule R220, U19). Safe. -/
  | secondConfigure
  /-- Raised by a write to a LEV register and by an access outside the four families (rule R69, U12). Safe. -/
  | offRegister
deriving DecidableEq, Repr

/-- The three errors a command can end with (rule R230). -/
inductive CmdError where
  | outOfRange | invalidCommand | hardwareFault
deriving DecidableEq, Repr

/-- How far the command in progress has come: it goes on with a value, it raised an error (rule R17), reset abandoned it
(rule R263), or the model stops. -/
inductive Run (α : Type) where
  | done (a : α) (s : State)
  | raised (e : CmdError) (s : State)
  | abandoned (s : State)
  | refused (r : Refusal)
  | stuck (f : Fault)

/-- The machine after reset (rules R36, R261): `ECUR = START`, `FAULTED = 0`, `BIND` empty, no command in progress, no
response outstanding, no access made. DESIGN CHOICE (log 2), unsafe: the bank is all zeros, where the spec gives any
value; the other fields are named in logs 1, 4, 5, 7, 14, 16 and 23. -/
def State.reset : State where
  cfg := Config.reference
  ecur := .start
  faulted := false
  busy := none
  bind := []
  configured := false
  mem := []
  lat := []
  ext := []
  responses := []
  trace := []
  inputs := []
  script := []
  replies := []
  draws := 0
  probes := []

end Sys2Proof.Machine
end

