-- ==== Sys2Proof/Machine/Bank.lean ====
section
/-! DEFINITION. The register bank behind the mapped region (rules R58 to R69): what its state means pin by pin, what a
read returns, what a write does, and what the environment does to the lines. -/

namespace Sys2Proof.Machine

/-- `fsel[j]` (rule R60): the word at its offset under the `Config` in force, also after a reset that changed it (DESIGN
CHOICE, log 22). -/
def fselReg (s : State) (j : Nat) : Word := wordAt s.mem (base s.cfg .fsel + 4 * j)

/-- `field(p) = fsel[p / 10][3*(p % 10) + 2 : 3*(p % 10)]` (rule R60). -/
def fnField (s : State) (p : Nat) : BitVec 3 := (fselReg s (p / 10)).extractLsb' (3 * (p % 10)) 3

/-- Where the word of 32 packed pin bits number `j` stands in `lat` and in `ext`. -/
def packAddr (j : Nat) : Nat := 4 * j

/-- The bit of a pin in a packed memory. -/
def packedBit (m : Memory) (p : Nat) : Bool := (wordAt m (packAddr (p / 32))).getLsbD (p % 32)

/-- `lat[p]` (rule R60). -/
def latch (s : State) (p : Nat) : Bool := packedBit s.lat p

/-- `ext[p]` (rule R60). -/
def extLine (s : State) (p : Nat) : Bool := packedBit s.ext p

/-- `level(p)` under `LEV_MODEL` (rule R68). -/
def level (s : State) (p : Nat) : Bool :=
  match s.cfg.levModel with
  | .latchAlways => latch s p
  | .latchWhenOutput => if fnField s p = 0b001#3 then latch s p else extLine s p

/-- The bits of register `j` of a 1-bit family that belong to a pin: `32*j + b < NUM_PINS` (rules R59, R65). -/
def pinBits (cfg : Config) (j : Nat) : Word := wordOfBits fun b => decide (32 * j + b < cfg.numPins)

/-- What a read of LEV register `j` returns: the level of each pin that exists, an unspecified bit elsewhere
(rule R68; log 7). -/
def levReg (s : State) (j : Nat) : Word :=
  wordOfBits fun b =>
    if 32 * j + b < s.cfg.numPins then level s (32 * j + b) else (Config.freeWord s.draws).getLsbD b

/-- The register at a byte offset: its family and its index (rule R58). -/
def regAt (cfg : Config) (off : Nat) : Option (Family × Nat) :=
  (families.find? fun f => decide (base cfg f ≤ off ∧ off < familyEnd cfg f ∧ (off - base cfg f) % 4 = 0)).map
    fun f => (f, (off - base cfg f) / 4)

/-- The next free word counts as drawn. -/
def drawn (s : State) : State := { s with draws := s.draws + 1 }

/-- One 32-bit read of the bank (rules R61, R67, R68, R69). Only the count of drawn free words changes. -/
def bankRead (off : Nat) (s : State) : Run Word :=
  match regAt s.cfg off with
  | some (.fsel, j) => .done (fselReg s j) s
  | some (.set, _) => .done (Config.freeWord s.draws) (drawn s)
  | some (.clr, _) => .done (Config.freeWord s.draws) (drawn s)
  | some (.lev, j) => .done (levReg s j) (drawn s)
  | none => .refused .offRegister

/-- FSEL register `j` written, all 32 bits (rule R62). -/
def writeFsel (j : Nat) (v : Word) (s : State) : State :=
  { s with mem := setWord s.mem (base s.cfg .fsel + 4 * j) v }

/-- SET register `j` written: the latch of every pin with a 1 bit becomes 1 (rule R65). -/
def writeSet (j : Nat) (v : Word) (s : State) : State :=
  { s with lat := setWord s.lat (packAddr j) (wordAt s.lat (packAddr j) ||| (v &&& pinBits s.cfg j)) }

/-- CLR register `j` written: the latch of every pin with a 1 bit becomes 0 (rule R66). -/
def writeClr (j : Nat) (v : Word) (s : State) : State :=
  { s with lat := setWord s.lat (packAddr j) (wordAt s.lat (packAddr j) &&& ~~~(v &&& pinBits s.cfg j)) }

/-- One 32-bit write of the bank (rules R62, R65, R66, R69). -/
def bankWrite (off : Nat) (v : Word) (s : State) : Run Unit :=
  match regAt s.cfg off with
  | some (.fsel, j) => .done () (writeFsel j v s)
  | some (.set, j) => .done () (writeSet j v s)
  | some (.clr, j) => .done () (writeClr j v s)
  | some (.lev, _) => .refused .offRegister
  | none => .refused .offRegister

/-- A packed memory with the bit of one pin set to a level. -/
def setPackedBit (m : Memory) (p : Nat) (lvl : Level) : Memory :=
  setWord m (packAddr (p / 32))
    (replaceField (wordAt m (packAddr (p / 32))) (p % 32) 1 (if bitOfLevel lvl then 1#32 else 0#32))

/-- The environment sets the external line of a pin (rules R34, R60); a pin that does not exist has no line. -/
def setLine (p : Nat) (lvl : Level) (s : State) : State :=
  if p < s.cfg.numPins then { s with ext := setPackedBit s.ext p lvl } else s

/-- What the outside world sees of pin `p` at this instant (rule R71). -/
def seen (p : Nat) (s : State) : Sample := ⟨p, fnField s p, latch s p⟩

/-- External probing logic samples a pin (rule R71): what it saw is kept, and nothing else changes. A pin that does not exist
shows nothing (log 23). -/
def probePin (p : Nat) (s : State) : State :=
  if p < s.cfg.numPins then { s with probes := s.probes ++ [seen p s] } else s

end Sys2Proof.Machine
end

