-- ==== Sys2Proof/Machine/Flags.lean ====
section
/-! DEFINITION. The engine has no arithmetic flags and no condition codes (rule R29): its one status bit is `FAULTED`, and
a command's outcome is the status of its response (rules R101, R102). -/

namespace Sys2Proof.Machine

/-- The four status bits (rule R102). -/
def statusCode : Status → BitVec 4
  | .ok => 0x0#4
  | .outOfRange => 0x1#4
  | .invalidCommand => 0x2#4
  | .hwFault => 0x3#4

/-- The status an error is reported with (rules R231 to R233). -/
def statusOfError : CmdError → Status
  | .outOfRange => .outOfRange
  | .invalidCommand => .invalidCommand
  | .hardwareFault => .hwFault

/-- What an error does to `FAULTED`: set by `HardwareFault`, unchanged by the two recoverable errors
(rules R26, R231 to R233). -/
def faultedAfter (e : CmdError) (old : Bool) : Bool :=
  match e with
  | .outOfRange => old
  | .invalidCommand => old
  | .hardwareFault => true

/-- The code of an `ENEXT` result in `d1[1:0]` (rule R104). -/
def kindCode : EnumKind → BitVec 2
  | .fin => 0#2
  | .header => 1#2
  | .report => 2#2
  | .skip => 3#2

/-- The result a `d1` names (rule R104). -/
def kindOfCode (d1 : Word) : EnumKind :=
  if d1.extractLsb' 0 2 = 0#2 then .fin
  else if d1.extractLsb' 0 2 = 1#2 then .header
  else if d1.extractLsb' 0 2 = 2#2 then .report
  else .skip

end Sys2Proof.Machine
end

