-- ==== Sys2Proof/Machine/Ops.lean ====
section
/-! DEFINITION. The shared operations of every command: accepting it, the Register Access Layer's `read32` and `write32`
(rules R135 to R142), the pin check, the FSEL read-modify-write and the level write (rules R151, R155), the response, the
one operation that takes an error (rules R230 to R238), and reset, the only way back from a fault (rule R261). -/

namespace Sys2Proof.Machine

/-- What a step answers. -/
abbrev Result := Host.Outcome State Fault Refusal

/-- The command goes on with `k` if it has not ended. -/
def Run.bind {α β : Type} (r : Run α) (k : α → State → Run β) : Run β :=
  match r with
  | .done a s => k a s
  | .raised e s => .raised e s
  | .abandoned s => .abandoned s
  | .refused why => .refused why
  | .stuck f => .stuck f

/-- `respond(status, d0, d1)`: the command's one response; the engine is idle again (rules R90, R101). -/
def respond (st : Status) (d0 d1 : Word) (s : State) : State :=
  { s with responses := s.responses ++ [⟨st, d0, d1⟩], busy := none }

/-- `raise <Error>`: the whole effect of an error is its response, with `d0 = d1 = 0`, and for `HardwareFault` the
`FAULTED` bit; nothing is saved and control goes nowhere (rules R102, R231 to R233, R236). -/
def takeError (e : CmdError) (s : State) : State :=
  respond (statusOfError e) 0#32 0#32 { s with faulted := faultedAfter e s.faulted }

/-- Reset of the engine (rule R261): `ECUR`, `FAULTED` and `BIND` reset, a command in progress dropped without a response.
The bank and `Config` keep what they hold (rule R262). There is no other return from a fault (rule R238). -/
def resetEngine (s : State) : State :=
  { s with ecur := .start, faulted := false, busy := none, bind := [], configured := false }

/-- The condition under which the machine takes an input at all: `ConfigOK` (rule R13), no command in progress and
`FAULTED = 0` (rules R26, R90). -/
def ifReady (s : State) (go : Result) : Result :=
  if ¬ ConfigOK s.cfg then .refused .configNotOk
  else if s.busy.isSome then .fault .engineBusy
  else if s.faulted then .fault .engineFaulted
  else go

/-- How a command ends: with its response, with an error taken, or abandoned by reset without a response (rule R263). -/
def finish (r : Run (Word × Word)) : Result :=
  match r with
  | .done d s => .next (respond .ok d.1 d.2 s)
  | .raised e s => .next (takeError e s)
  | .abandoned s => .next (resetEngine s)
  | .refused why => .refused why
  | .stuck f => .fault f

/-- A command accepted: from here to its response it is in progress (rules R21, R90). -/
def accept (i : Instr) (s : State) : State := { s with busy := some ⟨i, none⟩ }

/-- One command, accepted and executed to its end (rules R23, R90). -/
def command (i : Instr) (s : State) (body : State → Run (Word × Word)) : Result :=
  ifReady s (finish (body (accept i s)))

/-- An illegal word (rule R98): accepted, and answered `INVALID_COMMAND` with no other effect. -/
def rejectWord (s : State) : Result := ifReady s (.next (takeError .invalidCommand s))

/-- `if pin >= NUM_PINS then raise OutOfRange` (rules R122, R150). -/
def checkPin (pin : Nat) (s : State) : Run Unit :=
  if s.cfg.numPins ≤ pin then .raised .outOfRange s else .done () s

/-- One act of another agent (rules R71, R73, R241). -/
def envAct (a : EnvAct) (s : State) : Run Unit :=
  match a with
  | .line p lvl => .done () (setLine p lvl s)
  | .busWrite off v => bankWrite off v s
  | .probe p => .done () (probePin p s)

/-- The acts of the other agents in the order in which they happen (rule R73). -/
def envActs : List EnvAct → State → Run Unit
  | [], s => .done () s
  | a :: rest, s => (envAct a s).bind fun _ s => envActs rest s

/-- The bus script from here on. -/
def withScript (script : List BusTurn) (s : State) : State := { s with script := script }

/-- The next turn of the bus script: first the acts of the other agents, then the answer to the engine's access. A script
that has run out lets the access complete, with no act before it (log 5). -/
def busTurn (s : State) : Run BusAnswer :=
  match s.script with
  | [] => .done .done s
  | t :: rest => (envActs t.before (withScript rest s)).bind fun _ s => .done t.answer s

/-- The access enters the bus trace (rule R18). -/
def logAccess (a : Access) (s : State) : State := { s with trace := s.trace ++ [a] }

/-- The check `read32` and `write32` make before the access (rules R137, R138). -/
abbrev OffsetBad (cfg : Config) (off : Nat) : Prop := off % 4 ≠ 0 ∨ cfg.regionLen < off + 4

/-- `read32(off)` (rule R137). -/
def memRead (off : Nat) (s : State) : Run Word :=
  if OffsetBad s.cfg off then .raised .hardwareFault s
  else (busTurn s).bind fun answer s =>
    match answer with
    | .done => (bankRead off s).bind fun v s => .done v (logAccess (.rd off v) s)
    | .fault _ => .raised .hardwareFault s
    | .reset => .abandoned s
    | .doneThenReset => (bankRead off s).bind fun v s => .abandoned (logAccess (.rd off v) s)

/-- `write32(off, v)` (rule R138); a write that faults may have taken effect or not (rule R139). -/
def memWrite (off : Nat) (v : Word) (s : State) : Run Unit :=
  if OffsetBad s.cfg off then .raised .hardwareFault s
  else (busTurn s).bind fun answer s =>
    match answer with
    | .done => (bankWrite off v s).bind fun _ s => .done () (logAccess (.wr off v) s)
    | .fault true => (bankWrite off v s).bind fun _ s => .raised .hardwareFault s
    | .fault false => .raised .hardwareFault s
    | .reset => .abandoned s
    | .doneThenReset => (bankWrite off v s).bind fun _ s => .abandoned (logAccess (.wr off v) s)

/-- The RMW temporary `T` of the command in progress, set and dropped (rule R27). -/
def setTemp (t : Option Word) (s : State) : State :=
  { s with busy := s.busy.map fun b => { b with t := t } }

/-- `fsel_rmw(pin, m)` (rule R151): one read, then always one write. -/
def fselRmw (pin : Nat) (m : Word) (s : State) : Run Unit :=
  (memRead (addressOf s.cfg .fsel pin).offset s).bind fun t s =>
    (memWrite (addressOf s.cfg .fsel pin).offset
      (replaceField t (addressOf s.cfg .fsel pin).bitOffset 3 m) (setTemp (some t) s)).bind fun _ s =>
      .done () (setTemp none s)

/-- `level_write(pin, lvl)` (rule R155): one write of a single 1 bit to SET or CLR. -/
def levelWrite (pin : Nat) (lvl : Level) (s : State) : Run Unit :=
  memWrite (addressOf s.cfg (levelFamily lvl) pin).offset
    (1#32 <<< (addressOf s.cfg (levelFamily lvl) pin).bitOffset) s

/-- One field read from a register of a family that can be read: `(MemRead(off, 4) >> bo) & mask` (rules R162, R165,
R177). -/
def readPinField (f : Family) (pin : Nat) (s : State) : Run Word :=
  (memRead (addressOf s.cfg f pin).offset s).bind fun v s =>
    .done (extractField v (addressOf s.cfg f pin).bitOffset (addressOf s.cfg f pin).bitWidth) s

end Sys2Proof.Machine
end

