-- ==== Sys2Proof/Machine/Calculator.lean ====
section
/-! DEFINITION. The Register Address Calculator's command (40_calculator.md). -/

namespace Sys2Proof.Machine

/-- `(w << 8) | bo`: the second response word of `ADDR` (rule R122). -/
def addrData (a : RegAddr) : Word := (BitVec.ofNat 32 a.bitWidth <<< 8) ||| BitVec.ofNat 32 a.bitOffset

/-- `ADDR fam, pin` (rule R122): no access, no state written. -/
def execAddr (fam : Family) (pin : Nat) (s : State) : Result :=
  command (.addr fam pin) s fun s =>
    (checkPin pin s).bind fun _ s =>
      .done (BitVec.ofNat 32 (addressOf s.cfg fam pin).offset, addrData (addressOf s.cfg fam pin)) s

end Sys2Proof.Machine
end

