-- ==== Sys2Proof/Machine/Enumerator.lean ====
section
/-! DEFINITION. The Pin Enumerator's command (43_enumerator.md). -/

namespace Sys2Proof.Machine

/-- `d1` of an `ENEXT` response: the result kind in bits 1:0 (rules R103, R104). -/
def kindData (k : EnumKind) : Word := (kindCode k).setWidth 32

/-- `k | (f << 16) | (l << 24)`: `d0` of a `REPORT` (rules R103, R177). -/
def reportData (k : Nat) (f l : Word) : Word := BitVec.ofNat 32 k ||| (f <<< 16) ||| (l <<< 24)

/-- `is_io(f)`: the field says input or output (rule R161). -/
def isIo (f : Word) : Bool := f == 0b000#32 || f == 0b001#32

/-- `ECUR <- c` (rule R24). -/
def setCursor (c : Cursor) (s : State) : State := { s with ecur := c }

/-- One pin examined: the function field, then the level only for a pin that is reported; the cursor moves on by one pin
(rule R177). -/
def examinePin (k : Nat) (s : State) : Run (Word × Word) :=
  (readPinField .fsel k s).bind fun f s =>
    if isIo f then
      (readPinField .lev k s).bind fun l s =>
        .done (reportData k f l, kindData .report) (setCursor (.atPin (k + 1)) s)
    else .done (0#32, kindData .skip) (setCursor (.atPin (k + 1)) s)

/-- `ENEXT` (rule R177). A cursor beyond `NUM_PINS` is no value of `ECUR` (rule R24; log 13). -/
def execEnext (s : State) : Result :=
  command .enext s fun s =>
    match s.ecur with
    | .start => .done (0#32, kindData .header) (setCursor (.atPin 0) s)
    | .atPin k =>
      if k < s.cfg.numPins then examinePin k s
      else if k = s.cfg.numPins then .done (0#32, kindData .fin) (setCursor .start s)
      else .stuck .cursorOutside

end Sys2Proof.Machine
end

