-- ==== Sys2Proof/Machine/PinController.lean ====
section
/-! DEFINITION. The Pin Controller's commands (42_pin_controller.md). -/

namespace Sys2Proof.Machine

/-- `CFGIN pin` (rule R152). -/
def execCfgin (pin : Nat) (s : State) : Result :=
  command (.cfgin pin) s fun s =>
    (checkPin pin s).bind fun _ s =>
      (fselRmw pin 0b000#32 s).bind fun _ s => .done (0#32, 0#32) s

/-- `CFGOUT pin, lvl` (rule R156): the function first, then the level (rule R157). -/
def execCfgout (pin : Nat) (lvl : Level) (s : State) : Result :=
  command (.cfgout pin lvl) s fun s =>
    (checkPin pin s).bind fun _ s =>
      (fselRmw pin 0b001#32 s).bind fun _ s =>
        (levelWrite pin lvl s).bind fun _ s => .done (0#32, 0#32) s

/-- `SETLV pin, lvl` (rule R159): the pin's mode is neither checked nor changed. -/
def execSetlv (pin : Nat) (lvl : Level) (s : State) : Result :=
  command (.setlv pin lvl) s fun s =>
    (checkPin pin s).bind fun _ s =>
      (levelWrite pin lvl s).bind fun _ s => .done (0#32, 0#32) s

/-- `RDFN pin` (rule R162): the raw 3-bit field. -/
def execRdfn (pin : Nat) (s : State) : Result :=
  command (.rdfn pin) s fun s =>
    (checkPin pin s).bind fun _ s =>
      (readPinField .fsel pin s).bind fun f s => .done (f, 0#32) s

/-- `RDLV pin` (rule R165): the pin's mode is not checked. -/
def execRdlv (pin : Nat) (s : State) : Result :=
  command (.rdlv pin) s fun s =>
    (checkPin pin s).bind fun _ s =>
      (readPinField .lev pin s).bind fun l s => .done (l, 0#32) s

/-- The Function Modes (rule R63). -/
inductive FnMode where
  | input | output | alt0 | alt1 | alt2 | alt3 | alt4 | alt5
deriving DecidableEq, Repr

/-- `mode_of(f)`: the documented, non-monotonic mapping (rules R63, R161). -/
def modeOf (f : BitVec 3) : FnMode :=
  if f = 0#3 then .input
  else if f = 1#3 then .output
  else if f = 2#3 then .alt5
  else if f = 3#3 then .alt4
  else if f = 4#3 then .alt0
  else if f = 5#3 then .alt1
  else if f = 6#3 then .alt2
  else .alt3

end Sys2Proof.Machine
end

