-- ==== Sys2Proof/Machine/Dispatch.lean ====
section
/-! DEFINITION. The meaning of each command: one arm per constructor of `Instr`. -/

namespace Sys2Proof.Machine

def exec (i : Instr) (s : State) : Host.Outcome State Fault Refusal :=
  match i with
  | .addr fam pin => Sys2Proof.Machine.execAddr fam pin s
  | .cfgin pin => Sys2Proof.Machine.execCfgin pin s
  | .cfgout pin lvl => Sys2Proof.Machine.execCfgout pin lvl s
  | .setlv pin lvl => Sys2Proof.Machine.execSetlv pin lvl s
  | .rdfn pin => Sys2Proof.Machine.execRdfn pin s
  | .rdlv pin => Sys2Proof.Machine.execRdlv pin s
  | .enext => Sys2Proof.Machine.execEnext s

end Sys2Proof.Machine
end

