-- ==== Sys2Proof/Machine/Frontend.lean ====
section
/-! DEFINITION. The front-end (44_command_frontend.md): the Command Dispatcher, which turns text commands and queries into
command words, and the Attribute Binding Table. -/

namespace Sys2Proof.Machine

/-- The whitespace bytes (rule R196). -/
def isSpace (b : Byte) : Bool := b == 0x20#8 || (0x09#8 ≤ b && b ≤ 0x0D#8)

/-- The tokens of a buffer after the bytes `cur`, newest first, of a token already begun (rule R196). -/
def tokensFrom (cur : List Byte) : List Byte → List (List Byte)
  | [] => if cur = [] then [] else [cur.reverse]
  | b :: rest =>
    if isSpace b then (if cur = [] then tokensFrom [] rest else cur.reverse :: tokensFrom [] rest)
    else tokensFrom (b :: cur) rest

/-- The maximal runs of bytes that are not whitespace, in order (rule R196). -/
def tokens (buf : List Byte) : List (List Byte) := tokensFrom [] buf

/-- An ASCII decimal digit (rule R198). -/
def isDigit (b : Byte) : Bool := 0x30#8 ≤ b && b ≤ 0x39#8

/-- The value of a digit: its distance from `0` (rule R198). -/
def digitValue (b : Byte) : Nat := (b - 0x30#8).toNat

/-- The value of decimal digits after a prefix of value `acc`, computed without overflow (rule R198). -/
def decimalFrom (acc : Nat) : List Byte → Nat
  | [] => acc
  | b :: rest => decimalFrom (10 * acc + digitValue b) rest

/-- The pin a `<pin>` token names (rule R198). -/
def parsePin (numPins : Nat) (tok : List Byte) : Option Nat :=
  if tok ≠ [] ∧ tok.all isDigit = true ∧ decimalFrom 0 tok < numPins then some (decimalFrom 0 tok) else none

/-- The three actions of the command language (rule R197). -/
inductive Action where
  | high | low | input
deriving DecidableEq, Repr

/-- The bytes of `high`, `low` and `in` (rule R199). -/
def actionText : Action → List Byte
  | .high => [0x68#8, 0x69#8, 0x67#8, 0x68#8]
  | .low => [0x6C#8, 0x6F#8, 0x77#8]
  | .input => [0x69#8, 0x6E#8]

/-- The action a token names, matched byte for byte (rule R199). -/
def parseAction (tok : List Byte) : Option Action :=
  if tok = actionText .high then some .high
  else if tok = actionText .low then some .low
  else if tok = actionText .input then some .input
  else none

/-- The command an action stands for (rules R200 to R202). -/
def actionInstr (pin : Nat) : Action → Instr
  | .high => .cfgout pin .high
  | .low => .cfgout pin .low
  | .input => .cfgin pin

/-- The decimal digits of a number, without leading zeros; `fuel` bounds their count (rule R216). -/
def decimalDigits : (fuel : Nat) → Nat → List Byte
  | 0, _ => []
  | fuel + 1, n =>
    if n < 10 then [BitVec.ofNat 8 (0x30 + n)]
    else decimalDigits fuel (n / 10) ++ [BitVec.ofNat 8 (0x30 + n % 10)]

/-- `name(n)`: the bytes `gpio` and `n` in decimal (rule R216). -/
def pinName (n : Nat) : List Byte := [0x67#8, 0x70#8, 0x69#8, 0x6F#8] ++ decimalDigits (n + 1) n

/-- `lookup(s)`: the pin of the first binding of that name (rule R217). -/
def lookup (table : List Binding) (name : List Byte) : Option Nat :=
  (table.find? fun b => b.name == name).map Binding.pin

/-- The pin and the action of a text command, or nothing where it fails a test of rules R197 to R199 or its channel's
name does not resolve (rules R203, R221). The form follows from the channel (rule R197). -/
def parseText (s : State) (ch : Channel) (buf : List Byte) : Option (Nat × Action) :=
  match ch, tokens buf with
  | .unbound, [pinTok, actTok] =>
    match parsePin s.cfg.numPins pinTok, parseAction actTok with
    | some n, some act => some (n, act)
    | _, _ => none
  | .bound name, [actTok] =>
    match lookup s.bind name, parseAction actTok with
    | some n, some act => some (n, act)
    | _, _ => none
  | _, _ => none

/-- The front-end tells its caller something. -/
def reply (r : Reply) (s : State) : State := { s with replies := s.replies ++ [r] }

/-- A command word at the command port (rules R90, R98): decoded, and executed or rejected. -/
def present (w : Word) (s : State) : Result :=
  match decode w with
  | .legal i => exec i s
  | .illegal _ => rejectWord s

/-- The response a command produced: the one that follows those the port had given before it. -/
def newResponse (before after : State) : Option Response := (after.responses.drop before.responses.length).head?

/-- The front-end issues one command word and goes on with its response; where reset abandoned the command there is none
(rule R263) and the front-end's own command ends too. -/
def issue (i : Instr) (s : State) (k : Response → State → Result) : Result :=
  match present (encode i) s with
  | .next t =>
    match newResponse s t with
    | some r => k r t
    | none => .next t
  | .fault f => .fault f
  | .refused why => .refused why

/-- How an engine status reaches the front-end's caller (rule R208). -/
def replyOfStatus : Status → Reply
  | .ok => .ok
  | .outOfRange => .outOfRange
  | .invalidCommand => .invalidCommand
  | .hwFault => .hwFault

/-- A text command dispatched (rules R200 to R203): all tests come before the first command word. -/
def dispatchText (ch : Channel) (buf : List Byte) (s : State) : Result :=
  ifReady s <|
    match parseText s ch buf with
    | some (n, act) => issue (actionInstr n act) s fun r t => .next (reply (replyOfStatus r.status) t)
    | none => .next (reply .invalidCommand s)

/-- The bytes `input: ` and `output: ` (rule R205). -/
def inputText : List Byte := [0x69#8, 0x6E#8, 0x70#8, 0x75#8, 0x74#8, 0x3A#8, 0x20#8]

def outputText : List Byte := [0x6F#8, 0x75#8, 0x74#8, 0x70#8, 0x75#8, 0x74#8, 0x3A#8, 0x20#8]

/-- The bytes of `Not input/output pin!` (rule R205). -/
def notIoText : List Byte :=
  [0x4E#8, 0x6F#8, 0x74#8, 0x20#8, 0x69#8, 0x6E#8, 0x70#8, 0x75#8, 0x74#8, 0x2F#8, 0x6F#8, 0x75#8, 0x74#8,
    0x70#8, 0x75#8, 0x74#8, 0x20#8, 0x70#8, 0x69#8, 0x6E#8, 0x21#8]

/-- The digit of a level: `0` for `LOW`, `1` for `HIGH` (rules R94, R205). -/
def levelDigit (l : Word) : Byte := if l = 1#32 then 0x31#8 else 0x30#8

/-- The status line of an input or output pin of raw field `f` and level bit `l` (rules R205, R206). -/
def levelLine (f l : Word) : List Byte := (if f = 0#32 then inputText else outputText) ++ [levelDigit l]

/-- The pin a status query is about (rules R204, R221). -/
def queryPin (s : State) : QueryTarget → Option Nat
  | .named pin => some pin
  | .bound name => lookup s.bind name

/-- The reply to a query whose command the engine did not answer with `OK`, and `good` where it did. -/
def onOk (r : Response) (t : State) (good : Result) : Result :=
  if r.status = .ok then good else .next (reply (replyOfStatus r.status) t)

/-- A status query (rules R204, R205): `RDFN`, then `RDLV` only for an input or output pin. A pin that no command word can
hold is out of range as well (log 15). -/
def statusQuery (q : QueryTarget) (s : State) : Result :=
  ifReady s <|
    match queryPin s q with
    | none => .next (reply .invalidCommand s)
    | some n =>
      if pinFits n then
        issue (.rdfn n) s fun r t => onOk r t <|
          if isIo r.d0 then
            issue (.rdlv n) t fun r' t' => onOk r' t' (.next (reply (.line (levelLine r.d0 r'.d0)) t'))
          else .next (reply (.line notIoText) t)
      else .next (reply .outOfRange s)

/-- The bytes an enumeration read produces (rules R182, R207): the banner line, one per-pin line, and nothing for a
skipped pin and at the end. The two texts are the host's (log 17). -/
def enumBytes (r : Response) : List Byte :=
  match kindOfCode r.d1 with
  | .fin => []
  | .header => Config.bannerLine
  | .report =>
    Config.reportLine (r.d0.extractLsb' 0 16).toNat (r.d0.extractLsb' 16 3) (levelOfBit (r.d0.getLsbD 24))
  | .skip => []

/-- An enumeration read (rule R207): one `ENEXT`. -/
def enumRead (s : State) : Result :=
  ifReady s <|
    issue .enext s fun r t => onOk r t (.next (reply (.enumerated (kindOfCode r.d1) (enumBytes r)) t))

/-- `configure(list)` (rules R215, R218, R220): one binding per pin, in order; a list with a pin that does not exist is
refused whole with `OutOfRange`. -/
def configure (pins : List Nat) (s : State) : Result :=
  ifReady s <|
    if s.configured then .refused .secondConfigure
    else if pins.all (fun n => decide (n < s.cfg.numPins)) then
      .next (reply .ok { s with bind := pins.map fun n => ⟨pinName n, n⟩, configured := true })
    else .next (reply .outOfRange s)

/-- `teardown()` (rule R219): all bindings go in one step. -/
def teardown (s : State) : Result := ifReady s (.next { s with bind := [], configured := false })

end Sys2Proof.Machine
end

