-- ==== Sys2Proof/Machine/Port.lean ====
section
/-! DEFINITION. What the machine does with one input of the host or of the environment (INVENTORY.md, Host interface). -/

namespace Sys2Proof.Machine

/-- The reset input (rules R260 to R262), with the `Config` the host supplies at this start (rules R28, R261; DESIGN CHOICE,
log 18). It is taken in every state, the faulted one too (rule R238). DESIGN CHOICE (log 22), unsafe: where that `Config`
has another `FSEL_BASE`, the bytes of the region keep their offsets, so `fsel[j]` becomes what lies at the new ones (0 where
nothing is listed), while latches and lines keep their pin; rule R262 leaves the bank after a reset open. -/
def resetInput (cfg : Config) (s : State) : Result :=
  if ConfigOK cfg then .next (resetEngine { s with cfg := cfg }) else .refused .configNotOk

/-- An act of another agent between two commands (rule R241). It does not need the engine. -/
def actInput (a : EnvAct) (s : State) : Result :=
  if ConfigOK s.cfg then
    match envAct a s with
    | .done _ t => .next t
    | .raised _ t => .next t
    | .abandoned t => .next t
    | .refused why => .refused why
    | .stuck f => .fault f
  else .refused .configNotOk

/-- One input taken. -/
def takeInput (input : Input) (s : State) : Result :=
  match input with
  | .command w => present w s
  | .reset cfg => resetInput cfg s
  | .act a => actInput a s
  | .text ch buf => dispatchText ch buf s
  | .query q => statusQuery q s
  | .enumRead => enumRead s
  | .configure pins => configure pins s
  | .teardown => teardown s

/-- The inputs from here on. -/
def withInputs (inputs : List Input) (s : State) : State := { s with inputs := inputs }

/-- Nothing is presented: an idle engine stays as it is (rule R239: "between two commands its state does not change"). -/
def idle (s : State) : Result := ifReady s (.next s)

/-- The next input is taken off the stream; where there is none the engine is idle. -/
def takeNext (s : State) : Result :=
  match s.inputs with
  | [] => idle s
  | input :: rest => takeInput input (withInputs rest s)

/-- A command word becomes the next input at the command port (rule R90). -/
def presentNext (w : Word) (s : State) : State := withInputs (.command w :: s.inputs) s

end Sys2Proof.Machine
end

