-- ==== Sys2Proof/Safety.lean ====
section
/-! DEFINITION. The terms claims are stated in: when the engine takes a command, the premises the spec makes about the bus
and the other agents, what the environment has done when an access is made, the invariant, calls of the
enumerator, and finished runs. -/

namespace Sys2Proof.Machine

/-- The engine takes a command: `ConfigOK` (rule R13), no command in progress, `FAULTED = 0` (rules R26, R90). -/
abbrev Ready (s : State) : Prop := ConfigOK s.cfg ∧ s.busy = none ∧ s.faulted = false

/-- The premise that every coming access completes, and no reset arrives at one (rule R57: "A model states its claims
under the premise that no access faults"). -/
abbrev AccessesComplete (s : State) : Prop := ∀ t ∈ s.script, t.answer = .done

/-- No reset arrives at a coming access (rule R263); accesses may fault. -/
abbrev NoReset (s : State) : Prop := ∀ t ∈ s.script, t.answer ≠ .reset ∧ t.answer ≠ .doneThenReset

/-- The offset is that of register `j` of family `f` (rule R55). -/
abbrev IsRegister (cfg : Config) (f : Family) (off : Nat) : Prop := ∃ j, j < nregs cfg f ∧ off = base cfg f + 4 * j

/-- The act is a write of the bank. -/
def isWrite : EnvAct → Bool
  | .line _ _ => false
  | .busWrite _ _ => true
  | .probe _ => false

/-- The act is a write of the register at this offset. -/
def writesTo (off : Nat) : EnvAct → Bool
  | .line _ _ => false
  | .busWrite o _ => o == off
  | .probe _ => false

/-- The act does no more than look at a pin. -/
def isProbe : EnvAct → Bool
  | .line _ _ => false
  | .busWrite _ _ => false
  | .probe _ => true

/-- The act is one the spec gives an effect: not a write to LEV or outside the four families (rule R69). -/
def actDefined (cfg : Config) : EnvAct → Bool
  | .line _ _ => true
  | .busWrite off _ => decide (IsRegister cfg .fsel off ∨ IsRegister cfg .set off ∨ IsRegister cfg .clr off)
  | .probe _ => true

/-- The spec gives every coming act of the other agents an effect (rule R69: it refuses any other). -/
abbrev WritesDefined (s : State) : Prop := ∀ t ∈ s.script, ∀ a ∈ t.before, actDefined s.cfg a = true

/-- No other agent writes the bank at any coming access. -/
abbrev NoForeignWrites (s : State) : Prop := ∀ t ∈ s.script, ∀ a ∈ t.before, isWrite a = false

/-- No other agent does more than look at the coming accesses, so no pin state changes but by the engine (rule R178). -/
abbrev Quiet (s : State) : Prop := ∀ t ∈ s.script, ∀ a ∈ t.before, isProbe a = true

/-- No other agent writes one of these registers since the engine's last access and before its next one. -/
abbrev Untouched (offs : List Nat) (script : List BusTurn) : Prop :=
  ∀ t ∈ script.take 1, ∀ a ∈ t.before, ∀ off ∈ offs, writesTo off a = false

/-- The state at the instant of the engine's next access: what the other agents do before it is done, and the turn of the
script is used up. (Where a write of theirs has no effect in the spec nothing is said: the step is refused.) -/
def atAccess (s : State) : State :=
  match busTurn s with
  | .done _ t => t
  | .raised _ _ => withScript s.script.tail s
  | .abandoned _ => withScript s.script.tail s
  | .refused _ => withScript s.script.tail s
  | .stuck _ => withScript s.script.tail s

/-- How many accesses the command makes in this state if each completes (the table of rule R142). -/
def accessCount (i : Instr) (s : State) : Nat :=
  match i with
  | .addr _ _ => 0
  | .cfgin p => if p < s.cfg.numPins then 2 else 0
  | .cfgout p _ => if p < s.cfg.numPins then 3 else 0
  | .setlv p _ => if p < s.cfg.numPins then 1 else 0
  | .rdfn p => if p < s.cfg.numPins then 1 else 0
  | .rdlv p => if p < s.cfg.numPins then 1 else 0
  | .enext =>
    match s.ecur with
    | .start => 0
    | .atPin k =>
      if k < s.cfg.numPins then
        if fnField (atAccess s) k = 0b000#3 ∨ fnField (atAccess s) k = 0b001#3 then 2 else 1
      else 0

/-- The turns that `n` accesses use up; one that does not complete is the last. -/
def turnsUsed : Nat → List BusTurn → List BusTurn
  | 0, _ => []
  | _ + 1, [] => []
  | n + 1, t :: rest => t :: (if t.answer = .done then turnsUsed n rest else [])

/-- `HostSerializes` (rule R80) for the command that comes: between its first and its last bus access no other agent writes
any register of the bank. Before the first access, and so between two commands, they may, and the external lines may change
at any time. -/
abbrev HostSerializes (i : Instr) (s : State) : Prop :=
  ∀ t ∈ (turnsUsed (accessCount i s) s.script).tail, ∀ a ∈ t.before, isWrite a = false

/-- The state at the instant of the command's first access; the state it starts in where it makes none. -/
def atFirstAccess (i : Instr) (s : State) : State := if accessCount i s = 0 then s else atAccess s

/-- The cursor has a value of `ECUR`: `START` or `0 .. NUM_PINS` (rule R24). -/
def cursorLegal (cfg : Config) : Cursor → Bool
  | .start => true
  | .atPin k => decide (k ≤ cfg.numPins)

/-- What holds between steps: `ConfigOK` (R13), the three memories in canonical form, no command in progress (R23), a legal
cursor (R24), every binding a pin that exists under its own name (R215), and no binding without `configure` (R219). -/
structure Inv (s : State) : Prop where
  config : ConfigOK s.cfg
  memory : Memory.Wf s.mem ∧ Memory.Wf s.lat ∧ Memory.Wf s.ext
  idle : s.busy = none
  cursor : cursorLegal s.cfg s.ecur = true
  bindings : ∀ b ∈ s.bind, b.pin < s.cfg.numPins ∧ b.name = pinName b.pin
  unconfigured : s.configured = false → s.bind = []

/-- The engine, the front-end and the host's inputs are as before, but for the ports' histories and `ECUR`: the frame every
command leaves when no reset arrives and no access faults (rules R28, R29, R31). -/
structure SameRest (s t : State) : Prop where
  cfg : t.cfg = s.cfg
  faulted : t.faulted = s.faulted
  idle : t.busy = none
  bind : t.bind = s.bind
  configured : t.configured = s.configured
  inputs : t.inputs = s.inputs
  replies : t.replies = s.replies

/-- The register bank is as before (rule R60), but for the external lines, which only the environment moves. -/
structure SameBank (s t : State) : Prop where
  bytes : t.mem = s.mem
  latches : t.lat = s.lat

/-- The response `(OK, 0, 0)`, and the response to each error (rule R102). -/
def okResponse : Response := ⟨.ok, 0#32, 0#32⟩

def errorResponse (st : Status) : Response := ⟨st, 0#32, 0#32⟩

/-- The response to `ENEXT` for pin `k` of raw field `f` and level `l` (rules R103, R177): a `REPORT` for an input or an
output, a `SKIP` otherwise. -/
def pinRecord (k : Nat) (f : BitVec 3) (l : Bool) : Response :=
  if f = 0b000#3 ∨ f = 0b001#3 then
    ⟨.ok, BitVec.ofNat 32 k ||| (f.setWidth 32 <<< 16) ||| ((if l then 1#32 else 0#32) <<< 24), 2#32⟩
  else ⟨.ok, 0#32, 3#32⟩

/-- `n` calls of `ENEXT`, one after the other (rule R178). -/
def enextCalls : Nat → State → Result
  | 0, s => .next s
  | n + 1, s =>
    match exec .enext s with
    | .next t => enextCalls n t
    | .fault f => .fault f
    | .refused why => .refused why

/-- The host presents command words one after the other, each the very next thing a step runs (rules R23, R90). -/
def runCommands : List Word → State → Result
  | [], s => .next s
  | w :: rest, s =>
    match step (presentNext w s) with
    | .next t => runCommands rest t
    | .fault f => .fault f
    | .refused why => .refused why

/-- The engine has finished a list of command words (rule R267): every word was taken, the last one produced its response (a
reset that cut it leaves none), the engine is idle again and `FAULTED = 0`. -/
structure Finished (words : List Word) (s t : State) : Prop where
  ran : runCommands words s = .next t
  answered : ∀ before w u, words = before ++ [w] → runCommands before s = .next u → ∃ r, t.responses = u.responses ++ [r]
  idle : t.busy = none
  healthy : t.faulted = false

/-- A finished session of the enumerator (rule R267); any other cursor is an open session, which the next `ENEXT` continues. -/
abbrev SessionFinished (s : State) : Prop := s.ecur = .start

/-- An access the engine may make (rule R55): a read of FSEL or LEV, or a write of FSEL, SET or CLR, at the offset of a
register of that family. -/
def EngineAccess (cfg : Config) : Access → Prop
  | .rd off _ => IsRegister cfg .fsel off ∨ IsRegister cfg .lev off
  | .wr off _ => IsRegister cfg .fsel off ∨ IsRegister cfg .set off ∨ IsRegister cfg .clr off

end Sys2Proof.Machine
end

