-- ==== Sys2Proof/Certificates/Slice0/Obligations.lean ====
section
/-! DEFINITION. The statements for the provers. `Ready` is the condition under which the engine accepts a command
(rules R13, R26, R90); `AccessesComplete` is the premise of rule R57; `WritesDefined` says that the other agents do nothing
the spec refuses a meaning (rule R69); `HostSerializes i s` is the premise of rule R80 for the one command `i`; `atAccess s`
is the state at the instant of the engine's next access, after what the other agents do before it: they may write the
bank there, and the lines may move. -/

open Sys2Proof Sys2Proof.Machine

/-! ### Encoding -/

/-- Rule R99: decoding and encoding are each other's inverse on the commands that have a word, and the encoder is
`op << 28 | fam << 26 | lvl << 25 | pin`. -/
def Obligations.DecodeEncodeAgree : Prop :=
  (∀ i : Instr, i.WellFormed → decode (encode i) = .legal i)
  ∧ (∀ (w : Word) (i : Instr), decode w = .legal i → encode i = w ∧ i.WellFormed)
  ∧ (∀ i : Instr, encode i =
      (i.op.setWidth 32 <<< 28) ||| (i.famCode.setWidth 32 <<< 26) ||| (i.lvlCode.setWidth 32 <<< 25) ||| BitVec.ofNat 32 i.pin)

/-- Rule R97: a word is a command exactly when `w & mask = match`, row by row, and no word is two commands. -/
def Obligations.WordIsCommandByMask : Prop :=
  ∀ w : Word,
    ((∃ f p, decode w = .legal (.addr f p)) ↔ w &&& 0xF3FF0000#32 = 0x10000000#32)
    ∧ ((∃ p, decode w = .legal (.cfgin p)) ↔ w &&& 0xFFFF0000#32 = 0x20000000#32)
    ∧ ((∃ p l, decode w = .legal (.cfgout p l)) ↔ w &&& 0xFDFF0000#32 = 0x30000000#32)
    ∧ ((∃ p l, decode w = .legal (.setlv p l)) ↔ w &&& 0xFDFF0000#32 = 0x40000000#32)
    ∧ ((∃ p, decode w = .legal (.rdfn p)) ↔ w &&& 0xFFFF0000#32 = 0x50000000#32)
    ∧ ((∃ p, decode w = .legal (.rdlv p)) ↔ w &&& 0xFFFF0000#32 = 0x60000000#32)
    ∧ (decode w = .legal .enext ↔ w &&& 0xFFFFFFFF#32 = 0x70000000#32)
    ∧ opRows.Pairwise (fun r q => ¬ (w &&& r.mask = r.bits ∧ w &&& q.mask = q.bits))

/-- Rules R91 to R95: the operands of a decoded command are the fields of its word. -/
def Obligations.OperandsAreWordFields : Prop :=
  ∀ w : Word,
    (∀ f p, decode w = .legal (.addr f p) → p = w.toNat % 65536 ∧ w.extractLsb' 26 2 =
      (match f with | .fsel => 0#2 | .set => 1#2 | .clr => 2#2 | .lev => 3#2))
    ∧ (∀ p l, decode w = .legal (.cfgout p l) ∨ decode w = .legal (.setlv p l) →
        p = w.toNat % 65536 ∧ w.getLsbD 25 = (match l with | .low => false | .high => true))
    ∧ (∀ p, decode w = .legal (.cfgin p) ∨ decode w = .legal (.rdfn p) ∨ decode w = .legal (.rdlv p) →
        p = w.toNat % 65536)

/-- Words written out from rule R96 decode to the commands they stand for. -/
def Obligations.SpelledWordsDecode : Prop :=
  decode 0b0001_00_0_000000000_0000000000010001#32 = .legal (.addr .fsel 17)
  ∧ decode 0b0001_11_0_000000000_0000000000101111#32 = .legal (.addr .lev 47)
  ∧ decode 0b0010_00_0_000000000_0000000000010001#32 = .legal (.cfgin 17)
  ∧ decode 0b0011_00_1_000000000_0000000000000101#32 = .legal (.cfgout 5 .high)
  ∧ decode 0b0100_00_0_000000000_0000000000110101#32 = .legal (.setlv 53 .low)
  ∧ decode 0b0101_00_0_000000000_0000000000101111#32 = .legal (.rdfn 47)
  ∧ decode 0b0110_00_0_000000000_0000000000101111#32 = .legal (.rdlv 47)
  ∧ decode 0b0111_00_0_000000000_0000000000000000#32 = .legal .enext

/-- Rule R98: a word that matches none of the seven rows is answered `INVALID_COMMAND`, with no access and no other
change; the reserved operation codes and the all-zero word are such words. -/
def Obligations.IllegalWordRejected : Prop :=
  (∀ (s : State) (w : Word) (rest : List Input), Ready s → s.inputs = .command w :: rest →
    (∀ r ∈ opRows, w &&& r.mask ≠ r.bits) →
    step s = .next { s with inputs := rest, responses := s.responses ++ [errorResponse .invalidCommand] })
  ∧ (∀ w : Word, w.extractLsb' 28 4 = 0x0#4 ∨ 0x8#4 ≤ w.extractLsb' 28 4 → ∀ r ∈ opRows, w &&& r.mask ≠ r.bits)
  ∧ (∀ r ∈ opRows, 0#32 &&& r.mask ≠ r.bits)

/-! ### The step -/

/-- A step runs the command whose word stands at the command port, on the state in which the port has
taken it (the port as a list of inputs is the model's choice, log 4). -/
def Obligations.StepRunsDecodedCommand : Prop :=
  ∀ (s : State) (w : Word) (rest : List Input) (i : Instr), s.inputs = .command w :: rest → decode w = .legal i →
    step s = exec i (withInputs rest s)

/-- The word of every well-formed command, presented next, is the very next thing the machine runs (log 4). -/
def Obligations.PresentedWordRuns : Prop :=
  ∀ (s : State) (i : Instr), i.WellFormed → step (s.withFetchWord 32 (encode i).toNat) = exec i s

/-- Rules R13, R26, R90: a command is executed only in a ready state; `FAULTED` and a command in progress leave it stuck, a
`Config` that is not `ConfigOK` refuses it. -/
def Obligations.CommandsNeedReadiness : Prop :=
  ∀ (i : Instr) (s : State),
    (∀ t, exec i s = .next t → Ready s)
    ∧ (¬ ConfigOK s.cfg → exec i s = .refused .configNotOk)
    ∧ (ConfigOK s.cfg → s.busy ≠ none → exec i s = .fault .engineBusy)
    ∧ (ConfigOK s.cfg → s.busy = none → s.faulted = true → exec i s = .fault .engineFaulted)

/-- Rules R26, R238: from a faulted state only reset, or an act of the environment, which does not touch the engine, gives
a next state; reset clears `FAULTED` and nothing else does (acts as steps of their own: the model's choice, logs 4 and 10). -/
def Obligations.OnlyResetLeavesFaulted : Prop :=
  ∀ s t : State, s.faulted = true → step s = .next t →
    (∃ cfg rest, s.inputs = .reset cfg :: rest ∧ t.faulted = false)
    ∨ (∃ a rest, s.inputs = .act a :: rest ∧ t.faulted = true ∧ t.ecur = s.ecur ∧ t.responses = s.responses
        ∧ t.replies = s.replies ∧ t.trace = s.trace)

/-- Rule R239: between two commands the state of the engine does not change (the model's idle step, log 4). -/
def Obligations.IdleEngineStays : Prop :=
  ∀ s : State, Ready s → s.inputs = [] → step s = .next s

/-- Rule R28: no step but reset changes the configuration (that reset carries it is the model's choice, log 18). -/
def Obligations.ConfigChangesOnlyAtReset : Prop :=
  ∀ s t : State, step s = .next t → (∀ cfg rest, s.inputs ≠ .reset cfg :: rest) → t.cfg = s.cfg

/-! ### Reset -/

/-- The reset input, after rule R261: from every state, `ECUR`, `FAULTED` and `BIND` are reset, a command in progress is
dropped without a response, no access is made, and all else stays. That the input installs a `ConfigOK` `Config` is the
model's choice (log 18), and so is that the region's bytes keep their offsets under it (log 22); of `configured`, the
model's flag of log 14, nothing is said. -/
def Obligations.ResetRestoresEngine : Prop :=
  ∀ (s : State) (cfg : Config) (rest : List Input), s.inputs = .reset cfg :: rest → ConfigOK cfg →
    ∃ t, step s = .next t ∧ t = { s with inputs := rest, cfg := cfg, ecur := .start, faulted := false, bind := [],
                                         busy := none, configured := t.configured }

/-- Rule R36: what the spec gives of the state after reset. -/
def Obligations.ResetStateValues : Prop :=
  State.reset.ecur = .start ∧ State.reset.faulted = false ∧ State.reset.busy = none ∧ State.reset.bind = []
  ∧ State.reset.responses = [] ∧ State.reset.trace = [] ∧ State.reset.cfg.numPins = 54
  ∧ State.reset.cfg.levModel = .latchWhenOutput

/-- A reset between two accesses, after rule R263: the command is abandoned, what was done stays, the rest is not issued,
there is no response, and the engine is as after reset. A `CFGIN` or `CFGOUT` cut after its FSEL read, and an `ENEXT` cut
after its, have changed nothing in the bank; a `CFGOUT` cut after its FSEL write leaves the pin an output with the old latch
value. The reset comes as either turn the bus script has for it, just after the one access or just before the other (the
model's choice, log 12). That the first access of an `ENEXT` is its FSEL read, and that its trace has that read alone, rests on
the spec's decision D18 (rule R177). -/
def Obligations.ResetBetweenAccesses : Prop :=
  ∀ (s : State) (p : Nat), Ready s → p < s.cfg.numPins →
    (∀ (i : Instr) (rest : List BusTurn),
      i = .cfgin p ∨ (∃ l, i = .cfgout p l) ∨ (i = .enext ∧ s.ecur = .atPin p ∧ (fnField s p = 0b000#3 ∨ fnField s p = 0b001#3)) →
      s.script = ⟨[], .done⟩ :: ⟨[], .reset⟩ :: rest ∨ s.script = ⟨[], .doneThenReset⟩ :: rest →
      ∃ t, exec i s = .next t ∧ SameBank s t ∧ t.ext = s.ext ∧ t.ecur = .start ∧ t.faulted = false ∧ t.busy = none
        ∧ t.bind = [] ∧ t.responses = s.responses
        ∧ t.trace = s.trace ++ [.rd (addressOf s.cfg .fsel p).offset (fselReg s (p / 10))])
    ∧ (∀ (l : Level) (rest : List BusTurn),
      s.script = ⟨[], .done⟩ :: ⟨[], .done⟩ :: ⟨[], .reset⟩ :: rest ∨ s.script = ⟨[], .done⟩ :: ⟨[], .doneThenReset⟩ :: rest →
      ∃ t v, exec (.cfgout p l) s = .next t ∧ fnField t p = 0b001#3 ∧ (∀ q, latch t q = latch s q) ∧ t.ecur = .start
        ∧ t.faulted = false ∧ t.busy = none ∧ t.bind = [] ∧ t.responses = s.responses
        ∧ t.trace = s.trace ++ [.rd (addressOf s.cfg .fsel p).offset (fselReg s (p / 10)),
            .wr (addressOf s.cfg .fsel p).offset v])

/-! ### The calculator -/

/-- Rule R121: the triple of `address_of`, family by family. -/
def Obligations.AddressOfTriple : Prop :=
  ∀ (cfg : Config) (p : Nat),
    addressOf cfg .fsel p = ⟨cfg.fselBase + (p / 10) * 4, (p % 10) * 3, 3⟩
    ∧ addressOf cfg .set p = ⟨cfg.setBase + (p / 32) * 4, p % 32, 1⟩
    ∧ addressOf cfg .clr p = ⟨cfg.clrBase + (p / 32) * 4, p % 32, 1⟩
    ∧ addressOf cfg .lev p = ⟨cfg.levBase + (p / 32) * 4, p % 32, 1⟩

/-- Rule R124, with rules R52, R53 and R123: under `ConfigOK` the field of a pin that exists never crosses its register's
boundary, its register is aligned and inside the region, and the offset fits 32 bits. -/
def Obligations.FieldNeverCrossesRegister : Prop :=
  ∀ (cfg : Config) (f : Family) (p : Nat), ConfigOK cfg → p < cfg.numPins →
    (addressOf cfg f p).bitOffset + (addressOf cfg f p).bitWidth ≤ (match f with | .fsel => 30 | .set => 32 | .clr => 32 | .lev => 32)
    ∧ (addressOf cfg f p).offset % 4 = 0
    ∧ (addressOf cfg f p).offset + 4 ≤ cfg.regionLen
    ∧ (addressOf cfg f p).offset < 2 ^ 32

/-- Rule R58 with rule R13: under `ConfigOK` the offset of a pin's register in a family names that register and no other. -/
def Obligations.OffsetNamesOneRegister : Prop :=
  ∀ (cfg : Config) (f g : Family) (p q : Nat), ConfigOK cfg → p < cfg.numPins → q < cfg.numPins →
    regAt cfg (addressOf cfg f p).offset = some (f, p / ppr f)
    ∧ ((addressOf cfg f p).offset = (addressOf cfg g q).offset ↔ f = g ∧ p / ppr f = q / ppr g)

/-- Rule R122: `ADDR` responds with the offset, and with the width and the bit offset, for a pin that exists, and with
`OutOfRange` for any other; nothing else changes and no access is made. -/
def Obligations.AddrResult : Prop :=
  ∀ (s : State) (f : Family) (p : Nat), Ready s →
    (p < s.cfg.numPins →
      exec (.addr f p) s = .next { s with responses := s.responses ++
        [⟨.ok, BitVec.ofNat 32 (addressOf s.cfg f p).offset,
          (BitVec.ofNat 32 (addressOf s.cfg f p).bitWidth <<< 8) ||| BitVec.ofNat 32 (addressOf s.cfg f p).bitOffset⟩] })
    ∧ (s.cfg.numPins ≤ p → exec (.addr f p) s = .next { s with responses := s.responses ++ [errorResponse .outOfRange] })

/-! ### The Pin Controller -/

/-- Rule R150: every Pin Controller command checks its pin before any access; a command rejected this way changes nothing
but the response port. -/
def Obligations.PinOutOfRangeRejected : Prop :=
  ∀ (s : State) (i : Instr) (p : Nat), Ready s → s.cfg.numPins ≤ p →
    i = .cfgin p ∨ (∃ l, i = .cfgout p l) ∨ (∃ l, i = .setlv p l) ∨ i = .rdfn p ∨ i = .rdlv p →
    exec i s = .next { s with responses := s.responses ++ [errorResponse .outOfRange] }

/-- `CFGIN` (rule R152), serialized (rule R80): the read-modify-write of its trace, on the register as it stands at its first
access, its response, and its frame. That the register keeps its bits of no pin as written is the model's choice (log 8, U11). -/
def Obligations.CfginClearsField : Prop :=
  ∀ (s : State) (p : Nat), Ready s → AccessesComplete s → WritesDefined s → HostSerializes (.cfgin p) s → p < s.cfg.numPins →
    ∃ t, exec (.cfgin p) s = .next t
      ∧ t.trace = s.trace ++ [.rd (addressOf s.cfg .fsel p).offset (fselReg (atAccess s) (p / 10)),
          .wr (addressOf s.cfg .fsel p).offset (fselReg (atAccess s) (p / 10) &&& ~~~(0b111#32 <<< (3 * (p % 10))))]
      ∧ fselReg t (p / 10) = fselReg (atAccess s) (p / 10) &&& ~~~(0b111#32 <<< (3 * (p % 10)))
      ∧ t.responses = s.responses ++ [okResponse]
      ∧ (∀ a, a < (addressOf s.cfg .fsel p).offset ∨ (addressOf s.cfg .fsel p).offset + 4 ≤ a →
          byteAt t.mem a = byteAt (atAccess s).mem a)
      ∧ t.lat = (atAccess s).lat ∧ t.ext = (atAccess (atAccess s)).ext ∧ t.ecur = s.ecur ∧ SameRest s t

/-- `CFGOUT` (rule R156), serialized (rule R80): its three accesses in order, the field, the latch, its response, and its frame,
from the bank as it stands at its first access. That the register keeps its bits of no pin as written is the model's choice
(log 8, U11). That it makes one level write is the spec's decision D8. -/
def Obligations.CfgoutSetsFieldThenLevel : Prop :=
  ∀ (s : State) (p : Nat) (l : Level), Ready s → AccessesComplete s → WritesDefined s → HostSerializes (.cfgout p l) s →
    p < s.cfg.numPins →
    ∃ t, exec (.cfgout p l) s = .next t
      ∧ t.trace = s.trace ++ [.rd (addressOf s.cfg .fsel p).offset (fselReg (atAccess s) (p / 10)),
          .wr (addressOf s.cfg .fsel p).offset
            ((fselReg (atAccess s) (p / 10) &&& ~~~(0b111#32 <<< (3 * (p % 10)))) ||| (0b001#32 <<< (3 * (p % 10)))),
          .wr (addressOf s.cfg (match l with | .high => .set | .low => .clr) p).offset (1#32 <<< (p % 32))]
      ∧ fselReg t (p / 10) =
          (fselReg (atAccess s) (p / 10) &&& ~~~(0b111#32 <<< (3 * (p % 10)))) ||| (0b001#32 <<< (3 * (p % 10)))
      ∧ (∀ q, latch t q = if q = p then decide (l = .high) else latch (atAccess s) q)
      ∧ t.responses = s.responses ++ [okResponse]
      ∧ (∀ a, a < (addressOf s.cfg .fsel p).offset ∨ (addressOf s.cfg .fsel p).offset + 4 ≤ a →
          byteAt t.mem a = byteAt (atAccess s).mem a)
      ∧ t.ext = (atAccess (atAccess (atAccess s))).ext ∧ t.ecur = s.ecur ∧ SameRest s t

/-- `SETLV` (rule R159): one write of a single 1 bit to SET or CLR, the latch of the pin and no other, no FSEL access, its
response, and its frame, from the bank as it stands at the access. -/
def Obligations.SetlvDrivesLatch : Prop :=
  ∀ (s : State) (p : Nat) (l : Level), Ready s → AccessesComplete s → WritesDefined s → p < s.cfg.numPins →
    ∃ t, exec (.setlv p l) s = .next t
      ∧ t.trace = s.trace ++ [.wr (addressOf s.cfg (match l with | .high => .set | .low => .clr) p).offset (1#32 <<< (p % 32))]
      ∧ (∀ q, latch t q = if q = p then decide (l = .high) else latch (atAccess s) q)
      ∧ t.responses = s.responses ++ [okResponse]
      ∧ t.mem = (atAccess s).mem ∧ t.ext = (atAccess s).ext ∧ t.ecur = s.ecur ∧ SameRest s t

/-- `RDFN` (rule R162): the raw 3-bit field of the pin as it stands in its FSEL register at the access; nothing written. -/
def Obligations.RdfnReturnsField : Prop :=
  ∀ (s : State) (p : Nat), Ready s → AccessesComplete s → WritesDefined s → p < s.cfg.numPins →
    ∃ t, exec (.rdfn p) s = .next t
      ∧ t.responses = s.responses ++ [⟨.ok, (fselReg (atAccess s) (p / 10) >>> (3 * (p % 10))) &&& 0b111#32, 0#32⟩]
      ∧ (fselReg (atAccess s) (p / 10) >>> (3 * (p % 10))) &&& 0b111#32 = (fnField (atAccess s) p).setWidth 32
      ∧ t.trace = s.trace ++ [.rd (addressOf s.cfg .fsel p).offset (fselReg (atAccess s) (p / 10))]
      ∧ SameBank (atAccess s) t ∧ t.ext = (atAccess s).ext ∧ t.ecur = s.ecur ∧ SameRest s t

/-- `RDLV` (rules R68, R165): one bit of the LEV register, which shows the latch of an output, and for any other pin the latch or
the external line, by `LEV_MODEL`, all at the instant of the access; nothing written. -/
def Obligations.RdlvReturnsLevel : Prop :=
  ∀ (s : State) (p : Nat), Ready s → AccessesComplete s → WritesDefined s → p < s.cfg.numPins →
    ∃ t v, exec (.rdlv p) s = .next t
      ∧ t.trace = s.trace ++ [.rd (addressOf s.cfg .lev p).offset v]
      ∧ t.responses = s.responses ++ [⟨.ok, (v >>> (p % 32)) &&& 1#32, 0#32⟩]
      ∧ (∀ q, q / 32 = p / 32 → q < s.cfg.numPins → v.getLsbD (q % 32) =
          (if s.cfg.levModel = .latchAlways ∨ fnField (atAccess s) q = 0b001#3 then latch (atAccess s) q
            else extLine (atAccess s) q))
      ∧ SameBank (atAccess s) t ∧ t.ext = (atAccess s).ext ∧ t.ecur = s.ecur ∧ SameRest s t

/-- After rule R166, the whole table: field and latch of the pin and of every other pin, from the bank as it stands at the first
access, and the reads and writes with their families, for the five Pin Controller commands; the two that make more than one
access, serialized (rule R80). The fields are claimed for every number `q`; where `q >= NUM_PINS` they are bits of no pin, and
that the FSEL register keeps those as written is the model's choice (log 8, after the reference bank of R62 and D20; no claim
about the hardware should depend on them, R62, U11). -/
def Obligations.PinControllerSummary : Prop :=
  ∀ (s : State) (p : Nat) (l : Level), Ready s → AccessesComplete s → WritesDefined s → p < s.cfg.numPins →
    (HostSerializes (.cfgin p) s → ∃ t v w, exec (.cfgin p) s = .next t
      ∧ t.trace = s.trace ++ [.rd (addressOf s.cfg .fsel p).offset v, .wr (addressOf s.cfg .fsel p).offset w]
      ∧ ∀ q, fnField t q = (if q = p then 0b000#3 else fnField (atAccess s) q) ∧ latch t q = latch (atAccess s) q)
    ∧ (HostSerializes (.cfgout p l) s → ∃ t v w x, exec (.cfgout p l) s = .next t
      ∧ t.trace = s.trace ++ [.rd (addressOf s.cfg .fsel p).offset v, .wr (addressOf s.cfg .fsel p).offset w,
          .wr (addressOf s.cfg (match l with | .high => .set | .low => .clr) p).offset x]
      ∧ ∀ q, fnField t q = (if q = p then 0b001#3 else fnField (atAccess s) q)
        ∧ latch t q = (if q = p then decide (l = .high) else latch (atAccess s) q))
    ∧ (∃ t x, exec (.setlv p l) s = .next t
      ∧ t.trace = s.trace ++ [.wr (addressOf s.cfg (match l with | .high => .set | .low => .clr) p).offset x]
      ∧ ∀ q, fnField t q = fnField (atAccess s) q
        ∧ latch t q = (if q = p then decide (l = .high) else latch (atAccess s) q))
    ∧ (∃ t v, exec (.rdfn p) s = .next t ∧ t.trace = s.trace ++ [.rd (addressOf s.cfg .fsel p).offset v]
      ∧ ∀ q, fnField t q = fnField (atAccess s) q ∧ latch t q = latch (atAccess s) q)
    ∧ (∃ t v, exec (.rdlv p) s = .next t ∧ t.trace = s.trace ++ [.rd (addressOf s.cfg .lev p).offset v]
      ∧ ∀ q, fnField t q = fnField (atAccess s) q ∧ latch t q = latch (atAccess s) q)

/-- Rule R153: `CFGIN` then `RDFN` of the same pin reads field `000`, where no other agent writes the register between the
write-back and that read, whatever was written before. -/
def Obligations.CfginThenRdfnIsInput : Prop :=
  ∀ (s : State) (p : Nat), Ready s → AccessesComplete s → WritesDefined s → p < s.cfg.numPins →
    ∃ t, exec (.cfgin p) s = .next t ∧ t.responses = s.responses ++ [okResponse]
      ∧ (Untouched [(addressOf s.cfg .fsel p).offset] t.script → ∃ u, exec (.rdfn p) t = .next u
        ∧ u.responses = s.responses ++ [okResponse, ⟨.ok, 0b000#32, 0#32⟩])

/-- Rule R158: `CFGOUT` then `RDFN` reads field `001`, and `RDLV`, directly after it or after that `RDFN`, reads the level, under
either `LEV_MODEL`, where no other agent writes the pin's registers in between: its FSEL register since the write-back (so
before the level write too), its SET and CLR registers since the level write. -/
def Obligations.CfgoutThenReadsBack : Prop :=
  ∀ (s : State) (p : Nat) (l : Level), Ready s → AccessesComplete s → WritesDefined s → p < s.cfg.numPins →
    ∃ t, exec (.cfgout p l) s = .next t ∧ t.responses = s.responses ++ [okResponse]
      ∧ (Untouched [(addressOf s.cfg .fsel p).offset] s.script.tail.tail →
        (Untouched [(addressOf s.cfg .fsel p).offset] t.script →
          ∃ u, exec (.rdfn p) t = .next u ∧ u.responses = s.responses ++ [okResponse, ⟨.ok, 0b001#32, 0#32⟩]
            ∧ (Untouched [(addressOf s.cfg .set p).offset, (addressOf s.cfg .clr p).offset] t.script →
              Untouched [(addressOf s.cfg .fsel p).offset, (addressOf s.cfg .set p).offset,
                (addressOf s.cfg .clr p).offset] u.script →
              ∃ v, exec (.rdlv p) u = .next v ∧ v.responses = s.responses ++ [okResponse, ⟨.ok, 0b001#32, 0#32⟩,
                ⟨.ok, (match l with | .high => 1#32 | .low => 0#32), 0#32⟩]))
        ∧ (Untouched [(addressOf s.cfg .fsel p).offset, (addressOf s.cfg .set p).offset,
            (addressOf s.cfg .clr p).offset] t.script →
          ∃ v, exec (.rdlv p) t = .next v
            ∧ v.responses = s.responses ++ [okResponse, ⟨.ok, (match l with | .high => 1#32 | .low => 0#32), 0#32⟩]))

/-- Rule R160: `SETLV` then `RDLV` reads the level, for every pin under `LATCH_ALWAYS` and for an output (as it stands at the level
read) under the default, whatever the state of the other pins, where no other agent writes the latch in between. -/
def Obligations.SetlvThenRdlvReadsLevel : Prop :=
  ∀ (s : State) (p : Nat) (l : Level), Ready s → AccessesComplete s → WritesDefined s → p < s.cfg.numPins →
    ∃ t, exec (.setlv p l) s = .next t
      ∧ (Untouched [(addressOf s.cfg .set p).offset, (addressOf s.cfg .clr p).offset] t.script →
        s.cfg.levModel = .latchAlways ∨ fnField (atAccess t) p = 0b001#3 →
        ∃ u, exec (.rdlv p) t = .next u
          ∧ u.responses = s.responses ++ [okResponse, ⟨.ok, (match l with | .high => 1#32 | .low => 0#32), 0#32⟩])

/-- Rule R78: level writes for different pins commute on the latches, where no other agent writes those pins' latches between
the two; of two for the same pin the later one decides. -/
def Obligations.LevelWritesCommute : Prop :=
  ∀ (s : State) (p q : Nat) (l m : Level), Ready s → AccessesComplete s → WritesDefined s →
    p < s.cfg.numPins → q < s.cfg.numPins →
    ∃ t t' u u', exec (.setlv p l) s = .next t ∧ exec (.setlv q m) t = .next t'
      ∧ exec (.setlv q m) s = .next u ∧ exec (.setlv p l) u = .next u'
      ∧ (p ≠ q → Untouched [(addressOf s.cfg .set p).offset, (addressOf s.cfg .clr p).offset,
          (addressOf s.cfg .set q).offset, (addressOf s.cfg .clr q).offset] s.script.tail → ∀ r, latch t' r = latch u' r)
      ∧ (p = q → latch t' p = decide (m = .high) ∧ latch u' p = decide (l = .high))

/-- Rules R63, R161: the documented, non-monotonic mapping of the field, and what counts as input or output. -/
def Obligations.FunctionModeTable : Prop :=
  modeOf 0#3 = .input ∧ modeOf 1#3 = .output ∧ modeOf 2#3 = .alt5 ∧ modeOf 3#3 = .alt4 ∧ modeOf 4#3 = .alt0
  ∧ modeOf 5#3 = .alt1 ∧ modeOf 6#3 = .alt2 ∧ modeOf 7#3 = .alt3
  ∧ ∀ f : BitVec 3, isIo (f.setWidth 32) = true ↔ modeOf f = .input ∨ modeOf f = .output

/-! ### The bank, as other masters and the environment reach it -/

/-- A write of another master, family by family, after rules R62, R65, R66 and R69: an FSEL write stores all 32 bits there
and nowhere else, a SET or CLR write acts on the latches of the pins with a 1 bit, and a write to LEV or outside the four
families is given no meaning. That the bits of an FSEL register that belong to no pin are stored too is the model's choice
(log 8, after the reference bank of R62 and D20; no claim about the hardware should depend on those bits, R62, U11), and so is
that a 1 bit of no pin written to SET or CLR has no effect (log 19). -/
def Obligations.BankWriteByFamily : Prop :=
  ∀ (s : State) (rest : List Input) (off : Nat) (v : Word), ConfigOK s.cfg → s.inputs = .act (.busWrite off v) :: rest →
    (∀ j, j < nregs s.cfg .fsel → off = s.cfg.fselBase + 4 * j →
      ∃ t, step s = .next t ∧ (∀ i, fselReg t i = if i = j then v else fselReg s i)
        ∧ (∀ a, a < off ∨ off + 4 ≤ a → byteAt t.mem a = byteAt s.mem a) ∧ t = { s with inputs := rest, mem := t.mem })
    ∧ (∀ j, j < nregs s.cfg .set → off = s.cfg.setBase + 4 * j →
      ∃ t, step s = .next t ∧ t = { s with inputs := rest, lat := t.lat } ∧ ∀ p, latch t p =
        if p / 32 = j ∧ v.getLsbD (p % 32) = true ∧ p < s.cfg.numPins then true else latch s p)
    ∧ (∀ j, j < nregs s.cfg .clr → off = s.cfg.clrBase + 4 * j →
      ∃ t, step s = .next t ∧ t = { s with inputs := rest, lat := t.lat } ∧ ∀ p, latch t p =
        if p / 32 = j ∧ v.getLsbD (p % 32) = true ∧ p < s.cfg.numPins then false else latch s p)
    ∧ (∀ j, j < nregs s.cfg .lev → off = s.cfg.levBase + 4 * j → step s = .refused .offRegister)
    ∧ ((∀ f, ¬ IsRegister s.cfg f off) → step s = .refused .offRegister)

/-- Rule R60: the environment sets the external line of a pin, and nothing else (lines moved by acts: the model's choice,
log 6). -/
def Obligations.EnvironmentMovesLine : Prop :=
  ∀ (s : State) (rest : List Input) (p : Nat) (l : Level), ConfigOK s.cfg → s.inputs = .act (.line p l) :: rest →
    p < s.cfg.numPins →
    ∃ t, step s = .next t ∧ (∀ q, extLine t q = if q = p then decide (l = .high) else extLine s q)
      ∧ t = { s with inputs := rest, ext := t.ext }

/-- Rules R52, R53: the access layer raises `HardwareFault` for a misaligned or out-of-bounds offset, without an access. -/
def Obligations.BadOffsetFaults : Prop :=
  ∀ (s : State) (off : Nat) (v : Word), off % 4 ≠ 0 ∨ s.cfg.regionLen < off + 4 →
    memRead off s = .raised .hardwareFault s ∧ memWrite off v s = .raised .hardwareFault s

/-! ### Errors, for every bus script -/

/-- Rule R233, reads: an FSEL or LEV read that does not complete ends the command, the LEV read of a reporting `ENEXT` among
them: no further access, `FAULTED` set, `ECUR` and the bank as before, response `HW_FAULT`. That an `ENEXT` reads the FSEL
register first and the LEV register second, and only for an input or output, is the spec's decision D18 (rule R177). -/
def Obligations.FaultingReadEndsCommand : Prop :=
  ∀ (s : State) (p : Nat) (b : Bool) (rest : List BusTurn), Ready s → p < s.cfg.numPins →
    (∀ i : Instr, s.script = ⟨[], .fault b⟩ :: rest →
      i = .cfgin p ∨ (∃ l, i = .cfgout p l) ∨ i = .rdfn p ∨ i = .rdlv p ∨ (i = .enext ∧ s.ecur = .atPin p) →
      exec i s = .next { s with script := rest, faulted := true, responses := s.responses ++ [errorResponse .hwFault] })
    ∧ (s.script = ⟨[], .done⟩ :: ⟨[], .fault b⟩ :: rest → s.ecur = .atPin p → fnField s p = 0b000#3 ∨ fnField s p = 0b001#3 →
      exec .enext s = .next { s with script := rest, faulted := true, responses := s.responses ++ [errorResponse .hwFault],
                                     trace := s.trace ++ [.rd (addressOf s.cfg .fsel p).offset (fselReg s (p / 10))] })

/-- Rules R139, R156, R233, writes: a write that does not complete ends the command; the accesses before it stay done, those
after it are not issued, and whether it took effect itself is open: both are admitted (as a turn of the bus script, the
model's choice, logs 5 and 11). The fields are claimed for every number `q`; where `q >= NUM_PINS` they are bits of no pin, and
that an FSEL write that was done or landed keeps those is the model's choice (log 8; R62, U11: no claim about the hardware should
depend on them). -/
def Obligations.FaultingWriteAdmitsBoth : Prop :=
  ∀ (s : State) (p : Nat) (l : Level) (b : Bool) (rest : List BusTurn), Ready s → p < s.cfg.numPins →
    (s.script = ⟨[], .fault b⟩ :: rest →
      ∃ t, exec (.setlv p l) s = .next t ∧ t.faulted = true ∧ t.responses = s.responses ++ [errorResponse .hwFault]
        ∧ t.trace = s.trace ∧ t.mem = s.mem ∧ t.ecur = s.ecur
        ∧ ∀ q, latch t q = if b = true ∧ q = p then decide (l = .high) else latch s q)
    ∧ (s.script = ⟨[], .done⟩ :: ⟨[], .fault b⟩ :: rest → ∀ i, i = .cfgin p ∨ i = .cfgout p l →
      ∃ t, exec i s = .next t ∧ t.faulted = true ∧ t.responses = s.responses ++ [errorResponse .hwFault]
        ∧ t.trace = s.trace ++ [.rd (addressOf s.cfg .fsel p).offset (fselReg s (p / 10))] ∧ t.lat = s.lat
        ∧ t.ecur = s.ecur
        ∧ ∀ q, fnField t q = if b = true ∧ q = p then (if i = .cfgin p then 0b000#3 else 0b001#3) else fnField s q)
    ∧ (s.script = ⟨[], .done⟩ :: ⟨[], .done⟩ :: ⟨[], .fault b⟩ :: rest →
      ∃ t v, exec (.cfgout p l) s = .next t ∧ t.faulted = true ∧ t.responses = s.responses ++ [errorResponse .hwFault]
        ∧ t.trace = s.trace ++ [.rd (addressOf s.cfg .fsel p).offset (fselReg s (p / 10)),
            .wr (addressOf s.cfg .fsel p).offset v]
        ∧ (∀ q, fnField t q = if q = p then 0b001#3 else fnField s q) ∧ t.ecur = s.ecur
        ∧ ∀ q, latch t q = if b = true ∧ q = p then decide (l = .high) else latch s q)

/-- Rules R101, R102, R233, for every command and every bus script without a reset: exactly one response, with `d0 = d1 = 0`
unless it is `OK`; `FAULTED` is set exactly by `HW_FAULT`; after an error `ECUR` is as before. -/
def Obligations.OneResponsePerCommand : Prop :=
  ∀ (i : Instr) (s t : State), NoReset s → exec i s = .next t →
    ∃ r, t.responses = s.responses ++ [r]
      ∧ (r.status ≠ .ok → r.d0 = 0#32 ∧ r.d1 = 0#32 ∧ t.ecur = s.ecur)
      ∧ (t.faulted = true ↔ r.status = .hwFault)
      ∧ r.status ≠ .invalidCommand

/-- Rule R237 at the command port: a command answered `OUT_OF_RANGE` has changed nothing but the response port. -/
def Obligations.OutOfRangeChangesNothing : Prop :=
  ∀ (i : Instr) (s t : State) (r : Response), exec i s = .next t → t.responses = s.responses ++ [r] →
    r.status = .outOfRange → t = { s with responses := s.responses ++ [errorResponse .outOfRange] }

/-- Rule R55, for every command and every bus script: the engine's accesses are reads of FSEL and LEV registers and writes of
FSEL, SET and CLR registers, and nothing else. -/
def Obligations.EngineAccessesOnly : Prop :=
  ∀ (i : Instr) (s t : State), exec i s = .next t →
    ∃ acc, t.trace = s.trace ++ acc ∧ ∀ a ∈ acc, EngineAccess s.cfg a

/-- The frame of every command, whatever the bus does short of a reset (rules R28, R31): the configuration, the front-end's
table and the host's inputs stay, and the engine is idle again; what external probing saw before stays recorded (log 23). -/
def Obligations.CommandKeepsEngineFrame : Prop :=
  ∀ (i : Instr) (s t : State), NoReset s → exec i s = .next t →
    t.cfg = s.cfg ∧ t.busy = none ∧ t.bind = s.bind ∧ t.configured = s.configured ∧ t.inputs = s.inputs
    ∧ t.replies = s.replies ∧ ∃ more, t.probes = s.probes ++ more

/-- The frame of the bank, whenever a command ends (also by a fault or a reset) while the host serializes (rules R80, R151,
R155): from the bank as it stands at the command's first access, a command stores to no byte of the region but its pin's FSEL
register, and to no latch but its pin's. -/
def Obligations.CommandKeepsBankFrame : Prop :=
  ∀ (i : Instr) (s t : State), HostSerializes i s → exec i s = .next t →
    (∀ a, (∀ p, i = .cfgin p ∨ (∃ l, i = .cfgout p l) →
        a < (addressOf s.cfg .fsel p).offset ∨ (addressOf s.cfg .fsel p).offset + 4 ≤ a) →
      byteAt t.mem a = byteAt (atFirstAccess i s).mem a)
    ∧ (∀ q, (∀ p l, i = .cfgout p l ∨ i = .setlv p l → q ≠ p) → latch t q = latch (atFirstAccess i s) q)

/-- Rules R24, R180: no command but `ENEXT` moves the cursor, whatever the bus does short of a reset. -/
def Obligations.OnlyEnextMovesCursor : Prop :=
  ∀ (i : Instr) (s t : State), i ≠ .enext → NoReset s → exec i s = .next t → t.ecur = s.ecur

/-- After rule R77: whatever another agent writes between the read and the write-back of a `CFGIN` or `CFGOUT`, the same FSEL register
among it, the write-back is computed from the word `T` that was read, so a write of that register in between is lost. Before
the read, and before the level write of a `CFGOUT`, others may write too; what the register then ends as is said where they do
not write that register again before the level write. That the register ends as all 32 bits of the word written, those of no
pin among them, is the model's choice (log 8, after the reference bank of R62 and D20; no claim about the hardware should depend
on those bits, R62, U11). -/
def Obligations.ForeignWriteLost : Prop :=
  ∀ (s : State) (p : Nat) (before between : List EnvAct) (rest : List BusTurn), Ready s → p < s.cfg.numPins →
    s.script = ⟨before, .done⟩ :: ⟨between, .done⟩ :: rest → (∀ a ∈ before ++ between, actDefined s.cfg a = true) →
    (∃ t, exec (.cfgin p) s = .next t
      ∧ t.trace = s.trace ++ [.rd (addressOf s.cfg .fsel p).offset (fselReg (atAccess s) (p / 10)),
          .wr (addressOf s.cfg .fsel p).offset (fselReg (atAccess s) (p / 10) &&& ~~~(0b111#32 <<< (3 * (p % 10))))]
      ∧ fselReg t (p / 10) = fselReg (atAccess s) (p / 10) &&& ~~~(0b111#32 <<< (3 * (p % 10)))
      ∧ t.responses = s.responses ++ [okResponse])
    ∧ (∀ l, (∀ u ∈ rest.take 1, u.answer = .done ∧ ∀ a ∈ u.before,
        actDefined s.cfg a = true ∧ writesTo (addressOf s.cfg .fsel p).offset a = false) →
      ∃ t w, exec (.cfgout p l) s = .next t
        ∧ w = (fselReg (atAccess s) (p / 10) &&& ~~~(0b111#32 <<< (3 * (p % 10)))) ||| (0b001#32 <<< (3 * (p % 10)))
        ∧ t.trace = s.trace ++ [.rd (addressOf s.cfg .fsel p).offset (fselReg (atAccess s) (p / 10)),
            .wr (addressOf s.cfg .fsel p).offset w,
            .wr (addressOf s.cfg (levelFamily l) p).offset (0b1#32 <<< (p % 32))]
        ∧ fselReg t (p / 10) = w
        ∧ t.responses = s.responses ++ [okResponse])

/-! ### The enumerator -/

/-- `ENEXT` (rule R177): `HEADER` from `START` and `END` from `NUM_PINS`, without an access; from `0 <= k < NUM_PINS`, one pin
examined, its field as it stands at the first access, its level, read only for an input or output, as it stands at the second
(the number and order of these reads are D18's); only `ECUR` is written. -/
def Obligations.EnextByCursor : Prop :=
  ∀ s : State, Ready s →
    (s.ecur = .start → exec .enext s = .next { s with ecur := .atPin 0, responses := s.responses ++ [⟨.ok, 0#32, 1#32⟩] })
    ∧ (s.ecur = .atPin s.cfg.numPins →
        exec .enext s = .next { s with ecur := .start, responses := s.responses ++ [⟨.ok, 0#32, 0#32⟩] })
    ∧ (∀ k, AccessesComplete s → WritesDefined s → s.ecur = .atPin k → k < s.cfg.numPins → ∃ t, exec .enext s = .next t
        ∧ t.ecur = .atPin (k + 1) ∧ SameRest s t
        ∧ (fnField (atAccess s) k = 0b000#3 ∨ fnField (atAccess s) k = 0b001#3 →
            t.responses = s.responses ++ [pinRecord k (fnField (atAccess s) k) (level (atAccess (atAccess s)) k)]
            ∧ SameBank (atAccess (atAccess s)) t ∧ t.ext = (atAccess (atAccess s)).ext
            ∧ ∃ v, t.trace = s.trace ++ [.rd (addressOf s.cfg .fsel k).offset (fselReg (atAccess s) (k / 10)),
                .rd (addressOf s.cfg .lev k).offset v])
        ∧ (fnField (atAccess s) k ≠ 0b000#3 → fnField (atAccess s) k ≠ 0b001#3 →
            t.responses = s.responses ++ [⟨.ok, 0#32, 3#32⟩] ∧ SameBank (atAccess s) t ∧ t.ext = (atAccess s).ext
            ∧ t.trace = s.trace ++ [.rd (addressOf s.cfg .fsel k).offset (fselReg (atAccess s) (k / 10))]))

/-- A cursor beyond `NUM_PINS` is no value of `ECUR` (rule R24); the model is stuck there (log 13, the model's choice), and
the invariant `Inv` rules it out. -/
def Obligations.CursorBeyondPinsStuck : Prop :=
  ∀ (s : State) (k : Nat), Ready s → s.ecur = .atPin k → s.cfg.numPins < k → exec .enext s = .fault .cursorOutside

/-- Rule R178: `NUM_PINS + 2` calls from `START` give one `HEADER`, one record per pin in ascending order, one `END`, and
`START` again, whatever the other agents do to the bank; the cursor before the calls is `START, 0, 1, ..., NUM_PINS`. Where
nobody writes, the records show the fields of the bank, which stays; while no pin state changes (the other agents do no more
than look), a second pass gives the identical sequence. -/
def Obligations.SessionReturnsToStart : Prop :=
  ∀ s : State, Ready s → AccessesComplete s → WritesDefined s → s.ecur = .start →
    (∀ k, k ≤ s.cfg.numPins → ∃ c, enextCalls (k + 1) s = .next c ∧ c.ecur = .atPin k)
    ∧ ∃ t records, enextCalls (s.cfg.numPins + 2) s = .next t ∧ t.ecur = .start
      ∧ t.responses = s.responses ++ (⟨.ok, 0#32, 1#32⟩ :: (records ++ [⟨.ok, 0#32, 0#32⟩]))
      ∧ records.length = s.cfg.numPins
      ∧ (∀ k r, records[k]? = some r → ∃ f l, r = pinRecord k f l)
      ∧ (NoForeignWrites s → SameBank s t ∧ ∀ k r, records[k]? = some r → ∃ l, r = pinRecord k (fnField s k) l)
      ∧ (Quiet s → (∀ k r, records[k]? = some r → r = pinRecord k (fnField s k) (level s k))
          ∧ ∃ u, enextCalls (s.cfg.numPins + 2) t = .next u ∧ u.ecur = .start
            ∧ u.responses = t.responses ++ (⟨.ok, 0#32, 1#32⟩ :: (records ++ [⟨.ok, 0#32, 0#32⟩])))

/-! ### The front-end -/

/-- Rule R196: the whitespace bytes are 0x20 and 0x09 to 0x0D; a maximal run of other bytes is a token, whatever follows the
whitespace after it; whitespace makes no empty token. -/
def Obligations.TokensAreMaximalRuns : Prop :=
  (∀ b : Byte, isSpace b = true ↔ b = 0x20#8 ∨ b = 0x09#8 ∨ b = 0x0A#8 ∨ b = 0x0B#8 ∨ b = 0x0C#8 ∨ b = 0x0D#8)
  ∧ (∀ w : List Byte, (∀ b ∈ w, isSpace b = true) → tokens w = [])
  ∧ (∀ w0 x w1 rest : List Byte, (∀ b ∈ w0 ++ w1, isSpace b = true) → (∀ b ∈ x, isSpace b = false) → x ≠ [] →
      tokens (w0 ++ x ++ w1) = [x] ∧ (w1 ≠ [] → tokens (w0 ++ x ++ w1 ++ rest) = x :: tokens rest))

/-- Rules R197 to R199, R221: what a text command is, on an unbound and on a bound channel; the action is the bytes `high`,
`low` or `in`, and the value of the pin's digits is their decimal value. -/
def Obligations.TextCommandForms : Prop :=
  (∀ (s : State) (buf : List Byte) (n : Nat) (act : Action) (word : List Byte),
    word = (match act with
      | .high => [0x68#8, 0x69#8, 0x67#8, 0x68#8]
      | .low => [0x6C#8, 0x6F#8, 0x77#8]
      | .input => [0x69#8, 0x6E#8]) →
    (parseText s .unbound buf = some (n, act) ↔
      ∃ tok, tokens buf = [tok, word] ∧ tok ≠ [] ∧ (∀ b ∈ tok, 0x30#8 ≤ b ∧ b ≤ 0x39#8)
        ∧ decimalFrom 0 tok = n ∧ n < s.cfg.numPins)
    ∧ (∀ name, parseText s (.bound name) buf = some (n, act) ↔
        tokens buf = [word] ∧ lookup s.bind name = some n))
  ∧ decimalFrom 0 [] = 0
  ∧ (∀ (digits : List Byte) (d : Nat), d < 10 →
      decimalFrom 0 (digits ++ [BitVec.ofNat 8 (0x30 + d)]) = 10 * decimalFrom 0 digits + d)

/-- Rules R200 to R202, R208: `high`, `low` and `in` each issue one command, `CFGOUT n, HIGH`, `CFGOUT n, LOW` and `CFGIN n`;
its success is reported, a hardware fault is passed on unchanged, and where reset abandoned it there is no reply (log 20, the
model's choice; the list of replies is the model's own, log 16). That `high` and `low` are each one `CFGOUT`, so three accesses
with one level write, is the spec's decision D8: a source that writes the level twice has one write more in its trace. -/
def Obligations.TextActionIssuesCommand : Prop :=
  ∀ (s u : State) (ch : Channel) (buf : List Byte) (rest : List Input) (n : Nat) (act : Action),
    s.inputs = .text ch buf :: rest → parseText s ch buf = some (n, act) → n ≤ 65535 →
    exec (match act with | .high => .cfgout n .high | .low => .cfgout n .low | .input => .cfgin n) (withInputs rest s)
      = .next u →
    (∀ r, u.responses = s.responses ++ [r] →
      (r.status = .ok → step s = .next { u with replies := u.replies ++ [.ok] })
      ∧ (r.status = .hwFault → step s = .next { u with replies := u.replies ++ [.hwFault] }))
    ∧ (u.responses = s.responses → step s = .next u)

/-- Rule R203: a text command that fails a test is a no-op answered `InvalidCommand` (in the model's list of replies,
log 16). -/
def Obligations.TextRejectedIsNoOp : Prop :=
  ∀ (s : State) (ch : Channel) (buf : List Byte) (rest : List Input), Ready s → s.inputs = .text ch buf :: rest →
    parseText s ch buf = none →
    step s = .next { s with inputs := rest, replies := s.replies ++ [.invalidCommand] }

/-- Rules R204, R205, R221: the status query of a pin that the host names or that a bound channel's name resolves to: the line of
its mode, as its FSEL register stands at the first access, and its level, read only for an input or output, at the second; no
state of the bank or of the engine changed by it; a pin that does not exist gets `OutOfRange` and no line (beyond 65535 by log
15, the model's choice); a name that does not resolve gets `InvalidCommand`. That the query's commands are one step, with no other
command between them, is the model's choice (log 9): the cursor's staying and the trace of exactly these reads rest on it. Their
number and order are D18's. -/
def Obligations.StatusQueryLine : Prop :=
  ∀ (s : State) (q : QueryTarget) (rest : List Input), Ready s → AccessesComplete s → WritesDefined s →
    s.inputs = .query q :: rest →
    (∀ n, q = .named n ∨ (∃ name, q = .bound name ∧ lookup s.bind name = some n) →
      (n < s.cfg.numPins → ∃ t, step s = .next t ∧ t.ecur = s.ecur ∧ t.faulted = false ∧ t.bind = s.bind
        ∧ (fnField (atAccess s) n = 0b000#3 ∨ fnField (atAccess s) n = 0b001#3 → SameBank (atAccess (atAccess s)) t
            ∧ t.ext = (atAccess (atAccess s)).ext
            ∧ ∃ v, t.trace = s.trace ++ [.rd (addressOf s.cfg .fsel n).offset (fselReg (atAccess s) (n / 10)),
                .rd (addressOf s.cfg .lev n).offset v])
        ∧ (fnField (atAccess s) n = 0b000#3 → t.replies = s.replies ++
            [.line ([0x69#8, 0x6E#8, 0x70#8, 0x75#8, 0x74#8, 0x3A#8, 0x20#8]
              ++ [if level (atAccess (atAccess s)) n then 0x31#8 else 0x30#8])])
        ∧ (fnField (atAccess s) n = 0b001#3 → t.replies = s.replies ++
            [.line ([0x6F#8, 0x75#8, 0x74#8, 0x70#8, 0x75#8, 0x74#8, 0x3A#8, 0x20#8]
              ++ [if level (atAccess (atAccess s)) n then 0x31#8 else 0x30#8])])
        ∧ (fnField (atAccess s) n ≠ 0b000#3 → fnField (atAccess s) n ≠ 0b001#3 → SameBank (atAccess s) t
            ∧ t.ext = (atAccess s).ext
            ∧ t.trace = s.trace ++ [.rd (addressOf s.cfg .fsel n).offset (fselReg (atAccess s) (n / 10))]
            ∧ t.replies = s.replies ++ [.line [0x4E#8, 0x6F#8, 0x74#8, 0x20#8, 0x69#8, 0x6E#8, 0x70#8, 0x75#8, 0x74#8, 0x2F#8,
                0x6F#8, 0x75#8, 0x74#8, 0x70#8, 0x75#8, 0x74#8, 0x20#8, 0x70#8, 0x69#8, 0x6E#8, 0x21#8]]))
      ∧ (s.cfg.numPins ≤ n → ∃ t, step s = .next t ∧ t.replies = s.replies ++ [.outOfRange] ∧ SameBank s t ∧ t.ecur = s.ecur
        ∧ t.ext = s.ext ∧ t.trace = s.trace))
    ∧ (∀ name, q = .bound name → lookup s.bind name = none →
      step s = .next { s with inputs := rest, replies := s.replies ++ [.invalidCommand] })

/-- Rules R182, R207, R208: an enumeration read issues one `ENEXT` and tells its result kind, the number in `d1[1:0]` (rule
R104); a skipped pin and the end produce no byte (the other texts are free, log 17); a hardware fault is passed on unchanged,
and where reset abandoned the `ENEXT` there is no reply (log 20, the model's choice). -/
def Obligations.EnumReadIssuesEnext : Prop :=
  ∀ (s u : State) (rest : List Input), s.inputs = .enumRead :: rest → exec .enext (withInputs rest s) = .next u →
    (∀ r, u.responses = s.responses ++ [r] →
      (r.status = .ok → ∃ kind bytes, step s = .next { u with replies := u.replies ++ [.enumerated kind bytes] }
        ∧ (kind = .fin ↔ r.d1.extractLsb' 0 2 = 0#2) ∧ (kind = .header ↔ r.d1.extractLsb' 0 2 = 1#2)
        ∧ (kind = .report ↔ r.d1.extractLsb' 0 2 = 2#2) ∧ (kind = .skip ↔ r.d1.extractLsb' 0 2 = 3#2)
        ∧ (kind = .fin ∨ kind = .skip → bytes = []))
      ∧ (r.status = .hwFault → step s = .next { u with replies := u.replies ++ [.hwFault] }))
    ∧ (u.responses = s.responses → step s = .next u)

/-- Rules R215, R218, R220: `configure` binds each pin of the list in order, duplicates included; a list with a pin that does
not exist is refused whole with `OutOfRange`; a second `configure` without a `teardown` is refused (the flag `configured` is the
model's, log 14). -/
def Obligations.ConfigureBindsList : Prop :=
  ∀ (s : State) (pins : List Nat) (rest : List Input), Ready s → s.inputs = .configure pins :: rest →
    (s.configured = false → (∀ n ∈ pins, n < s.cfg.numPins) →
      step s = .next { s with inputs := rest, bind := pins.map (fun n => ⟨pinName n, n⟩), configured := true,
                              replies := s.replies ++ [.ok] })
    ∧ (s.configured = false → (∃ n ∈ pins, s.cfg.numPins ≤ n) →
      step s = .next { s with inputs := rest, replies := s.replies ++ [.outOfRange] })
    ∧ (s.configured = true → step s = .refused .secondConfigure)

/-- Rules R216, R217: a name is `gpio` and the pin in decimal without leading zeros; different pins have different names; and
in the table `configure` builds, a name resolves to its pin exactly when the pin was listed. -/
def Obligations.NamesResolveToPins : Prop :=
  (∀ n, ∃ digits, pinName n = [0x67#8, 0x70#8, 0x69#8, 0x6F#8] ++ digits ∧ digits ≠ [] ∧ digits.all isDigit = true
    ∧ decimalFrom 0 digits = n ∧ (digits.head? = some 0x30#8 → digits = [0x30#8]))
  ∧ (∀ m n, pinName m = pinName n → m = n)
  ∧ (∀ (pins : List Nat) (n : Nat), lookup (pins.map fun k => ⟨pinName k, k⟩) (pinName n) =
      if n ∈ pins then some n else none)

/-- Rules R219, R221: `teardown` empties the table in one step and leaves all else alone; a command on a bound channel is then
rejected (the flag `configured` is the model's, log 14). -/
def Obligations.TeardownEmptiesTable : Prop :=
  ∀ (s : State) (rest : List Input), Ready s → s.inputs = .teardown :: rest →
    ∃ t, step s = .next t ∧ t = { s with inputs := rest, bind := [], configured := false }
      ∧ ∀ name buf, parseText t (.bound name) buf = none

/-! ### Invariants -/

/-- `Inv` holds after reset. -/
def Obligations.ResetMeetsInvariant : Prop := Inv State.reset

/-- Every step keeps `Inv`, from every state that meets it, for every input and every bus script: the configuration stays
`ConfigOK`, the memories canonical, the engine idle between commands, the cursor legal, every binding a pin that exists under
its own name, and none without `configure` (log 14). -/
def Obligations.StepKeepsInvariant : Prop :=
  ∀ s t : State, Inv s → step s = .next t → Inv t

/-! ### What the front-end's caller is told when a query does not succeed, and finished runs -/

/-- Rules R204, R208: a status query issues `RDFN`, and `RDLV` where the field is input or output; an error of either is passed
on as it is and ends the query without a line, and where reset abandoned either there is no reply (log 20, the model's
choice). That the `RDLV` runs on the state the `RDFN` left, with no other command between them, is the model's choice (log 9).
The number and order of the two reads are D18's. A pin above 65535 has no command word; its query is said in `StatusQueryLine`. -/
def Obligations.StatusQueryPassesErrors : Prop :=
  ∀ (s u : State) (q : QueryTarget) (n : Nat) (rest : List Input), s.inputs = .query q :: rest →
    q = .named n ∨ (∃ name, q = .bound name ∧ lookup s.bind name = some n) → n ≤ 65535 →
    exec (.rdfn n) (withInputs rest s) = .next u →
    (u.responses = s.responses → step s = .next u)
    ∧ (∀ r, u.responses = s.responses ++ [r] →
      (r.status = .outOfRange → step s = .next { u with replies := u.replies ++ [.outOfRange] })
      ∧ (r.status = .hwFault → step s = .next { u with replies := u.replies ++ [.hwFault] })
      ∧ (∀ v, r.status = .ok → r.d0 = 0b000#32 ∨ r.d0 = 0b001#32 → exec (.rdlv n) u = .next v →
        (v.responses = u.responses → step s = .next v)
        ∧ (∀ r', v.responses = u.responses ++ [r'] → r'.status = .hwFault →
          step s = .next { v with replies := v.replies ++ [.hwFault] })))

/-- Rule R267: a list of commands that ran, no reset arriving, is finished exactly when `FAULTED = 0`, with one response for
each word; one whose last command was cut by a reset is not finished; a list without an `ENEXT` leaves the session as it
found it. -/
def Obligations.FinishedRuns : Prop :=
  (∀ (words : List Word) (s t : State), Ready s → NoReset s → runCommands words s = .next t →
    (Finished words s t ↔ t.faulted = false) ∧ t.responses.length = s.responses.length + words.length
    ∧ ((∀ w ∈ words, w ≠ 0x70000000#32) → t.ecur = s.ecur))
  ∧ (∀ (s : State) (p : Nat) (rest : List BusTurn), Ready s → p < s.cfg.numPins →
    s.script = ⟨[], .done⟩ :: ⟨[], .reset⟩ :: rest →
    ∃ t, runCommands [encode (.cfgin p)] s = .next t ∧ t.faulted = false ∧ ¬ Finished [encode (.cfgin p)] s t)

/-- Rules R267, R275, with the premise of rule R57: every list of command words, legal and illegal alike, is finished, from every
state of the invariant that is not faulted, whatever the other agents do to the bank that the spec gives an effect (rule R73). -/
def Obligations.CommandListsFinish : Prop :=
  ∀ (words : List Word) (s : State), Inv s → s.faulted = false → AccessesComplete s → WritesDefined s →
    ∃ t, Finished words s t

/-! ### External probing -/

/-- After rule R71: probing logic samples the pair of a pin's function field and output latch, between two commands and
between any two accesses of one, and changes nothing else. Before each of the three accesses of a `CFGOUT`, before each of the
two of a `CFGIN` or of a reporting `ENEXT`; and where another agent drives the latch between the read and the write-back of a
`CFGIN`, the torn pin of rule R79: the new level with the old field (probes as acts and their samples as a list: the model's
choice, log 23, and so is that a pin that does not exist gives no sample). That a reporting `ENEXT` makes two accesses is the
spec's decision D18. -/
def Obligations.ProbeSeesPin : Prop :=
  (∀ (s : State) (p : Nat) (rest : List Input), ConfigOK s.cfg → s.inputs = .act (.probe p) :: rest →
    (p < s.cfg.numPins → step s = .next { s with inputs := rest, probes := s.probes ++ [⟨p, fnField s p, latch s p⟩] })
    ∧ (s.cfg.numPins ≤ p → step s = .next { s with inputs := rest }))
  ∧ (∀ (s : State) (p q : Nat) (l : Level) (rest : List BusTurn), Ready s → p < s.cfg.numPins → q < s.cfg.numPins →
    s.script = ⟨[.probe q], .done⟩ :: ⟨[.probe q], .done⟩ :: ⟨[.probe q], .done⟩ :: rest →
    ∃ t, exec (.cfgout p l) s = .next t ∧ t.probes = s.probes ++ [⟨q, fnField s q, latch s q⟩, ⟨q, fnField s q, latch s q⟩,
      ⟨q, if q = p then 0b001#3 else fnField s q, latch s q⟩])
  ∧ (∀ (s : State) (i : Instr) (p q : Nat) (rest : List BusTurn), Ready s → p < s.cfg.numPins → q < s.cfg.numPins →
    s.script = ⟨[.probe q], .done⟩ :: ⟨[.probe q], .done⟩ :: rest →
    i = .cfgin p ∨ (i = .enext ∧ s.ecur = .atPin p ∧ (fnField s p = 0b000#3 ∨ fnField s p = 0b001#3)) →
    ∃ t, exec i s = .next t ∧ t.probes = s.probes ++ [⟨q, fnField s q, latch s q⟩, ⟨q, fnField s q, latch s q⟩])
  ∧ (∀ (s : State) (p : Nat) (l : Level) (rest : List BusTurn), Ready s → p < s.cfg.numPins →
    s.script = ⟨[], .done⟩ :: ⟨[.busWrite (addressOf s.cfg (match l with | .high => .set | .low => .clr) p).offset
      (1#32 <<< (p % 32)), .probe p], .done⟩ :: rest →
    ∃ t, exec (.cfgin p) s = .next t ∧ t.probes = s.probes ++ [⟨p, fnField s p, decide (l = .high)⟩]
      ∧ fnField t p = 0b000#3 ∧ latch t p = decide (l = .high))
end

