-- ==== Sys2Proof/Laws/Bits.lean ====
section
/-! SUPPORT. What the bit-field operations of Machine/Bits.lean do, bit by bit. -/

namespace Sys2Proof.Machine

theorem getLsbD_bitsBelow (f : Nat → Bool) (n i : Nat) (hn : n ≤ 32) :
    (bitsBelow f n).getLsbD i = (decide (i < n) && f i) := by
  induction n with
  | zero => simp [bitsBelow]
  | succ n ih =>
    have ih := ih (by omega)
    have one : (1#32 <<< n).getLsbD i = decide (i = n) := by
      rw [← BitVec.twoPow_eq, BitVec.getLsbD_twoPow]
      by_cases h : i = n
      · subst h; simp; omega
      · simp [h, Ne.symm h]
    rcases Nat.lt_trichotomy i n with h | h | h
    · by_cases hf : f n = true
      · simp [bitsBelow, hf, ih, one, h, h.ne, Nat.lt_succ_of_lt h]
      · simp [bitsBelow, hf, ih, h, Nat.lt_succ_of_lt h]
    · subst h
      by_cases hf : f i = true
      · simp [bitsBelow, hf, one]
      · simp [bitsBelow, hf, ih]
    · have h1 : ¬ i < n := by omega
      have h2 : ¬ i < n + 1 := by omega
      by_cases hf : f n = true
      · simp [bitsBelow, hf, ih, one, h1, h2, h.ne']
      · simp [bitsBelow, hf, ih, h1, h2]

@[simp] theorem getLsbD_wordOfBits (f : Nat → Bool) (i : Nat) :
    (wordOfBits f).getLsbD i = (decide (i < 32) && f i) := getLsbD_bitsBelow f 32 i (le_refl _)

@[simp] theorem lowMask_one : lowMask 1 = 1#32 := by decide

@[simp] theorem lowMask_three : lowMask 3 = 7#32 := by decide

theorem getLsbD_seven (i : Nat) : (7#32).getLsbD i = decide (i < 3) := by
  by_cases h : i < 3
  · interval_cases i <;> decide
  · simp only [h, decide_false]
    by_cases h32 : i < 32
    · interval_cases i <;> first | omega | rfl
    · exact BitVec.getLsbD_of_ge _ _ (by omega)

theorem getLsbD_one32 (i : Nat) : (1#32).getLsbD i = decide (i = 0) := by
  simp [BitVec.getLsbD_one]

/-- The 1-bit field at `bo` is the bit at `bo`. -/
theorem extractField_bit (v : Word) (bo : Nat) :
    extractField v bo 1 = if v.getLsbD bo then 1#32 else 0#32 := by
  apply BitVec.eq_of_getLsbD_eq
  intro i hi
  simp only [extractField, lowMask_one, BitVec.getLsbD_and, BitVec.getLsbD_ushiftRight, getLsbD_one32]
  by_cases h0 : i = 0
  · subst h0; cases h : v.getLsbD bo <;> simp
  · cases v.getLsbD bo <;> simp [h0, BitVec.getLsbD_one]

/-- The 3-bit field at `bo`, as the three bits of the word. -/
theorem extractField_three (v : Word) (bo : Nat) :
    extractField v bo 3 = (v.extractLsb' bo 3).setWidth 32 := by
  apply BitVec.eq_of_getLsbD_eq
  intro i hi
  simp only [extractField, lowMask_three, BitVec.getLsbD_and, BitVec.getLsbD_ushiftRight, getLsbD_seven,
    BitVec.getLsbD_setWidth, BitVec.getLsbD_extractLsb', hi, decide_true, Bool.true_and]
  rw [Bool.and_comm]

/-- A field replaced: the new bits inside, the old bits outside (rule R151). -/
theorem getLsbD_replaceField_three (v m : Word) (bo i : Nat) (hm : ∀ j, 3 ≤ j → m.getLsbD j = false) (hi : i < 32) :
    (replaceField v bo 3 m).getLsbD i =
      if bo ≤ i ∧ i < bo + 3 then m.getLsbD (i - bo) else v.getLsbD i := by
  simp only [replaceField, fieldMask, lowMask_three, BitVec.getLsbD_or, BitVec.getLsbD_and, BitVec.getLsbD_not,
    BitVec.getLsbD_shiftLeft, getLsbD_seven, hi, decide_true, Bool.true_and]
  by_cases h1 : i < bo
  · have h2 : ¬ (bo ≤ i ∧ i < bo + 3) := by omega
    simp [h1, h2]
  · by_cases h3 : i < bo + 3
    · have h4 : i - bo < 3 := by omega
      simp [h1, h3, h4, show bo ≤ i by omega]
    · have h4 : ¬ i - bo < 3 := by omega
      simp [h3, h4, hm _ (by omega : 3 ≤ i - bo)]

theorem getLsbD_zero32 (j : Nat) : (0b000#32).getLsbD j = false := by simp

theorem getLsbD_one_high (j : Nat) (h : 3 ≤ j) : (0b001#32).getLsbD j = false := by
  simp [BitVec.getLsbD_one]; omega

/-- The replaced field reads as the new value. -/
theorem extract_replaceField_same (v m : Word) (bo : Nat) (hb : bo + 3 ≤ 32) (hm : ∀ j, 3 ≤ j → m.getLsbD j = false) :
    (replaceField v bo 3 m).extractLsb' bo 3 = m.setWidth 3 := by
  apply BitVec.eq_of_getLsbD_eq
  intro i hi
  rw [BitVec.getLsbD_extractLsb', getLsbD_replaceField_three _ _ _ _ hm (by omega)]
  simp [hi]

/-- A field that does not meet the replaced one reads as before. -/
theorem extract_replaceField_other (v m : Word) (bo bo' : Nat) (hb : bo' + 3 ≤ 32)
    (hd : bo + 3 ≤ bo' ∨ bo' + 3 ≤ bo) (hm : ∀ j, 3 ≤ j → m.getLsbD j = false) :
    (replaceField v bo 3 m).extractLsb' bo' 3 = v.extractLsb' bo' 3 := by
  apply BitVec.eq_of_getLsbD_eq
  intro i hi
  rw [BitVec.getLsbD_extractLsb', BitVec.getLsbD_extractLsb', getLsbD_replaceField_three _ _ _ _ hm (by omega)]
  have : ¬ (bo ≤ bo' + i ∧ bo' + i < bo + 3) := by omega
  simp [hi, this]

/-- A single 1 bit. -/
theorem getLsbD_single (n i : Nat) (hi : i < 32) : (1#32 <<< n).getLsbD i = decide (i = n) := by
  rw [← BitVec.twoPow_eq, BitVec.getLsbD_twoPow]
  by_cases h : i = n
  · subst h; simp [hi]
  · simp [h, Ne.symm h]

/-- A 1-bit field replaced. -/
theorem getLsbD_replaceField_bit (v : Word) (bo i : Nat) (b : Bool) (hi : i < 32) :
    (replaceField v bo 1 (if b then 1#32 else 0#32)).getLsbD i = if i = bo then b else v.getLsbD i := by
  have hm : (fieldMask bo 1).getLsbD i = decide (i = bo) := by
    rw [fieldMask, lowMask_one, getLsbD_single _ _ hi]
  cases b
  · simp only [replaceField, BitVec.getLsbD_or, BitVec.getLsbD_and, BitVec.getLsbD_not, hm, hi]
    by_cases h : i = bo <;> simp [h]
  · simp only [replaceField, BitVec.getLsbD_or, BitVec.getLsbD_and, BitVec.getLsbD_not, hm, hi, if_true,
      getLsbD_single _ _ hi]
    by_cases h : i = bo <;> simp [h]

end Sys2Proof.Machine
end

