-- ==== Sys2Proof/Laws/Memory.lean ====
section
/-! SUPPORT. The laws of memory: a read after a write to the same place gives the value written, a write leaves every
other place alone, and every write keeps the canonical form. -/

namespace Sys2Proof.Machine

theorem byteAt_dropCell (m : Memory) (a b : Nat) :
    byteAt (dropCell m a) b = if b = a then unlistedByte else byteAt m b := by
  induction m with
  | nil => simp [dropCell, byteAt]
  | cons c rest ih =>
    obtain ⟨k, v⟩ := c
    simp only [dropCell] at ih
    by_cases hk : k = a
    · subst hk
      by_cases hb : b = k
      · subst hb; simpa [dropCell] using ih
      · simp [dropCell, byteAt, ih, hb, Ne.symm hb]
    · by_cases hb : b = a
      · subst hb; simp [dropCell, byteAt, hk, ih]
      · simp [dropCell, byteAt, hk, ih, hb]

theorem byteAt_insertCell (m : Memory) (a b : Nat) (v : Byte) (ha : byteAt m a = unlistedByte)
    (hno : ∀ c ∈ m, c.1 ≠ a) :
    byteAt (insertCell m (a, v)) b = if b = a then v else byteAt m b := by
  induction m with
  | nil =>
    by_cases hb : b = a
    · simp [insertCell, byteAt, hb]
    · simp [insertCell, byteAt, hb, Ne.symm hb]
  | cons c rest ih =>
    obtain ⟨k, w⟩ := c
    have hk : k ≠ a := hno (k, w) (by simp)
    have ih := ih (by simpa [byteAt, hk] using ha) fun c hc => hno c (by simp [hc])
    by_cases hlt : a < k
    · by_cases hb : b = a
      · simp [insertCell, hlt, byteAt, hb]
      · simp [insertCell, hlt, byteAt, hb, Ne.symm hb]
    · by_cases hb : b = a
      · subst hb; simp [insertCell, hlt, byteAt, ih, hk]
      · by_cases hkb : k = b
        · simp only [insertCell, hlt, if_false, byteAt, if_pos hkb, if_neg hb]
        · simp [insertCell, hlt, byteAt, ih, hb, hkb]

theorem dropCell_free (m : Memory) (a : Nat) : ∀ c ∈ dropCell m a, c.1 ≠ a := by
  intro c hc; simpa [dropCell] using (List.mem_filter.mp hc).2

/-- A byte read after a byte written. -/
theorem byteAt_setByte (m : Memory) (a b : Nat) (v : Byte) :
    byteAt (setByte m a v) b = if b = a then v else byteAt m b := by
  unfold setByte
  split
  · rename_i h; rw [byteAt_dropCell, h]
  · rw [byteAt_insertCell _ _ _ _ (by simp [byteAt_dropCell]) (dropCell_free m a), byteAt_dropCell]
    by_cases hb : b = a <;> simp [hb]

/-- A byte read after a word written: bits of the word inside its four bytes, the old byte outside. -/
theorem byteAt_setWord_other (m : Memory) (a b : Nat) (w : Word) (h : b < a ∨ a + 4 ≤ b) :
    byteAt (setWord m a w) b = byteAt m b := by
  simp only [setWord, byteAt_setByte]
  rw [if_neg (by omega), if_neg (by omega), if_neg (by omega), if_neg (by omega)]

theorem bytes_of_word (w : Word) :
    w.extractLsb' 24 8 ++ w.extractLsb' 16 8 ++ w.extractLsb' 8 8 ++ w.extractLsb' 0 8 = w := by
  apply BitVec.eq_of_getLsbD_eq
  intro i hi
  simp only [BitVec.getLsbD_append, BitVec.getLsbD_extractLsb']
  by_cases h1 : i < 8
  · simp [h1]
  · by_cases h2 : i - 8 < 8
    · simp [h1, h2, show 8 + (i - 8) = i by omega]
    · by_cases h3 : i - 8 - 8 < 8
      · simp [h1, h2, h3, show 16 + (i - 8 - 8) = i by omega]
      · simp [h1, h2, h3, show 24 + (i - 8 - 8 - 8) = i by omega, show i - 8 - 8 - 8 < 8 by omega]

/-- The word read after the word written at the same address. -/
@[simp] theorem wordAt_setWord_same (m : Memory) (a : Nat) (w : Word) : wordAt (setWord m a w) a = w := by
  simp [wordAt, setWord, byteAt_setByte, bytes_of_word]

/-- A word that shares no byte with the word written reads as before. -/
theorem wordAt_setWord_other (m : Memory) (a b : Nat) (w : Word) (h : b + 4 ≤ a ∨ a + 4 ≤ b) :
    wordAt (setWord m a w) b = wordAt m b := by
  simp only [wordAt]
  rw [byteAt_setWord_other, byteAt_setWord_other, byteAt_setWord_other, byteAt_setWord_other] <;> omega

theorem mem_insertCell {m : Memory} {c d : Host.Cell} : d ∈ insertCell m c ↔ d = c ∨ d ∈ m := by
  induction m with
  | nil => simp [insertCell]
  | cons e rest ih =>
    by_cases h : c.1 < e.1
    · simp [insertCell, h]
    · simp only [insertCell, h, if_false, List.mem_cons, ih]
      constructor
      · rintro (h | h | h) <;> simp [h]
      · rintro (h | h | h) <;> simp [h]

theorem pairwise_insertCell {m : Memory} {c : Host.Cell} (hm : List.Pairwise (fun c d : Host.Cell => c.1 < d.1) m)
    (hc : ∀ d ∈ m, d.1 ≠ c.1) : List.Pairwise (fun c d : Host.Cell => c.1 < d.1) (insertCell m c) := by
  induction m with
  | nil => simp [insertCell]
  | cons e rest ih =>
    rw [List.pairwise_cons] at hm
    by_cases h : c.1 < e.1
    · simp only [insertCell, h, if_true, List.pairwise_cons]
      refine ⟨?_, hm⟩
      intro d hd
      rcases List.mem_cons.mp hd with rfl | hd
      · exact h
      · exact lt_trans h (hm.1 d hd)
    · simp only [insertCell, h, if_false, List.pairwise_cons]
      refine ⟨?_, ih hm.2 fun d hd => hc d (by simp [hd])⟩
      intro d hd
      rcases mem_insertCell.mp hd with rfl | hd
      · have := hc e (by simp); omega
      · exact hm.1 d hd

theorem setByte_wf {m : Memory} (h : Memory.Wf m) (a : Nat) (v : Byte) : Memory.Wf (setByte m a v) := by
  obtain ⟨hp, hv⟩ := h
  have hp' : List.Pairwise (fun c d : Host.Cell => c.1 < d.1) (dropCell m a) := hp.filter _
  have hv' : ∀ c ∈ dropCell m a, c.2 ≠ unlistedByte := fun c hc => hv c (List.mem_filter.mp hc).1
  unfold setByte
  split
  · exact ⟨hp', hv'⟩
  · rename_i hne
    refine ⟨pairwise_insertCell hp' (dropCell_free m a), ?_⟩
    intro c hc
    rcases mem_insertCell.mp hc with rfl | hc
    · exact hne
    · exact hv' c hc

/-- A word written keeps the canonical form. -/
theorem setWord_wf {m : Memory} (h : Memory.Wf m) (a : Nat) (w : Word) : Memory.Wf (setWord m a w) :=
  setByte_wf (setByte_wf (setByte_wf (setByte_wf h _ _) _ _) _ _) _ _

theorem nil_wf : Memory.Wf [] := by decide

theorem byteAt_eq_of_mem {m : Memory} (h : List.Pairwise (fun c d : Host.Cell => c.1 < d.1) m) {c : Host.Cell}
    (hc : c ∈ m) : byteAt m c.1 = c.2 := by
  induction m with
  | nil => simp at hc
  | cons e rest ih =>
    rw [List.pairwise_cons] at h
    obtain ⟨k, v⟩ := e
    rcases List.mem_cons.mp hc with rfl | hin
    · simp [byteAt]
    · have hlt : k < c.1 := h.1 c hin
      simp [byteAt, show k ≠ c.1 by omega, ih h.2 hin]

theorem mem_of_byteAt_ne {m : Memory} {a : Nat} (h : byteAt m a ≠ unlistedByte) : (a, byteAt m a) ∈ m := by
  induction m with
  | nil => simp [byteAt] at h
  | cons e rest ih =>
    obtain ⟨k, v⟩ := e
    by_cases hk : k = a
    · subst hk; simp [byteAt]
    · simp only [byteAt, hk, if_false] at h ⊢
      exact List.mem_cons_of_mem _ (ih h)

/-- Two canonical memories that read alike are equal. -/
theorem eq_of_byteAt_eq {m n : Memory} (hm : Memory.Wf m) (hn : Memory.Wf n) (h : ∀ a, byteAt m a = byteAt n a) :
    m = n := by
  have sub : ∀ {m n : Memory}, Memory.Wf m → Memory.Wf n → (∀ a, byteAt m a = byteAt n a) → ∀ c ∈ m, c ∈ n := by
    intro m n hm hn h c hc
    have hb := byteAt_eq_of_mem hm.1 hc
    have hne : byteAt n c.1 ≠ unlistedByte := by rw [← h, hb]; exact hm.2 c hc
    have := mem_of_byteAt_ne hne
    rwa [← h, hb] at this
  have nd : ∀ {m : Memory}, Memory.Wf m → m.Nodup := fun hm => hm.1.imp (fun {a b} hlt he => by rw [he] at hlt; omega)
  have hperm : m.Perm n :=
    (List.perm_ext_iff_of_nodup (nd hm) (nd hn)).mpr fun c => ⟨sub hm hn h c, sub hn hm (fun a => (h a).symm) c⟩
  exact hperm.eq_of_pairwise (fun a b _ _ h1 h2 => by omega) hm.1 hn.1

end Sys2Proof.Machine
end

