-- ==== Sys2Proof/Laws/State.lean ====
section
/-! SUPPORT. One lemma per field of the state per update, so that no proof unfolds a record update. -/

namespace Sys2Proof.Machine

@[simp] theorem withScript_cfg (script : List BusTurn) (s : State) : (withScript script s).cfg = s.cfg := rfl
@[simp] theorem withScript_ecur (script : List BusTurn) (s : State) : (withScript script s).ecur = s.ecur := rfl
@[simp] theorem withScript_faulted (script : List BusTurn) (s : State) : (withScript script s).faulted = s.faulted := rfl
@[simp] theorem withScript_busy (script : List BusTurn) (s : State) : (withScript script s).busy = s.busy := rfl
@[simp] theorem withScript_bind (script : List BusTurn) (s : State) : (withScript script s).bind = s.bind := rfl
@[simp] theorem withScript_configured (script : List BusTurn) (s : State) : (withScript script s).configured = s.configured := rfl
@[simp] theorem withScript_mem (script : List BusTurn) (s : State) : (withScript script s).mem = s.mem := rfl
@[simp] theorem withScript_lat (script : List BusTurn) (s : State) : (withScript script s).lat = s.lat := rfl
@[simp] theorem withScript_ext (script : List BusTurn) (s : State) : (withScript script s).ext = s.ext := rfl
@[simp] theorem withScript_responses (script : List BusTurn) (s : State) : (withScript script s).responses = s.responses := rfl
@[simp] theorem withScript_trace (script : List BusTurn) (s : State) : (withScript script s).trace = s.trace := rfl
@[simp] theorem withScript_inputs (script : List BusTurn) (s : State) : (withScript script s).inputs = s.inputs := rfl
@[simp] theorem withScript_script (script : List BusTurn) (s : State) : (withScript script s).script = script := rfl
@[simp] theorem withScript_replies (script : List BusTurn) (s : State) : (withScript script s).replies = s.replies := rfl
@[simp] theorem withScript_draws (script : List BusTurn) (s : State) : (withScript script s).draws = s.draws := rfl
@[simp] theorem withScript_probes (script : List BusTurn) (s : State) : (withScript script s).probes = s.probes := rfl

@[simp] theorem withInputs_cfg (inputs : List Input) (s : State) : (withInputs inputs s).cfg = s.cfg := rfl
@[simp] theorem withInputs_ecur (inputs : List Input) (s : State) : (withInputs inputs s).ecur = s.ecur := rfl
@[simp] theorem withInputs_faulted (inputs : List Input) (s : State) : (withInputs inputs s).faulted = s.faulted := rfl
@[simp] theorem withInputs_busy (inputs : List Input) (s : State) : (withInputs inputs s).busy = s.busy := rfl
@[simp] theorem withInputs_bind (inputs : List Input) (s : State) : (withInputs inputs s).bind = s.bind := rfl
@[simp] theorem withInputs_configured (inputs : List Input) (s : State) : (withInputs inputs s).configured = s.configured := rfl
@[simp] theorem withInputs_mem (inputs : List Input) (s : State) : (withInputs inputs s).mem = s.mem := rfl
@[simp] theorem withInputs_lat (inputs : List Input) (s : State) : (withInputs inputs s).lat = s.lat := rfl
@[simp] theorem withInputs_ext (inputs : List Input) (s : State) : (withInputs inputs s).ext = s.ext := rfl
@[simp] theorem withInputs_responses (inputs : List Input) (s : State) : (withInputs inputs s).responses = s.responses := rfl
@[simp] theorem withInputs_trace (inputs : List Input) (s : State) : (withInputs inputs s).trace = s.trace := rfl
@[simp] theorem withInputs_inputs (inputs : List Input) (s : State) : (withInputs inputs s).inputs = inputs := rfl
@[simp] theorem withInputs_script (inputs : List Input) (s : State) : (withInputs inputs s).script = s.script := rfl
@[simp] theorem withInputs_replies (inputs : List Input) (s : State) : (withInputs inputs s).replies = s.replies := rfl
@[simp] theorem withInputs_draws (inputs : List Input) (s : State) : (withInputs inputs s).draws = s.draws := rfl
@[simp] theorem withInputs_probes (inputs : List Input) (s : State) : (withInputs inputs s).probes = s.probes := rfl

@[simp] theorem drawn_cfg (s : State) : (drawn s).cfg = s.cfg := rfl
@[simp] theorem drawn_ecur (s : State) : (drawn s).ecur = s.ecur := rfl
@[simp] theorem drawn_faulted (s : State) : (drawn s).faulted = s.faulted := rfl
@[simp] theorem drawn_busy (s : State) : (drawn s).busy = s.busy := rfl
@[simp] theorem drawn_bind (s : State) : (drawn s).bind = s.bind := rfl
@[simp] theorem drawn_configured (s : State) : (drawn s).configured = s.configured := rfl
@[simp] theorem drawn_mem (s : State) : (drawn s).mem = s.mem := rfl
@[simp] theorem drawn_lat (s : State) : (drawn s).lat = s.lat := rfl
@[simp] theorem drawn_ext (s : State) : (drawn s).ext = s.ext := rfl
@[simp] theorem drawn_responses (s : State) : (drawn s).responses = s.responses := rfl
@[simp] theorem drawn_trace (s : State) : (drawn s).trace = s.trace := rfl
@[simp] theorem drawn_inputs (s : State) : (drawn s).inputs = s.inputs := rfl
@[simp] theorem drawn_script (s : State) : (drawn s).script = s.script := rfl
@[simp] theorem drawn_replies (s : State) : (drawn s).replies = s.replies := rfl
@[simp] theorem drawn_draws (s : State) : (drawn s).draws = s.draws + 1 := rfl
@[simp] theorem drawn_probes (s : State) : (drawn s).probes = s.probes := rfl

@[simp] theorem accept_cfg (i : Instr) (s : State) : (accept i s).cfg = s.cfg := rfl
@[simp] theorem accept_ecur (i : Instr) (s : State) : (accept i s).ecur = s.ecur := rfl
@[simp] theorem accept_faulted (i : Instr) (s : State) : (accept i s).faulted = s.faulted := rfl
@[simp] theorem accept_busy (i : Instr) (s : State) : (accept i s).busy = some ⟨i, none⟩ := rfl
@[simp] theorem accept_bind (i : Instr) (s : State) : (accept i s).bind = s.bind := rfl
@[simp] theorem accept_configured (i : Instr) (s : State) : (accept i s).configured = s.configured := rfl
@[simp] theorem accept_mem (i : Instr) (s : State) : (accept i s).mem = s.mem := rfl
@[simp] theorem accept_lat (i : Instr) (s : State) : (accept i s).lat = s.lat := rfl
@[simp] theorem accept_ext (i : Instr) (s : State) : (accept i s).ext = s.ext := rfl
@[simp] theorem accept_responses (i : Instr) (s : State) : (accept i s).responses = s.responses := rfl
@[simp] theorem accept_trace (i : Instr) (s : State) : (accept i s).trace = s.trace := rfl
@[simp] theorem accept_inputs (i : Instr) (s : State) : (accept i s).inputs = s.inputs := rfl
@[simp] theorem accept_script (i : Instr) (s : State) : (accept i s).script = s.script := rfl
@[simp] theorem accept_replies (i : Instr) (s : State) : (accept i s).replies = s.replies := rfl
@[simp] theorem accept_draws (i : Instr) (s : State) : (accept i s).draws = s.draws := rfl
@[simp] theorem accept_probes (i : Instr) (s : State) : (accept i s).probes = s.probes := rfl

@[simp] theorem respond_cfg (st : Status) (d0 d1 : Word) (s : State) : (respond st d0 d1 s).cfg = s.cfg := rfl
@[simp] theorem respond_ecur (st : Status) (d0 d1 : Word) (s : State) : (respond st d0 d1 s).ecur = s.ecur := rfl
@[simp] theorem respond_faulted (st : Status) (d0 d1 : Word) (s : State) : (respond st d0 d1 s).faulted = s.faulted := rfl
@[simp] theorem respond_busy (st : Status) (d0 d1 : Word) (s : State) : (respond st d0 d1 s).busy = none := rfl
@[simp] theorem respond_bind (st : Status) (d0 d1 : Word) (s : State) : (respond st d0 d1 s).bind = s.bind := rfl
@[simp] theorem respond_configured (st : Status) (d0 d1 : Word) (s : State) : (respond st d0 d1 s).configured = s.configured := rfl
@[simp] theorem respond_mem (st : Status) (d0 d1 : Word) (s : State) : (respond st d0 d1 s).mem = s.mem := rfl
@[simp] theorem respond_lat (st : Status) (d0 d1 : Word) (s : State) : (respond st d0 d1 s).lat = s.lat := rfl
@[simp] theorem respond_ext (st : Status) (d0 d1 : Word) (s : State) : (respond st d0 d1 s).ext = s.ext := rfl
@[simp] theorem respond_responses (st : Status) (d0 d1 : Word) (s : State) : (respond st d0 d1 s).responses = s.responses ++ [⟨st, d0, d1⟩] := rfl
@[simp] theorem respond_trace (st : Status) (d0 d1 : Word) (s : State) : (respond st d0 d1 s).trace = s.trace := rfl
@[simp] theorem respond_inputs (st : Status) (d0 d1 : Word) (s : State) : (respond st d0 d1 s).inputs = s.inputs := rfl
@[simp] theorem respond_script (st : Status) (d0 d1 : Word) (s : State) : (respond st d0 d1 s).script = s.script := rfl
@[simp] theorem respond_replies (st : Status) (d0 d1 : Word) (s : State) : (respond st d0 d1 s).replies = s.replies := rfl
@[simp] theorem respond_draws (st : Status) (d0 d1 : Word) (s : State) : (respond st d0 d1 s).draws = s.draws := rfl
@[simp] theorem respond_probes (st : Status) (d0 d1 : Word) (s : State) : (respond st d0 d1 s).probes = s.probes := rfl

@[simp] theorem takeError_cfg (e : CmdError) (s : State) : (takeError e s).cfg = s.cfg := rfl
@[simp] theorem takeError_ecur (e : CmdError) (s : State) : (takeError e s).ecur = s.ecur := rfl
@[simp] theorem takeError_faulted (e : CmdError) (s : State) : (takeError e s).faulted = faultedAfter e s.faulted := rfl
@[simp] theorem takeError_busy (e : CmdError) (s : State) : (takeError e s).busy = none := rfl
@[simp] theorem takeError_bind (e : CmdError) (s : State) : (takeError e s).bind = s.bind := rfl
@[simp] theorem takeError_configured (e : CmdError) (s : State) : (takeError e s).configured = s.configured := rfl
@[simp] theorem takeError_mem (e : CmdError) (s : State) : (takeError e s).mem = s.mem := rfl
@[simp] theorem takeError_lat (e : CmdError) (s : State) : (takeError e s).lat = s.lat := rfl
@[simp] theorem takeError_ext (e : CmdError) (s : State) : (takeError e s).ext = s.ext := rfl
@[simp] theorem takeError_responses (e : CmdError) (s : State) :
    (takeError e s).responses = s.responses ++ [⟨statusOfError e, 0#32, 0#32⟩] := rfl
@[simp] theorem takeError_trace (e : CmdError) (s : State) : (takeError e s).trace = s.trace := rfl
@[simp] theorem takeError_inputs (e : CmdError) (s : State) : (takeError e s).inputs = s.inputs := rfl
@[simp] theorem takeError_script (e : CmdError) (s : State) : (takeError e s).script = s.script := rfl
@[simp] theorem takeError_replies (e : CmdError) (s : State) : (takeError e s).replies = s.replies := rfl
@[simp] theorem takeError_draws (e : CmdError) (s : State) : (takeError e s).draws = s.draws := rfl
@[simp] theorem takeError_probes (e : CmdError) (s : State) : (takeError e s).probes = s.probes := rfl

@[simp] theorem resetEngine_cfg (s : State) : (resetEngine s).cfg = s.cfg := rfl
@[simp] theorem resetEngine_ecur (s : State) : (resetEngine s).ecur = .start := rfl
@[simp] theorem resetEngine_faulted (s : State) : (resetEngine s).faulted = false := rfl
@[simp] theorem resetEngine_busy (s : State) : (resetEngine s).busy = none := rfl
@[simp] theorem resetEngine_bind (s : State) : (resetEngine s).bind = [] := rfl
@[simp] theorem resetEngine_configured (s : State) : (resetEngine s).configured = false := rfl
@[simp] theorem resetEngine_mem (s : State) : (resetEngine s).mem = s.mem := rfl
@[simp] theorem resetEngine_lat (s : State) : (resetEngine s).lat = s.lat := rfl
@[simp] theorem resetEngine_ext (s : State) : (resetEngine s).ext = s.ext := rfl
@[simp] theorem resetEngine_responses (s : State) : (resetEngine s).responses = s.responses := rfl
@[simp] theorem resetEngine_trace (s : State) : (resetEngine s).trace = s.trace := rfl
@[simp] theorem resetEngine_inputs (s : State) : (resetEngine s).inputs = s.inputs := rfl
@[simp] theorem resetEngine_script (s : State) : (resetEngine s).script = s.script := rfl
@[simp] theorem resetEngine_replies (s : State) : (resetEngine s).replies = s.replies := rfl
@[simp] theorem resetEngine_draws (s : State) : (resetEngine s).draws = s.draws := rfl
@[simp] theorem resetEngine_probes (s : State) : (resetEngine s).probes = s.probes := rfl

@[simp] theorem logAccess_cfg (a : Access) (s : State) : (logAccess a s).cfg = s.cfg := rfl
@[simp] theorem logAccess_ecur (a : Access) (s : State) : (logAccess a s).ecur = s.ecur := rfl
@[simp] theorem logAccess_faulted (a : Access) (s : State) : (logAccess a s).faulted = s.faulted := rfl
@[simp] theorem logAccess_busy (a : Access) (s : State) : (logAccess a s).busy = s.busy := rfl
@[simp] theorem logAccess_bind (a : Access) (s : State) : (logAccess a s).bind = s.bind := rfl
@[simp] theorem logAccess_configured (a : Access) (s : State) : (logAccess a s).configured = s.configured := rfl
@[simp] theorem logAccess_mem (a : Access) (s : State) : (logAccess a s).mem = s.mem := rfl
@[simp] theorem logAccess_lat (a : Access) (s : State) : (logAccess a s).lat = s.lat := rfl
@[simp] theorem logAccess_ext (a : Access) (s : State) : (logAccess a s).ext = s.ext := rfl
@[simp] theorem logAccess_responses (a : Access) (s : State) : (logAccess a s).responses = s.responses := rfl
@[simp] theorem logAccess_trace (a : Access) (s : State) : (logAccess a s).trace = s.trace ++ [a] := rfl
@[simp] theorem logAccess_inputs (a : Access) (s : State) : (logAccess a s).inputs = s.inputs := rfl
@[simp] theorem logAccess_script (a : Access) (s : State) : (logAccess a s).script = s.script := rfl
@[simp] theorem logAccess_replies (a : Access) (s : State) : (logAccess a s).replies = s.replies := rfl
@[simp] theorem logAccess_draws (a : Access) (s : State) : (logAccess a s).draws = s.draws := rfl
@[simp] theorem logAccess_probes (a : Access) (s : State) : (logAccess a s).probes = s.probes := rfl

@[simp] theorem setTemp_cfg (t : Option Word) (s : State) : (setTemp t s).cfg = s.cfg := rfl
@[simp] theorem setTemp_ecur (t : Option Word) (s : State) : (setTemp t s).ecur = s.ecur := rfl
@[simp] theorem setTemp_faulted (t : Option Word) (s : State) : (setTemp t s).faulted = s.faulted := rfl
@[simp] theorem setTemp_busy (t : Option Word) (s : State) :
    (setTemp t s).busy = s.busy.map fun b => { b with t := t } := rfl
@[simp] theorem setTemp_bind (t : Option Word) (s : State) : (setTemp t s).bind = s.bind := rfl
@[simp] theorem setTemp_configured (t : Option Word) (s : State) : (setTemp t s).configured = s.configured := rfl
@[simp] theorem setTemp_mem (t : Option Word) (s : State) : (setTemp t s).mem = s.mem := rfl
@[simp] theorem setTemp_lat (t : Option Word) (s : State) : (setTemp t s).lat = s.lat := rfl
@[simp] theorem setTemp_ext (t : Option Word) (s : State) : (setTemp t s).ext = s.ext := rfl
@[simp] theorem setTemp_responses (t : Option Word) (s : State) : (setTemp t s).responses = s.responses := rfl
@[simp] theorem setTemp_trace (t : Option Word) (s : State) : (setTemp t s).trace = s.trace := rfl
@[simp] theorem setTemp_inputs (t : Option Word) (s : State) : (setTemp t s).inputs = s.inputs := rfl
@[simp] theorem setTemp_script (t : Option Word) (s : State) : (setTemp t s).script = s.script := rfl
@[simp] theorem setTemp_replies (t : Option Word) (s : State) : (setTemp t s).replies = s.replies := rfl
@[simp] theorem setTemp_draws (t : Option Word) (s : State) : (setTemp t s).draws = s.draws := rfl
@[simp] theorem setTemp_probes (t : Option Word) (s : State) : (setTemp t s).probes = s.probes := rfl

@[simp] theorem setCursor_cfg (c : Cursor) (s : State) : (setCursor c s).cfg = s.cfg := rfl
@[simp] theorem setCursor_ecur (c : Cursor) (s : State) : (setCursor c s).ecur = c := rfl
@[simp] theorem setCursor_faulted (c : Cursor) (s : State) : (setCursor c s).faulted = s.faulted := rfl
@[simp] theorem setCursor_busy (c : Cursor) (s : State) : (setCursor c s).busy = s.busy := rfl
@[simp] theorem setCursor_bind (c : Cursor) (s : State) : (setCursor c s).bind = s.bind := rfl
@[simp] theorem setCursor_configured (c : Cursor) (s : State) : (setCursor c s).configured = s.configured := rfl
@[simp] theorem setCursor_mem (c : Cursor) (s : State) : (setCursor c s).mem = s.mem := rfl
@[simp] theorem setCursor_lat (c : Cursor) (s : State) : (setCursor c s).lat = s.lat := rfl
@[simp] theorem setCursor_ext (c : Cursor) (s : State) : (setCursor c s).ext = s.ext := rfl
@[simp] theorem setCursor_responses (c : Cursor) (s : State) : (setCursor c s).responses = s.responses := rfl
@[simp] theorem setCursor_trace (c : Cursor) (s : State) : (setCursor c s).trace = s.trace := rfl
@[simp] theorem setCursor_inputs (c : Cursor) (s : State) : (setCursor c s).inputs = s.inputs := rfl
@[simp] theorem setCursor_script (c : Cursor) (s : State) : (setCursor c s).script = s.script := rfl
@[simp] theorem setCursor_replies (c : Cursor) (s : State) : (setCursor c s).replies = s.replies := rfl
@[simp] theorem setCursor_draws (c : Cursor) (s : State) : (setCursor c s).draws = s.draws := rfl
@[simp] theorem setCursor_probes (c : Cursor) (s : State) : (setCursor c s).probes = s.probes := rfl

@[simp] theorem writeFsel_cfg (j : Nat) (v : Word) (s : State) : (writeFsel j v s).cfg = s.cfg := rfl
@[simp] theorem writeFsel_ecur (j : Nat) (v : Word) (s : State) : (writeFsel j v s).ecur = s.ecur := rfl
@[simp] theorem writeFsel_faulted (j : Nat) (v : Word) (s : State) : (writeFsel j v s).faulted = s.faulted := rfl
@[simp] theorem writeFsel_busy (j : Nat) (v : Word) (s : State) : (writeFsel j v s).busy = s.busy := rfl
@[simp] theorem writeFsel_bind (j : Nat) (v : Word) (s : State) : (writeFsel j v s).bind = s.bind := rfl
@[simp] theorem writeFsel_configured (j : Nat) (v : Word) (s : State) : (writeFsel j v s).configured = s.configured := rfl
@[simp] theorem writeFsel_mem (j : Nat) (v : Word) (s : State) :
    (writeFsel j v s).mem = setWord s.mem (base s.cfg .fsel + 4 * j) v := rfl
@[simp] theorem writeFsel_lat (j : Nat) (v : Word) (s : State) : (writeFsel j v s).lat = s.lat := rfl
@[simp] theorem writeFsel_ext (j : Nat) (v : Word) (s : State) : (writeFsel j v s).ext = s.ext := rfl
@[simp] theorem writeFsel_responses (j : Nat) (v : Word) (s : State) : (writeFsel j v s).responses = s.responses := rfl
@[simp] theorem writeFsel_trace (j : Nat) (v : Word) (s : State) : (writeFsel j v s).trace = s.trace := rfl
@[simp] theorem writeFsel_inputs (j : Nat) (v : Word) (s : State) : (writeFsel j v s).inputs = s.inputs := rfl
@[simp] theorem writeFsel_script (j : Nat) (v : Word) (s : State) : (writeFsel j v s).script = s.script := rfl
@[simp] theorem writeFsel_replies (j : Nat) (v : Word) (s : State) : (writeFsel j v s).replies = s.replies := rfl
@[simp] theorem writeFsel_draws (j : Nat) (v : Word) (s : State) : (writeFsel j v s).draws = s.draws := rfl
@[simp] theorem writeFsel_probes (j : Nat) (v : Word) (s : State) : (writeFsel j v s).probes = s.probes := rfl

@[simp] theorem writeSet_cfg (j : Nat) (v : Word) (s : State) : (writeSet j v s).cfg = s.cfg := rfl
@[simp] theorem writeSet_ecur (j : Nat) (v : Word) (s : State) : (writeSet j v s).ecur = s.ecur := rfl
@[simp] theorem writeSet_faulted (j : Nat) (v : Word) (s : State) : (writeSet j v s).faulted = s.faulted := rfl
@[simp] theorem writeSet_busy (j : Nat) (v : Word) (s : State) : (writeSet j v s).busy = s.busy := rfl
@[simp] theorem writeSet_bind (j : Nat) (v : Word) (s : State) : (writeSet j v s).bind = s.bind := rfl
@[simp] theorem writeSet_configured (j : Nat) (v : Word) (s : State) : (writeSet j v s).configured = s.configured := rfl
@[simp] theorem writeSet_mem (j : Nat) (v : Word) (s : State) : (writeSet j v s).mem = s.mem := rfl
@[simp] theorem writeSet_lat (j : Nat) (v : Word) (s : State) :
    (writeSet j v s).lat = setWord s.lat (packAddr j) (wordAt s.lat (packAddr j) ||| (v &&& pinBits s.cfg j)) := rfl
@[simp] theorem writeSet_ext (j : Nat) (v : Word) (s : State) : (writeSet j v s).ext = s.ext := rfl
@[simp] theorem writeSet_responses (j : Nat) (v : Word) (s : State) : (writeSet j v s).responses = s.responses := rfl
@[simp] theorem writeSet_trace (j : Nat) (v : Word) (s : State) : (writeSet j v s).trace = s.trace := rfl
@[simp] theorem writeSet_inputs (j : Nat) (v : Word) (s : State) : (writeSet j v s).inputs = s.inputs := rfl
@[simp] theorem writeSet_script (j : Nat) (v : Word) (s : State) : (writeSet j v s).script = s.script := rfl
@[simp] theorem writeSet_replies (j : Nat) (v : Word) (s : State) : (writeSet j v s).replies = s.replies := rfl
@[simp] theorem writeSet_draws (j : Nat) (v : Word) (s : State) : (writeSet j v s).draws = s.draws := rfl
@[simp] theorem writeSet_probes (j : Nat) (v : Word) (s : State) : (writeSet j v s).probes = s.probes := rfl

@[simp] theorem writeClr_cfg (j : Nat) (v : Word) (s : State) : (writeClr j v s).cfg = s.cfg := rfl
@[simp] theorem writeClr_ecur (j : Nat) (v : Word) (s : State) : (writeClr j v s).ecur = s.ecur := rfl
@[simp] theorem writeClr_faulted (j : Nat) (v : Word) (s : State) : (writeClr j v s).faulted = s.faulted := rfl
@[simp] theorem writeClr_busy (j : Nat) (v : Word) (s : State) : (writeClr j v s).busy = s.busy := rfl
@[simp] theorem writeClr_bind (j : Nat) (v : Word) (s : State) : (writeClr j v s).bind = s.bind := rfl
@[simp] theorem writeClr_configured (j : Nat) (v : Word) (s : State) : (writeClr j v s).configured = s.configured := rfl
@[simp] theorem writeClr_mem (j : Nat) (v : Word) (s : State) : (writeClr j v s).mem = s.mem := rfl
@[simp] theorem writeClr_lat (j : Nat) (v : Word) (s : State) :
    (writeClr j v s).lat = setWord s.lat (packAddr j) (wordAt s.lat (packAddr j) &&& ~~~(v &&& pinBits s.cfg j)) := rfl
@[simp] theorem writeClr_ext (j : Nat) (v : Word) (s : State) : (writeClr j v s).ext = s.ext := rfl
@[simp] theorem writeClr_responses (j : Nat) (v : Word) (s : State) : (writeClr j v s).responses = s.responses := rfl
@[simp] theorem writeClr_trace (j : Nat) (v : Word) (s : State) : (writeClr j v s).trace = s.trace := rfl
@[simp] theorem writeClr_inputs (j : Nat) (v : Word) (s : State) : (writeClr j v s).inputs = s.inputs := rfl
@[simp] theorem writeClr_script (j : Nat) (v : Word) (s : State) : (writeClr j v s).script = s.script := rfl
@[simp] theorem writeClr_replies (j : Nat) (v : Word) (s : State) : (writeClr j v s).replies = s.replies := rfl
@[simp] theorem writeClr_draws (j : Nat) (v : Word) (s : State) : (writeClr j v s).draws = s.draws := rfl
@[simp] theorem writeClr_probes (j : Nat) (v : Word) (s : State) : (writeClr j v s).probes = s.probes := rfl

@[simp] theorem reply_cfg (r : Reply) (s : State) : (reply r s).cfg = s.cfg := rfl
@[simp] theorem reply_ecur (r : Reply) (s : State) : (reply r s).ecur = s.ecur := rfl
@[simp] theorem reply_faulted (r : Reply) (s : State) : (reply r s).faulted = s.faulted := rfl
@[simp] theorem reply_busy (r : Reply) (s : State) : (reply r s).busy = s.busy := rfl
@[simp] theorem reply_bind (r : Reply) (s : State) : (reply r s).bind = s.bind := rfl
@[simp] theorem reply_configured (r : Reply) (s : State) : (reply r s).configured = s.configured := rfl
@[simp] theorem reply_mem (r : Reply) (s : State) : (reply r s).mem = s.mem := rfl
@[simp] theorem reply_lat (r : Reply) (s : State) : (reply r s).lat = s.lat := rfl
@[simp] theorem reply_ext (r : Reply) (s : State) : (reply r s).ext = s.ext := rfl
@[simp] theorem reply_responses (r : Reply) (s : State) : (reply r s).responses = s.responses := rfl
@[simp] theorem reply_trace (r : Reply) (s : State) : (reply r s).trace = s.trace := rfl
@[simp] theorem reply_inputs (r : Reply) (s : State) : (reply r s).inputs = s.inputs := rfl
@[simp] theorem reply_script (r : Reply) (s : State) : (reply r s).script = s.script := rfl
@[simp] theorem reply_replies (r : Reply) (s : State) : (reply r s).replies = s.replies ++ [r] := rfl
@[simp] theorem reply_draws (r : Reply) (s : State) : (reply r s).draws = s.draws := rfl
@[simp] theorem reply_probes (r : Reply) (s : State) : (reply r s).probes = s.probes := rfl

@[simp] theorem presentNext_cfg (w : Word) (s : State) : (presentNext w s).cfg = s.cfg := rfl
@[simp] theorem presentNext_ecur (w : Word) (s : State) : (presentNext w s).ecur = s.ecur := rfl
@[simp] theorem presentNext_faulted (w : Word) (s : State) : (presentNext w s).faulted = s.faulted := rfl
@[simp] theorem presentNext_busy (w : Word) (s : State) : (presentNext w s).busy = s.busy := rfl
@[simp] theorem presentNext_bind (w : Word) (s : State) : (presentNext w s).bind = s.bind := rfl
@[simp] theorem presentNext_configured (w : Word) (s : State) : (presentNext w s).configured = s.configured := rfl
@[simp] theorem presentNext_mem (w : Word) (s : State) : (presentNext w s).mem = s.mem := rfl
@[simp] theorem presentNext_lat (w : Word) (s : State) : (presentNext w s).lat = s.lat := rfl
@[simp] theorem presentNext_ext (w : Word) (s : State) : (presentNext w s).ext = s.ext := rfl
@[simp] theorem presentNext_responses (w : Word) (s : State) : (presentNext w s).responses = s.responses := rfl
@[simp] theorem presentNext_trace (w : Word) (s : State) : (presentNext w s).trace = s.trace := rfl
@[simp] theorem presentNext_inputs (w : Word) (s : State) : (presentNext w s).inputs = .command w :: s.inputs := rfl
@[simp] theorem presentNext_script (w : Word) (s : State) : (presentNext w s).script = s.script := rfl
@[simp] theorem presentNext_replies (w : Word) (s : State) : (presentNext w s).replies = s.replies := rfl
@[simp] theorem presentNext_draws (w : Word) (s : State) : (presentNext w s).draws = s.draws := rfl
@[simp] theorem presentNext_probes (w : Word) (s : State) : (presentNext w s).probes = s.probes := rfl

@[simp] theorem setLine_cfg (p : Nat) (lvl : Level) (s : State) : (setLine p lvl s).cfg = s.cfg := by
  unfold setLine; split <;> rfl
@[simp] theorem setLine_ecur (p : Nat) (lvl : Level) (s : State) : (setLine p lvl s).ecur = s.ecur := by
  unfold setLine; split <;> rfl
@[simp] theorem setLine_faulted (p : Nat) (lvl : Level) (s : State) : (setLine p lvl s).faulted = s.faulted := by
  unfold setLine; split <;> rfl
@[simp] theorem setLine_busy (p : Nat) (lvl : Level) (s : State) : (setLine p lvl s).busy = s.busy := by
  unfold setLine; split <;> rfl
@[simp] theorem setLine_bind (p : Nat) (lvl : Level) (s : State) : (setLine p lvl s).bind = s.bind := by
  unfold setLine; split <;> rfl
@[simp] theorem setLine_configured (p : Nat) (lvl : Level) (s : State) : (setLine p lvl s).configured = s.configured := by
  unfold setLine; split <;> rfl
@[simp] theorem setLine_mem (p : Nat) (lvl : Level) (s : State) : (setLine p lvl s).mem = s.mem := by
  unfold setLine; split <;> rfl
@[simp] theorem setLine_lat (p : Nat) (lvl : Level) (s : State) : (setLine p lvl s).lat = s.lat := by
  unfold setLine; split <;> rfl
@[simp] theorem setLine_ext (p : Nat) (lvl : Level) (s : State) :
    (setLine p lvl s).ext = if p < s.cfg.numPins then setPackedBit s.ext p lvl else s.ext := by
  unfold setLine; split <;> rfl
@[simp] theorem setLine_responses (p : Nat) (lvl : Level) (s : State) : (setLine p lvl s).responses = s.responses := by
  unfold setLine; split <;> rfl
@[simp] theorem setLine_trace (p : Nat) (lvl : Level) (s : State) : (setLine p lvl s).trace = s.trace := by
  unfold setLine; split <;> rfl
@[simp] theorem setLine_inputs (p : Nat) (lvl : Level) (s : State) : (setLine p lvl s).inputs = s.inputs := by
  unfold setLine; split <;> rfl
@[simp] theorem setLine_script (p : Nat) (lvl : Level) (s : State) : (setLine p lvl s).script = s.script := by
  unfold setLine; split <;> rfl
@[simp] theorem setLine_replies (p : Nat) (lvl : Level) (s : State) : (setLine p lvl s).replies = s.replies := by
  unfold setLine; split <;> rfl
@[simp] theorem setLine_draws (p : Nat) (lvl : Level) (s : State) : (setLine p lvl s).draws = s.draws := by
  unfold setLine; split <;> rfl
@[simp] theorem setLine_probes (p : Nat) (lvl : Level) (s : State) : (setLine p lvl s).probes = s.probes := by
  unfold setLine; split <;> rfl

@[simp] theorem probePin_cfg (p : Nat) (s : State) : (probePin p s).cfg = s.cfg := by unfold probePin; split <;> rfl
@[simp] theorem probePin_ecur (p : Nat) (s : State) : (probePin p s).ecur = s.ecur := by unfold probePin; split <;> rfl
@[simp] theorem probePin_faulted (p : Nat) (s : State) : (probePin p s).faulted = s.faulted := by unfold probePin; split <;> rfl
@[simp] theorem probePin_busy (p : Nat) (s : State) : (probePin p s).busy = s.busy := by unfold probePin; split <;> rfl
@[simp] theorem probePin_bind (p : Nat) (s : State) : (probePin p s).bind = s.bind := by unfold probePin; split <;> rfl
@[simp] theorem probePin_configured (p : Nat) (s : State) : (probePin p s).configured = s.configured := by unfold probePin; split <;> rfl
@[simp] theorem probePin_mem (p : Nat) (s : State) : (probePin p s).mem = s.mem := by unfold probePin; split <;> rfl
@[simp] theorem probePin_lat (p : Nat) (s : State) : (probePin p s).lat = s.lat := by unfold probePin; split <;> rfl
@[simp] theorem probePin_ext (p : Nat) (s : State) : (probePin p s).ext = s.ext := by unfold probePin; split <;> rfl
@[simp] theorem probePin_responses (p : Nat) (s : State) : (probePin p s).responses = s.responses := by unfold probePin; split <;> rfl
@[simp] theorem probePin_trace (p : Nat) (s : State) : (probePin p s).trace = s.trace := by unfold probePin; split <;> rfl
@[simp] theorem probePin_inputs (p : Nat) (s : State) : (probePin p s).inputs = s.inputs := by unfold probePin; split <;> rfl
@[simp] theorem probePin_script (p : Nat) (s : State) : (probePin p s).script = s.script := by unfold probePin; split <;> rfl
@[simp] theorem probePin_replies (p : Nat) (s : State) : (probePin p s).replies = s.replies := by unfold probePin; split <;> rfl
@[simp] theorem probePin_draws (p : Nat) (s : State) : (probePin p s).draws = s.draws := by unfold probePin; split <;> rfl
@[simp] theorem probePin_probes (p : Nat) (s : State) :
    (probePin p s).probes = if p < s.cfg.numPins then s.probes ++ [seen p s] else s.probes := by
  unfold probePin; split <;> rfl

end Sys2Proof.Machine
end

