-- ==== Sys2Proof/Laws/Bank.lean ====
section
/-! SUPPORT. The calculator under `ConfigOK` (rules R121 to R124), the register at an offset, and what a write of the bank
does to the field and the latch of each pin (rules R62, R65, R66). -/

namespace Sys2Proof.Machine

theorem ppr_pos (f : Family) : 0 < ppr f := by cases f <;> decide

theorem mem_families (f : Family) : f ∈ families := by cases f <;> decide

/-- The clauses of `ConfigOK`, one by one (rule R13). -/
theorem configOK_numPins {cfg : Config} (ok : ConfigOK cfg) : 1 ≤ cfg.numPins ∧ cfg.numPins ≤ 65534 :=
  (of_decide_eq_true ok).1

theorem configOK_aligned {cfg : Config} (ok : ConfigOK cfg) (f : Family) : base cfg f % 4 = 0 :=
  (of_decide_eq_true ok).2.1.1 f (mem_families f)

theorem configOK_bound {cfg : Config} (ok : ConfigOK cfg) (f : Family) :
    base cfg f + 4 * nregs cfg f ≤ cfg.regionLen ∧ cfg.regionLen < 2 ^ 32 :=
  ⟨(of_decide_eq_true ok).2.2.1.1 f (mem_families f), (of_decide_eq_true ok).2.2.1.2⟩

theorem configOK_disjoint {cfg : Config} (ok : ConfigOK cfg) {f g : Family} (h : f ≠ g) :
    base cfg f + 4 * nregs cfg f ≤ base cfg g ∨ base cfg g + 4 * nregs cfg g ≤ base cfg f :=
  (of_decide_eq_true ok).2.2.2 f (mem_families f) g (mem_families g) h

theorem addressOf_offset (cfg : Config) (f : Family) (p : Nat) :
    (addressOf cfg f p).offset = base cfg f + 4 * (p / ppr f) := by simp [addressOf, Nat.mul_comm]

/-- A pin that exists lies in a register of each family. -/
theorem pin_register_lt {cfg : Config} {p : Nat} (f : Family) (hp : p < cfg.numPins) :
    p / ppr f < nregs cfg f := by
  have h := ppr_pos f
  unfold nregs
  rw [Nat.lt_iff_add_one_le, Nat.le_div_iff_mul_le h, Nat.add_mul]
  have := Nat.div_mul_le_self p (ppr f)
  omega

theorem regAt_some {cfg : Config} {off j : Nat} {f : Family} (h : regAt cfg off = some (f, j)) :
    off = base cfg f + 4 * j ∧ j < nregs cfg f := by
  unfold regAt at h
  obtain ⟨g, hg, he⟩ := Option.map_eq_some_iff.mp h
  have hp := List.find?_some hg
  replace hp := of_decide_eq_true hp
  simp only [familyEnd] at hp
  simp only [Prod.mk.injEq] at he
  obtain ⟨rfl, rfl⟩ := he
  omega

theorem regAt_inside {cfg : Config} {off j : Nat} (hf : ∃ g, off = base cfg g + 4 * j ∧ j < nregs cfg g)
    (hn : regAt cfg off = none) : False := by
  obtain ⟨g, ho, hj⟩ := hf
  unfold regAt at hn
  rw [Option.map_eq_none_iff, List.find?_eq_none] at hn
  refine hn g (mem_families g) (decide_eq_true ?_)
  simp only [familyEnd]
  omega

/-- The register at a family's offset is that family's (rule R13, clause d). -/
theorem regAt_base {cfg : Config} (ok : ConfigOK cfg) {f : Family} {j : Nat} (hj : j < nregs cfg f) :
    regAt cfg (base cfg f + 4 * j) = some (f, j) := by
  cases h : regAt cfg (base cfg f + 4 * j) with
  | none => exact (regAt_inside (j := j) ⟨f, rfl, hj⟩ h).elim
  | some r =>
    obtain ⟨g, i⟩ := r
    obtain ⟨ho, hi⟩ := regAt_some h
    by_cases hfg : f = g
    · subst hfg
      have : i = j := by omega
      rw [this]
    · have := configOK_disjoint ok hfg
      omega

theorem regAt_addressOf {cfg : Config} (ok : ConfigOK cfg) (f : Family) {p : Nat} (hp : p < cfg.numPins) :
    regAt cfg (addressOf cfg f p).offset = some (f, p / ppr f) := by
  rw [addressOf_offset]; exact regAt_base ok (pin_register_lt f hp)

/-- Under `ConfigOK` no access to a register of the four families is misaligned or out of bounds (rules R52, R53). -/
theorem offset_ok {cfg : Config} (ok : ConfigOK cfg) {f : Family} {j : Nat} (hj : j < nregs cfg f) :
    ¬ OffsetBad cfg (base cfg f + 4 * j) := by
  have h1 := configOK_aligned ok f
  have h2 := configOK_bound ok f
  omega

theorem addressOf_ok {cfg : Config} (ok : ConfigOK cfg) (f : Family) {p : Nat} (hp : p < cfg.numPins) :
    ¬ OffsetBad cfg (addressOf cfg f p).offset := by
  rw [addressOf_offset]; exact offset_ok ok (pin_register_lt f hp)

/-- The field of a pin does not cross its register's boundary (rule R124). -/
theorem bit_range (cfg : Config) (f : Family) (p : Nat) :
    (addressOf cfg f p).bitOffset + (addressOf cfg f p).bitWidth ≤ ppr f * bpp f ∧ ppr f * bpp f ≤ 32 := by
  have h := Nat.mod_lt p (ppr_pos f)
  cases f <;> simp only [addressOf, ppr, bpp] at * <;> omega

/-- Reads of the bank, by family (rules R61, R68). -/
theorem bankRead_fsel {s : State} (ok : ConfigOK s.cfg) {p : Nat} (hp : p < s.cfg.numPins) :
    bankRead (addressOf s.cfg .fsel p).offset s = .done (fselReg s (p / 10)) s := by
  simp [bankRead, regAt_addressOf ok .fsel hp, ppr]

theorem bankRead_lev {s : State} (ok : ConfigOK s.cfg) {p : Nat} (hp : p < s.cfg.numPins) :
    bankRead (addressOf s.cfg .lev p).offset s = .done (levReg s (p / 32)) (drawn s) := by
  simp [bankRead, regAt_addressOf ok .lev hp, ppr]

/-- Writes of the bank, by family (rules R62, R65, R66). -/
theorem bankWrite_fsel {s : State} (ok : ConfigOK s.cfg) {p : Nat} (hp : p < s.cfg.numPins) (v : Word) :
    bankWrite (addressOf s.cfg .fsel p).offset v s = .done () (writeFsel (p / 10) v s) := by
  simp [bankWrite, regAt_addressOf ok .fsel hp, ppr]

theorem bankWrite_set {s : State} (ok : ConfigOK s.cfg) {p : Nat} (hp : p < s.cfg.numPins) (v : Word) :
    bankWrite (addressOf s.cfg .set p).offset v s = .done () (writeSet (p / 32) v s) := by
  simp [bankWrite, regAt_addressOf ok .set hp, ppr]

theorem bankWrite_clr {s : State} (ok : ConfigOK s.cfg) {p : Nat} (hp : p < s.cfg.numPins) (v : Word) :
    bankWrite (addressOf s.cfg .clr p).offset v s = .done () (writeClr (p / 32) v s) := by
  simp [bankWrite, regAt_addressOf ok .clr hp, ppr]

/-- The level write as the bank sees it: SET or CLR by the level (rule R155). -/
def writeLevelReg : Level → Nat → Word → State → State
  | .high => writeSet
  | .low => writeClr

theorem bankWrite_level {s : State} (ok : ConfigOK s.cfg) {p : Nat} (hp : p < s.cfg.numPins) (l : Level) (v : Word) :
    bankWrite (addressOf s.cfg (levelFamily l) p).offset v s = .done () (writeLevelReg l (p / 32) v s) := by
  cases l
  · exact bankWrite_clr ok hp v
  · exact bankWrite_set ok hp v

/-- The FSEL register just written, and the others (rule R62). -/
theorem fselReg_writeFsel (s : State) (i j : Nat) (v : Word) :
    fselReg (writeFsel j v s) i = if i = j then v else fselReg s i := by
  by_cases h : i = j
  · subst h; simp [fselReg]
  · simp only [fselReg, writeFsel_mem, writeFsel_cfg, h, if_false]
    exact wordAt_setWord_other _ _ _ _ (by omega)

/-- The FSEL write of a read-modify-write gives its own pin the new field and keeps every other pin's (rules R151,
R166). -/
theorem fnField_rmw (s : State) (p q : Nat) (m : Word) (hm : ∀ j, 3 ≤ j → m.getLsbD j = false) :
    fnField (writeFsel (p / 10) (replaceField (fselReg s (p / 10)) (3 * (p % 10)) 3 m) s) q =
      if q = p then m.setWidth 3 else fnField s q := by
  unfold fnField
  rw [fselReg_writeFsel]
  by_cases hq : q = p
  · subst hq
    rw [if_pos rfl, if_pos rfl, extract_replaceField_same _ _ _ (by omega) hm]
  · rw [if_neg hq]
    by_cases hr : q / 10 = p / 10
    · rw [if_pos hr, extract_replaceField_other _ _ _ _ (by omega) (by omega) hm, hr]
    · rw [if_neg hr]

theorem getLsbD_pinBits (cfg : Config) (j b : Nat) :
    (pinBits cfg j).getLsbD b = (decide (b < 32) && decide (32 * j + b < cfg.numPins)) := by
  simp [pinBits]

theorem packedBit_setWord (m : Memory) (j p : Nat) (w : Word) :
    packedBit (setWord m (packAddr j) w) p = if p / 32 = j then w.getLsbD (p % 32) else packedBit m p := by
  unfold packedBit
  by_cases h : p / 32 = j
  · subst h; simp
  · rw [if_neg h, wordAt_setWord_other _ _ _ _ (by simp only [packAddr]; omega)]

/-- A SET write, latch by latch (rule R65). -/
theorem latch_writeSet (s : State) (j p : Nat) (v : Word) :
    latch (writeSet j v s) p = (latch s p || (decide (p / 32 = j) && v.getLsbD (p % 32) && decide (p < s.cfg.numPins))) := by
  simp only [latch, writeSet_lat, packedBit_setWord]
  by_cases h : p / 32 = j
  · subst h
    have hlt : p % 32 < 32 := by omega
    have hp : 32 * (p / 32) + p % 32 = p := by omega
    rw [if_pos rfl, decide_eq_true rfl, Bool.true_and]
    simp only [packedBit, BitVec.getLsbD_or, BitVec.getLsbD_and, getLsbD_pinBits, hp, hlt, decide_true,
      Bool.true_and]
  · simp [h]

/-- A CLR write, latch by latch (rule R66). -/
theorem latch_writeClr (s : State) (j p : Nat) (v : Word) :
    latch (writeClr j v s) p = (latch s p && !(decide (p / 32 = j) && v.getLsbD (p % 32) && decide (p < s.cfg.numPins))) := by
  simp only [latch, writeClr_lat, packedBit_setWord]
  by_cases h : p / 32 = j
  · subst h
    have hlt : p % 32 < 32 := by omega
    have hp : 32 * (p / 32) + p % 32 = p := by omega
    rw [if_pos rfl, decide_eq_true rfl, Bool.true_and]
    simp only [packedBit, BitVec.getLsbD_and, BitVec.getLsbD_not, getLsbD_pinBits, hp, hlt, decide_true,
      Bool.true_and]
  · simp [h]

/-- The level write of a pin sets that pin's latch and no other (rules R155, R166). -/
theorem latch_writeLevelReg (s : State) (p q : Nat) (l : Level) (hp : p < s.cfg.numPins) :
    latch (writeLevelReg l (p / 32) (1#32 <<< (p % 32)) s) q = if q = p then bitOfLevel l else latch s q := by
  have hlt : q % 32 < 32 := by omega
  by_cases hq : q = p
  · subst hq
    cases l <;> simp [writeLevelReg, latch_writeClr, latch_writeSet, getLsbD_single _ _ hlt, hp, bitOfLevel]
  · by_cases hr : q / 32 = p / 32
    · have : q % 32 ≠ p % 32 := by omega
      cases l <;> simp [writeLevelReg, latch_writeClr, latch_writeSet, getLsbD_single _ _ hlt, this, hq]
    · cases l <;> simp [writeLevelReg, latch_writeClr, latch_writeSet, hr, hq]

/-- An external line set by the environment, line by line. -/
theorem packedBit_setPackedBit (m : Memory) (p q : Nat) (l : Level) :
    packedBit (setPackedBit m p l) q = if q = p then bitOfLevel l else packedBit m q := by
  have hlt : q % 32 < 32 := by omega
  rw [setPackedBit, packedBit_setWord]
  by_cases hr : q / 32 = p / 32
  · rw [if_pos hr, getLsbD_replaceField_bit _ _ _ _ hlt]
    by_cases hq : q = p
    · subst hq; simp
    · have : q % 32 ≠ p % 32 := by omega
      simp [this, hq, packedBit, hr]
  · have hq : q ≠ p := by rintro rfl; exact hr rfl
    simp [hr, hq]

/-- The bit of a LEV read that belongs to a pin (rule R68). -/
theorem levReg_pin (s : State) (p : Nat) (hp : p < s.cfg.numPins) :
    (levReg s (p / 32)).getLsbD (p % 32) = level s p := by
  have hlt : p % 32 < 32 := by omega
  have he : 32 * (p / 32) + p % 32 = p := by omega
  simp only [levReg, getLsbD_wordOfBits, he, hlt, hp, decide_true, Bool.true_and, if_true]

/-- The fields of each pin rest on the configuration and the stored bytes alone. -/
theorem fnField_congr {s t : State} (hc : t.cfg = s.cfg) (hm : t.mem = s.mem) (p : Nat) : fnField t p = fnField s p := by
  simp [fnField, fselReg, hc, hm]

theorem latch_congr {s t : State} (h : t.lat = s.lat) (p : Nat) : latch t p = latch s p := by simp [latch, h]

theorem extLine_congr {s t : State} (h : t.ext = s.ext) (p : Nat) : extLine t p = extLine s p := by simp [extLine, h]

theorem level_congr {s t : State} (hc : t.cfg = s.cfg) (hm : t.mem = s.mem) (hl : t.lat = s.lat) (he : t.ext = s.ext)
    (p : Nat) : level t p = level s p := by
  simp [level, fnField_congr hc hm, latch_congr hl, extLine_congr he, hc]

end Sys2Proof.Machine
end

