-- ==== Sys2Proof/Laws/Ops.lean ====
section
/-! SUPPORT. What the shared operations can do. First, where the accesses complete, each operation's result is given in full
from the state at its first access. Then, for every bus script, `Run.Ends` says what holds however the operation ends, once
per operation. -/

namespace Sys2Proof.Machine

/-! ### What the other agents do before an access -/

/-- What a write of the bank does, under one configuration: a register of one family, or nothing the spec gives a meaning
(rules R62, R65, R66, R69). -/
theorem bankWrite_cases (cfg : Config) (off : Nat) (v : Word) :
    (∃ j, ∀ s : State, s.cfg = cfg → bankWrite off v s = .done () (writeFsel j v s))
    ∨ (∃ j, ∀ s : State, s.cfg = cfg → bankWrite off v s = .done () (writeSet j v s))
    ∨ (∃ j, ∀ s : State, s.cfg = cfg → bankWrite off v s = .done () (writeClr j v s))
    ∨ (∀ s : State, s.cfg = cfg → bankWrite off v s = .refused .offRegister) := by
  cases hr : regAt cfg off with
  | none => exact .inr (.inr (.inr fun s hc => by simp only [bankWrite, hc, hr]))
  | some r =>
    obtain ⟨f, j⟩ := r
    cases f with
    | fsel => exact .inl ⟨j, fun s hc => by simp only [bankWrite, hc, hr]⟩
    | set => exact .inr (.inl ⟨j, fun s hc => by simp only [bankWrite, hc, hr]⟩)
    | clr => exact .inr (.inr (.inl ⟨j, fun s hc => by simp only [bankWrite, hc, hr]⟩))
    | lev => exact .inr (.inr (.inr fun s hc => by simp only [bankWrite, hc, hr]))

/-- The acts of the other agents change the bank, the lines and the samples alone. -/
theorem envAct_frame {a : EnvAct} {s t : State} (h : envAct a s = .done () t) :
    t = { s with mem := t.mem, lat := t.lat, ext := t.ext, probes := t.probes } := by
  cases a with
  | line p l => injection h with _ h; subst h; unfold setLine; split <;> rfl
  | busWrite off v =>
    simp only [envAct] at h
    rcases bankWrite_cases s.cfg off v with ⟨j, hb⟩ | ⟨j, hb⟩ | ⟨j, hb⟩ | hb <;> rw [hb s rfl] at h <;>
      first | (injection h with _ h; subst h; rfl) | cases h
  | probe p => injection h with _ h; subst h; unfold probePin; split <;> rfl

theorem envActs_frame {acts : List EnvAct} {s t : State} (h : envActs acts s = .done () t) :
    t = { s with mem := t.mem, lat := t.lat, ext := t.ext, probes := t.probes } := by
  induction acts generalizing s with
  | nil => injection h with _ h; subst h; rfl
  | cons a rest ih =>
    simp only [envActs] at h
    cases ha : envAct a s with
    | done x u =>
      rw [ha] at h
      rw [ih h, envAct_frame ha]
    | _ => rw [ha] at h; cases h

/-- An act is done or, where the spec gives it no effect, refused. -/
theorem envAct_cases (a : EnvAct) (s : State) : (∃ t, envAct a s = .done () t) ∨ ∃ w, envAct a s = .refused w := by
  cases a with
  | line p l => exact .inl ⟨_, rfl⟩
  | busWrite off v =>
    rcases bankWrite_cases s.cfg off v with ⟨j, hb⟩ | ⟨j, hb⟩ | ⟨j, hb⟩ | hb
    · exact .inl ⟨_, hb s rfl⟩
    · exact .inl ⟨_, hb s rfl⟩
    · exact .inl ⟨_, hb s rfl⟩
    · exact .inr ⟨_, hb s rfl⟩
  | probe p => exact .inl ⟨_, rfl⟩

theorem envActs_cases (acts : List EnvAct) (s : State) :
    (∃ t, envActs acts s = .done () t) ∨ ∃ w, envActs acts s = .refused w := by
  induction acts generalizing s with
  | nil => exact .inl ⟨_, rfl⟩
  | cons a rest ih =>
    rcases envAct_cases a s with ⟨t, h⟩ | ⟨w, h⟩
    · simpa only [envActs, h, Run.bind] using ih t
    · exact .inr ⟨w, by simp only [envActs, h, Run.bind]⟩

/-- The coming turn's answer; the access completes where the script has run out (log 5). -/
def nextAnswer (s : State) : BusAnswer :=
  match s.script with
  | [] => .done
  | t :: _ => t.answer

/-- A turn gives its answer at the state of the access, or is refused. -/
theorem busTurn_eq (s : State) : busTurn s = .done (nextAnswer s) (atAccess s) ∨ ∃ w, busTurn s = .refused w := by
  unfold atAccess nextAnswer busTurn
  cases s.script with
  | nil => exact .inl rfl
  | cons t rest =>
    rcases envActs_cases t.before (withScript rest s) with ⟨u, h⟩ | ⟨w, h⟩
    · exact .inl (by simp only [h, Run.bind])
    · exact .inr ⟨w, by simp only [h, Run.bind]⟩

/-- The state at the next access is the state before it, but for the bank, the lines, the samples and the script. -/
theorem atAccess_frame (s : State) :
    atAccess s = { s with mem := (atAccess s).mem, lat := (atAccess s).lat, ext := (atAccess s).ext,
                          probes := (atAccess s).probes, script := s.script.tail } := by
  unfold atAccess busTurn
  cases hs : s.script with
  | nil => cases s; simp_all
  | cons t rest =>
    rcases envActs_cases t.before (withScript rest s) with ⟨u, h⟩ | ⟨w, h⟩
    · simp only [h, Run.bind]
      conv_lhs => rw [envActs_frame h]
      rfl
    · simp only [h, Run.bind]; rfl

@[simp] theorem atAccess_cfg (s : State) : (atAccess s).cfg = s.cfg := by rw [atAccess_frame]
@[simp] theorem atAccess_ecur (s : State) : (atAccess s).ecur = s.ecur := by rw [atAccess_frame]
@[simp] theorem atAccess_faulted (s : State) : (atAccess s).faulted = s.faulted := by rw [atAccess_frame]
@[simp] theorem atAccess_busy (s : State) : (atAccess s).busy = s.busy := by rw [atAccess_frame]
@[simp] theorem atAccess_bind (s : State) : (atAccess s).bind = s.bind := by rw [atAccess_frame]
@[simp] theorem atAccess_configured (s : State) : (atAccess s).configured = s.configured := by rw [atAccess_frame]
@[simp] theorem atAccess_responses (s : State) : (atAccess s).responses = s.responses := by rw [atAccess_frame]
@[simp] theorem atAccess_trace (s : State) : (atAccess s).trace = s.trace := by rw [atAccess_frame]
@[simp] theorem atAccess_inputs (s : State) : (atAccess s).inputs = s.inputs := by rw [atAccess_frame]
@[simp] theorem atAccess_script (s : State) : (atAccess s).script = s.script.tail := by rw [atAccess_frame]
@[simp] theorem atAccess_replies (s : State) : (atAccess s).replies = s.replies := by rw [atAccess_frame]
@[simp] theorem atAccess_draws (s : State) : (atAccess s).draws = s.draws := by rw [atAccess_frame]

/-- The engine and the ports as in `c`; the configuration, the bank, the lines, the samples and the script as in `s`. -/
def overlay (c s : State) : State :=
  { c with cfg := s.cfg, mem := s.mem, lat := s.lat, ext := s.ext, probes := s.probes, script := s.script }

theorem envAct_overlay (c : State) {a : EnvAct} {s t : State} (h : envAct a s = .done () t) :
    envAct a (overlay c s) = .done () (overlay c t) := by
  cases a with
  | line p l =>
    injection h with _ h; subst h
    by_cases hp : p < s.cfg.numPins <;> simp [envAct, setLine, overlay, hp]
  | busWrite off v =>
    simp only [envAct] at h ⊢
    rcases bankWrite_cases s.cfg off v with ⟨j, hb⟩ | ⟨j, hb⟩ | ⟨j, hb⟩ | hb <;> rw [hb s rfl] at h <;>
      first | (injection h with _ h; subst h; exact hb (overlay c s) rfl) | cases h
  | probe p =>
    injection h with _ h; subst h
    by_cases hp : p < s.cfg.numPins <;> simp [envAct, probePin, overlay, hp, seen, fnField, fselReg, latch]

theorem envActs_overlay (c : State) {acts : List EnvAct} {s t : State} (h : envActs acts s = .done () t) :
    envActs acts (overlay c s) = .done () (overlay c t) := by
  induction acts generalizing s with
  | nil => injection h with _ h; subst h; rfl
  | cons a rest ih =>
    rcases envAct_cases a s with ⟨u, hu⟩ | ⟨w, hw⟩
    · simp only [envActs, hu, Run.bind] at h
      simp only [envActs, envAct_overlay c hu, Run.bind, ih h]
    · simp only [envActs, hw, Run.bind] at h; cases h

theorem envActs_overlay_refused (c : State) {acts : List EnvAct} {s : State} {w : Refusal} (h : envActs acts s = .refused w) :
    ∃ w', envActs acts (overlay c s) = .refused w' := by
  rcases envActs_cases acts (overlay c s) with ⟨t, ht⟩ | hw
  · have := envActs_overlay s ht
    rw [show overlay s (overlay c s) = s from rfl, h] at this; cases this
  · exact hw

/-- What the other agents do before an access does not rest on the engine. -/
theorem atAccess_overlay (c s : State) : atAccess (overlay c s) = overlay c (atAccess s) := by
  unfold atAccess busTurn
  rw [show (overlay c s).script = s.script from rfl]
  cases hs : s.script with
  | nil => rfl
  | cons t rest =>
    simp only
    rw [show withScript rest (overlay c s) = overlay c (withScript rest s) from rfl]
    rcases envActs_cases t.before (withScript rest s) with ⟨u, h⟩ | ⟨w, h⟩
    · simp only [h, envActs_overlay c h, Run.bind]
    · obtain ⟨w', h'⟩ := envActs_overlay_refused c h
      simp only [h, h', Run.bind]; rfl

@[simp] theorem atAccess_accept (i : Instr) (s : State) : atAccess (accept i s) = accept i (atAccess s) := by
  rw [show accept i s = overlay (accept i s) s from rfl, atAccess_overlay, atAccess_frame s]; rfl

@[simp] theorem atAccess_logAccess (a : Access) (s : State) : atAccess (logAccess a s) = logAccess a (atAccess s) := by
  rw [show logAccess a s = overlay (logAccess a s) s from rfl, atAccess_overlay, atAccess_frame s]; rfl

@[simp] theorem atAccess_setTemp (t : Option Word) (s : State) : atAccess (setTemp t s) = setTemp t (atAccess s) := by
  rw [show setTemp t s = overlay (setTemp t s) s from rfl, atAccess_overlay, atAccess_frame s]; rfl

@[simp] theorem atAccess_drawn (s : State) : atAccess (drawn s) = drawn (atAccess s) := by
  rw [show drawn s = overlay (drawn s) s from rfl, atAccess_overlay, atAccess_frame s]; rfl

@[simp] theorem atAccess_respond (st : Status) (d0 d1 : Word) (s : State) :
    atAccess (respond st d0 d1 s) = respond st d0 d1 (atAccess s) := by
  rw [show respond st d0 d1 s = overlay (respond st d0 d1 s) s from rfl, atAccess_overlay, atAccess_frame s]; rfl

@[simp] theorem atAccess_withInputs (inputs : List Input) (s : State) :
    atAccess (withInputs inputs s) = withInputs inputs (atAccess s) := by
  rw [show withInputs inputs s = overlay (withInputs inputs s) s from rfl, atAccess_overlay, atAccess_frame s]; rfl

/-- Where the lines stand at the next access rests on the lines, the script and the configuration alone. -/
theorem envActs_ext {acts : List EnvAct} {s t u v : State} (he : t.ext = s.ext) (hc : t.cfg = s.cfg)
    (hs : envActs acts s = .done () u) (ht : envActs acts t = .done () v) : v.ext = u.ext := by
  induction acts generalizing s t with
  | nil => injection hs with _ hs; injection ht with _ ht; rw [← hs, ← ht, he]
  | cons a rest ih =>
    rcases envAct_cases a s with ⟨s', hs'⟩ | ⟨w, hw⟩
    · rcases envAct_cases a t with ⟨t', ht'⟩ | ⟨w, hw⟩
      · simp only [envActs, hs', Run.bind] at hs
        simp only [envActs, ht', Run.bind] at ht
        refine ih (s := s') (t := t') ?_ ?_ hs ht
        · cases a with
          | line p l => injection hs' with _ h; injection ht' with _ h'; subst h h'; simp [he, hc]
          | busWrite off v =>
            simp only [envAct] at hs' ht'
            rcases bankWrite_cases s.cfg off v with ⟨j, hb⟩ | ⟨j, hb⟩ | ⟨j, hb⟩ | hb <;> rw [hb s rfl] at hs' <;>
              rw [hb t hc] at ht' <;>
              first | (injection hs' with _ h; injection ht' with _ h'; subst h h'; exact he) | cases hs'
          | probe p => injection hs' with _ h; injection ht' with _ h'; subst h h'; simp [he]
        · rw [envAct_frame hs', envAct_frame ht']; exact hc
      · simp only [envActs, hw, Run.bind] at ht; cases ht
    · simp only [envActs, hw, Run.bind] at hs; cases hs

/-- Whether the acts are refused rests on the configuration alone. -/
theorem envAct_refused_congr {a : EnvAct} {s t : State} {w : Refusal} (hc : t.cfg = s.cfg) (h : envAct a s = .refused w) :
    envAct a t = .refused w := by
  cases a with
  | line p l => cases h
  | busWrite off v =>
    simp only [envAct] at h ⊢
    rcases bankWrite_cases s.cfg off v with ⟨j, hb⟩ | ⟨j, hb⟩ | ⟨j, hb⟩ | hb <;> rw [hb s rfl] at h <;> cases h
    exact hb t hc
  | probe p => cases h

theorem envActs_refused_congr {acts : List EnvAct} {s t : State} {w : Refusal} (hc : t.cfg = s.cfg)
    (h : envActs acts s = .refused w) : envActs acts t = .refused w := by
  induction acts generalizing s t with
  | nil => cases h
  | cons a rest ih =>
    rcases envAct_cases a s with ⟨s', hs⟩ | ⟨w', hs⟩
    · rcases envAct_cases a t with ⟨t', ht⟩ | ⟨w', ht⟩
      · simp only [envActs, hs, Run.bind] at h
        simp only [envActs, ht, Run.bind]
        exact ih (by rw [envAct_frame hs, envAct_frame ht]; exact hc) h
      · rw [envAct_refused_congr hc.symm ht] at hs; cases hs
    · simp only [envActs, hs, Run.bind] at h
      simp only [envActs, envAct_refused_congr hc hs, Run.bind, h]

theorem atAccess_ext_congr {s t : State} (he : t.ext = s.ext) (hs : t.script = s.script) (hc : t.cfg = s.cfg) :
    (atAccess t).ext = (atAccess s).ext := by
  unfold atAccess busTurn
  rw [hs]
  cases s.script with
  | nil => exact he
  | cons x rest =>
    simp only
    rcases envActs_cases x.before (withScript rest s) with ⟨u, h⟩ | ⟨w, h⟩
    · rcases envActs_cases x.before (withScript rest t) with ⟨v, h'⟩ | ⟨w', h'⟩
      · simp only [h, h', Run.bind]; exact envActs_ext (by exact he) (by exact hc) h h'
      · rw [envActs_refused_congr (t := withScript rest s) (by exact hc.symm) h'] at h; cases h
    · simp only [h, envActs_refused_congr (t := withScript rest t) (by exact hc) h, Run.bind]; exact he

/-! ### Acts that do not write the bank, or not this part of it -/

/-- No act before the next access writes the bank. -/
abbrev NextUnwritten (script : List BusTurn) : Prop := ∀ t ∈ script.head?, ∀ a ∈ t.before, isWrite a = false

theorem envActs_unwritten {acts : List EnvAct} {s t : State} (hw : ∀ a ∈ acts, isWrite a = false)
    (h : envActs acts s = .done () t) : t.mem = s.mem ∧ t.lat = s.lat := by
  induction acts generalizing s with
  | nil => injection h with _ h; subst h; exact ⟨rfl, rfl⟩
  | cons a rest ih =>
    have hr := fun b hb => hw b (List.mem_cons_of_mem a hb)
    cases a with
    | line p l =>
      have := ih hr (s := setLine p l s) h
      simpa using this
    | busWrite off v => simpa [isWrite] using hw (.busWrite off v) (by simp)
    | probe p =>
      have := ih hr (s := probePin p s) h
      simpa using this

/-- An access before which nobody writes: the lines and the samples alone may be others. -/
def passed (s : State) : State := { s with ext := (atAccess s).ext, probes := (atAccess s).probes, script := s.script.tail }

theorem atAccess_passed {s : State} (h : NextUnwritten s.script) : atAccess s = passed s := by
  have hm : (atAccess s).mem = s.mem ∧ (atAccess s).lat = s.lat := by
    unfold atAccess busTurn
    cases hs : s.script with
    | nil => exact ⟨rfl, rfl⟩
    | cons t rest =>
      simp only
      rcases envActs_cases t.before (withScript rest s) with ⟨u, hu⟩ | ⟨w, hu⟩
      · simp only [hu, Run.bind]; exact envActs_unwritten (s := withScript rest s) (h t (by simp [hs])) hu
      · simp only [hu, Run.bind]; exact ⟨rfl, rfl⟩
  rw [atAccess_frame, hm.1, hm.2]; rfl

section
variable (s : State)
@[simp] theorem passed_cfg : (passed s).cfg = s.cfg := rfl
@[simp] theorem passed_ecur : (passed s).ecur = s.ecur := rfl
@[simp] theorem passed_faulted : (passed s).faulted = s.faulted := rfl
@[simp] theorem passed_busy : (passed s).busy = s.busy := rfl
@[simp] theorem passed_bind : (passed s).bind = s.bind := rfl
@[simp] theorem passed_configured : (passed s).configured = s.configured := rfl
@[simp] theorem passed_mem : (passed s).mem = s.mem := rfl
@[simp] theorem passed_lat : (passed s).lat = s.lat := rfl
@[simp] theorem passed_ext : (passed s).ext = (atAccess s).ext := rfl
@[simp] theorem passed_responses : (passed s).responses = s.responses := rfl
@[simp] theorem passed_trace : (passed s).trace = s.trace := rfl
@[simp] theorem passed_inputs : (passed s).inputs = s.inputs := rfl
@[simp] theorem passed_script : (passed s).script = s.script.tail := rfl
@[simp] theorem passed_replies : (passed s).replies = s.replies := rfl
@[simp] theorem passed_draws : (passed s).draws = s.draws := rfl
@[simp] theorem passed_probes : (passed s).probes = (atAccess s).probes := rfl
end

/-! ### The undisturbed case -/

/-- The premises about the bus and the other agents that every claim of a result needs (rules R57, R69). -/
abbrev Answers (s : State) : Prop := AccessesComplete s ∧ WritesDefined s

/-- They speak of the configuration and the script alone, and of every later part of it. -/
theorem Answers.of_drop {s t : State} (k : Nat) (h : Answers s) (hc : t.cfg = s.cfg) (hs : t.script = s.script.drop k) :
    Answers t :=
  ⟨fun x hx => h.1 x (List.mem_of_mem_drop (hs ▸ hx)), fun x hx => hc ▸ h.2 x (List.mem_of_mem_drop (hs ▸ hx))⟩

theorem Answers.of_script {s t : State} (h : Answers s) (hc : t.cfg = s.cfg) (hs : t.script = s.script) : Answers t :=
  h.of_drop 0 hc hs

theorem Answers.of_tail {s t : State} (h : Answers s) (hc : t.cfg = s.cfg) (hs : t.script = s.script.tail) : Answers t :=
  h.of_drop 1 hc (by rw [hs, List.drop_one])

/-- An act the spec gives an effect is done (rule R69). -/
theorem envAct_defined {s : State} (ok : ConfigOK s.cfg) {a : EnvAct} (h : actDefined s.cfg a = true) :
    ∃ t, envAct a s = .done () t := by
  cases a with
  | line p l => exact ⟨_, rfl⟩
  | busWrite off v =>
    rcases of_decide_eq_true h with ⟨j, hj, rfl⟩ | ⟨j, hj, rfl⟩ | ⟨j, hj, rfl⟩ <;>
      simp only [envAct, bankWrite, regAt_base ok hj] <;> exact ⟨_, rfl⟩
  | probe p => exact ⟨_, rfl⟩

theorem envActs_defined {acts : List EnvAct} {s : State} (ok : ConfigOK s.cfg)
    (h : ∀ a ∈ acts, actDefined s.cfg a = true) : ∃ t, envActs acts s = .done () t := by
  induction acts generalizing s with
  | nil => exact ⟨_, rfl⟩
  | cons a rest ih =>
    obtain ⟨t, ht⟩ := envAct_defined ok (h a (by simp))
    have hc : t.cfg = s.cfg := by rw [envAct_frame ht]
    obtain ⟨u, hu⟩ := ih (s := t) (by rw [hc]; exact ok) (fun b hb => by rw [hc]; exact h b (by simp [hb]))
    exact ⟨u, by simp only [envActs, ht, Run.bind, hu]⟩

/-- The next access completes, after acts that the spec gives an effect. -/
abbrev Completes (s : State) : Prop := busTurn s = .done .done (atAccess s)

/-- The coming turn, if the script has one, lets the access complete after acts that the spec gives an effect. -/
abbrev TurnAnswers (cfg : Config) (script : List BusTurn) : Prop :=
  ∀ t ∈ script.head?, t.answer = .done ∧ ∀ a ∈ t.before, actDefined cfg a = true

theorem completes_of_turn {s : State} (ok : ConfigOK s.cfg) (h : TurnAnswers s.cfg s.script) : Completes s := by
  rcases busTurn_eq s with he | ⟨w, he⟩
  · rw [Completes, he]
    congr 1
    unfold nextAnswer
    split
    · rfl
    · exact (h _ (by simp [*])).1
  · exfalso
    unfold busTurn at he
    split at he
    · cases he
    · rename_i t rest hs
      obtain ⟨u, hu⟩ := envActs_defined (s := withScript rest s) ok (h t (by simp [hs])).2
      rw [hu] at he; cases he

theorem Answers.turn {s : State} (h : Answers s) : TurnAnswers s.cfg s.script :=
  fun t ht => ⟨h.1 t (List.mem_of_mem_head? ht), h.2 t (List.mem_of_mem_head? ht)⟩

theorem busTurn_answers {s : State} (ok : ConfigOK s.cfg) (h : Answers s) : Completes s := completes_of_turn ok h.turn

/-- So does one that is answered `done`, where no act before it writes the bank. -/
theorem completes_unwritten {s : State} (ha : nextAnswer s = .done) (hw : NextUnwritten s.script) : Completes s := by
  rcases busTurn_eq s with he | ⟨w, he⟩
  · rw [Completes, he, ha]
  · exfalso
    have key : ∀ (acts : List EnvAct) (s : State), (∀ a ∈ acts, isWrite a = false) → ∃ t, envActs acts s = .done () t := by
      intro acts
      induction acts with
      | nil => exact fun s _ => ⟨s, rfl⟩
      | cons a rest ih =>
        intro s h
        have hr := fun b hb => h b (List.mem_cons_of_mem a hb)
        cases a with
        | line p l => exact ih (setLine p l s) hr
        | busWrite off v => simpa [isWrite] using h (.busWrite off v) (by simp)
        | probe p => exact ih (probePin p s) hr
    unfold busTurn at he
    split at he
    · cases he
    · rename_i t rest hs
      obtain ⟨u, hu⟩ := key t.before (withScript rest s) (hw t (by simp [hs]))
      rw [hu] at he; cases he

variable {s : State} {p : Nat}

/-- `read32` of the FSEL register of a pin (rules R61, R137). -/
theorem memRead_fsel (ok : ConfigOK s.cfg) (h : Completes s) (hp : p < s.cfg.numPins) :
    memRead (addressOf s.cfg .fsel p).offset s =
      .done (fselReg (atAccess s) (p / 10))
        (logAccess (.rd (addressOf s.cfg .fsel p).offset (fselReg (atAccess s) (p / 10))) (atAccess s)) := by
  have hr := bankRead_fsel (s := atAccess s) (by simpa using ok) (p := p) (by simpa using hp)
  simp only [atAccess_cfg] at hr
  simp only [memRead, if_neg (addressOf_ok ok .fsel hp), h, Run.bind, hr]

/-- `read32` of the LEV register of a pin (rules R68, R137). -/
theorem memRead_lev (ok : ConfigOK s.cfg) (h : Completes s) (hp : p < s.cfg.numPins) :
    memRead (addressOf s.cfg .lev p).offset s =
      .done (levReg (atAccess s) (p / 32))
        (logAccess (.rd (addressOf s.cfg .lev p).offset (levReg (atAccess s) (p / 32)))
          (drawn (atAccess s))) := by
  have hr := bankRead_lev (s := atAccess s) (by simpa using ok) (p := p) (by simpa using hp)
  simp only [atAccess_cfg] at hr
  simp only [memRead, if_neg (addressOf_ok ok .lev hp), h, Run.bind, hr]

/-- `write32` of the FSEL register of a pin (rules R62, R138). -/
theorem memWrite_fsel (ok : ConfigOK s.cfg) (h : Completes s) (hp : p < s.cfg.numPins) (v : Word) :
    memWrite (addressOf s.cfg .fsel p).offset v s =
      .done () (logAccess (.wr (addressOf s.cfg .fsel p).offset v) (writeFsel (p / 10) v (atAccess s))) := by
  have hw := bankWrite_fsel (s := atAccess s) (by simpa using ok) (p := p) (by simpa using hp) v
  simp only [atAccess_cfg] at hw
  simp only [memWrite, if_neg (addressOf_ok ok .fsel hp), h, Run.bind, hw]

/-- The state after the level write, from the state at its access (rule R155). -/
def levelDone (p : Nat) (l : Level) (u : State) : State :=
  logAccess (.wr (addressOf u.cfg (levelFamily l) p).offset (1#32 <<< (p % 32)))
    (writeLevelReg l (p / 32) (1#32 <<< (p % 32)) u)

/-- The level write of a pin in range (rule R155). -/
theorem levelWrite_done (ok : ConfigOK s.cfg) (h : Completes s) (hp : p < s.cfg.numPins) (l : Level) :
    levelWrite p l s = .done () (levelDone p l (atAccess s)) := by
  have hb : (addressOf s.cfg (levelFamily l) p).bitOffset = p % 32 := by cases l <;> simp [levelFamily, addressOf, ppr, bpp]
  have hw := bankWrite_level (s := atAccess s) (by simpa using ok) (p := p) (by simpa using hp) l (1#32 <<< (p % 32))
  simp only [atAccess_cfg] at hw
  simp only [levelWrite, memWrite, hb, if_neg (addressOf_ok ok _ hp), h, Run.bind, hw, levelDone,
    atAccess_cfg]

theorem levelWrite_answers (ok : ConfigOK s.cfg) (h : Answers s) (hp : p < s.cfg.numPins) (l : Level) :
    levelWrite p l s = .done () (levelDone p l (atAccess s)) := levelWrite_done ok (busTurn_answers ok h) hp l

/-- The state between the read and the write-back of a read-modify-write: `T` holds the register (rule R151). -/
def rmwRead (p : Nat) (u : State) : State :=
  setTemp (some (fselReg u (p / 10))) (logAccess (.rd (addressOf u.cfg .fsel p).offset (fselReg u (p / 10))) u)

/-- The word a read-modify-write writes back (rule R151). -/
def rmwWord (p : Nat) (m : Word) (u : State) : Word := replaceField (fselReg u (p / 10)) (3 * (p % 10)) 3 m

/-- The state after an FSEL read-modify-write, from the states at its two accesses (rules R77, R151). -/
def rmwWritten (p : Nat) (m : Word) (u w : State) : State :=
  setTemp none (logAccess (.wr (addressOf u.cfg .fsel p).offset (rmwWord p m u)) (writeFsel (p / 10) (rmwWord p m u) w))

/-- The same where nobody writes between the two accesses (rule R80). -/
def rmwDone (p : Nat) (m : Word) (u : State) : State := rmwWritten p m u (passed (rmwRead p u))

theorem fselRmw_done (ok : ConfigOK s.cfg) (h : Completes s) (h' : Completes (rmwRead p (atAccess s)))
    (hp : p < s.cfg.numPins) (m : Word) :
    fselRmw p m s = .done () (rmwWritten p m (atAccess s) (atAccess (rmwRead p (atAccess s)))) := by
  have hb : (addressOf s.cfg .fsel p).bitOffset = 3 * (p % 10) := by simp [addressOf, ppr, bpp, Nat.mul_comm]
  unfold fselRmw
  rw [memRead_fsel ok h hp]
  simp only [Run.bind, logAccess_cfg, atAccess_cfg, hb]
  have := memWrite_fsel (s := rmwRead p (atAccess s)) (by simpa [rmwRead] using ok) h' (p := p) (by simpa [rmwRead] using hp) (rmwWord p m (atAccess s))
  simp only [rmwRead, rmwWord, setTemp_cfg, logAccess_cfg, atAccess_cfg] at this
  simp only [this, rmwWritten, rmwRead, rmwWord, atAccess_cfg]

theorem fselRmw_turns (ok : ConfigOK s.cfg) (h : TurnAnswers s.cfg s.script) (h' : TurnAnswers s.cfg s.script.tail)
    (hp : p < s.cfg.numPins) (m : Word) :
    fselRmw p m s = .done () (rmwWritten p m (atAccess s) (atAccess (rmwRead p (atAccess s)))) :=
  fselRmw_done ok (completes_of_turn ok h)
    (completes_of_turn (by simpa [rmwRead] using ok) (by simpa [rmwRead] using h')) hp m

/-- The state after a read of FSEL, and of LEV, from the state at the access (rules R162, R165). -/
def fselDone (p : Nat) (u : State) : State :=
  logAccess (.rd (addressOf u.cfg .fsel p).offset (fselReg u (p / 10))) u

def levDone (p : Nat) (u : State) : State :=
  logAccess (.rd (addressOf u.cfg .lev p).offset (levReg u (p / 32))) (drawn u)

/-- One field read from FSEL: the raw field at the access (rule R162). -/
theorem readPinField_fsel (ok : ConfigOK s.cfg) (h : Completes s) (hp : p < s.cfg.numPins) :
    readPinField .fsel p s = .done ((fnField (atAccess s) p).setWidth 32) (fselDone p (atAccess s)) := by
  have hb : (addressOf s.cfg .fsel p).bitOffset = 3 * (p % 10) := by simp [addressOf, ppr, bpp, Nat.mul_comm]
  have hw : (addressOf s.cfg .fsel p).bitWidth = 3 := rfl
  simp [readPinField, memRead_fsel ok h hp, Run.bind, hb, hw, extractField_three, fnField, fselDone]

/-- The level bit as a response carries it (rule R94). -/
def levelWord (b : Bool) : Word := if b then 1#32 else 0#32

/-- One bit read from LEV: the level at the instant of the access (rules R68, R165). -/
theorem readPinField_lev (ok : ConfigOK s.cfg) (h : Completes s) (hp : p < s.cfg.numPins) :
    readPinField .lev p s = .done (levelWord (level (atAccess s) p)) (levDone p (atAccess s)) := by
  have hb : (addressOf s.cfg .lev p).bitOffset = p % 32 := by simp [addressOf, ppr, bpp]
  have hw : (addressOf s.cfg .lev p).bitWidth = 1 := rfl
  have hl := levReg_pin (atAccess s) p (by simpa using hp)
  simp only [readPinField, memRead_lev ok h hp, Run.bind, logAccess_cfg, drawn_cfg, atAccess_cfg, hb, hw, extractField_bit, hl,
    levelWord, levDone]

/-- A command in a state that is ready (rule R90). -/
theorem command_ready {s : State} (h : Ready s) (i : Instr) (body : State → Run (Word × Word)) :
    command i s body = finish (body (accept i s)) := by
  obtain ⟨h1, h2, h3⟩ := h
  simp [command, ifReady, h1, h2, h3]

theorem ifReady_ready {s : State} (h : Ready s) (go : Result) : ifReady s go = go := by
  obtain ⟨h1, h2, h3⟩ := h
  simp [ifReady, h1, h2, h3]

/-- What an answered next state says of readiness. -/
theorem ifReady_next {s t : State} {go : Result} (h : ifReady s go = .next t) : Ready s ∧ go = .next t := by
  unfold ifReady at h
  split at h
  · cases h
  · split at h
    · cases h
    · split at h
      · cases h
      · rename_i h1 h2 h3
        exact ⟨⟨by simpa using h1, by simpa using h2, by simpa using h3⟩, h⟩

theorem checkPin_ok {s : State} {p : Nat} (hp : p < s.cfg.numPins) : checkPin p s = .done () s := by
  simp [checkPin, hp]

theorem checkPin_out {s : State} {p : Nat} (hp : s.cfg.numPins ≤ p) : checkPin p s = .raised .outOfRange s := by
  simp [checkPin, hp]

/-! ### Every bus script -/

/-- However the operation ends: `D` holds of the state where it goes on, `R` where it raised an error, `Q` where reset
abandoned it. -/
def Run.Ends {α : Type} (D R Q : State → Prop) : Run α → Prop
  | .done _ s => D s
  | .raised _ s => R s
  | .abandoned s => Q s
  | .refused _ => True
  | .stuck _ => True

theorem Run.Ends.bind {α β : Type} {P D R Q : State → Prop} {r : Run α} {k : α → State → Run β} (h : r.Ends P R Q)
    (hk : ∀ a s, P s → (k a s).Ends D R Q) :
    (r.bind k).Ends D R Q := by
  cases r with
  | done a s => exact hk a s h
  | raised e s => exact h
  | abandoned s => exact h
  | refused w => trivial
  | stuck f => trivial

variable {P Q : State → Prop}

/-- A turn of the bus script keeps `P`, and so do the draw of a free word and the RMW temporary; and where reset may arrive,
`P` gives `Q`. -/
structure Kept (P Q : State → Prop) : Prop where
  turn : ∀ s t rest, s.script = t :: rest → P s → (envActs t.before (withScript rest s)).Ends P P Q
  draw : ∀ s, P s → P (drawn s)
  temp : ∀ t s, P s → P (setTemp t s)
  reset : (∀ s, P s → Q s) ∨ ∀ s, P s → NoReset s

/-- `P` is kept by whatever any agent does to the bank, the lines and the script. -/
structure Closed (P : State → Prop) : Prop where
  line : ∀ p l s, P s → P (setLine p l s)
  probe : ∀ p s, P s → P (probePin p s)
  fsel : ∀ j v s, P s → P (writeFsel j v s)
  set : ∀ j v s, P s → P (writeSet j v s)
  clr : ∀ j v s, P s → P (writeClr j v s)
  draw : ∀ s, P s → P (drawn s)
  script : ∀ t rest s, s.script = t :: rest → P s → P (withScript rest s)
  temp : ∀ t s, P s → P (setTemp t s)

theorem Closed.bankWrite (hc : Closed P) (off : Nat) (v : Word) {s : State} (h : P s) : (bankWrite off v s).Ends P P Q := by
  unfold Machine.bankWrite
  split
  · exact hc.fsel _ _ _ h
  · exact hc.set _ _ _ h
  · exact hc.clr _ _ _ h
  · trivial
  · trivial

theorem Closed.envActs (hc : Closed P) (acts : List EnvAct) {s : State} (h : P s) : (envActs acts s).Ends P P Q := by
  induction acts generalizing s with
  | nil => exact h
  | cons a rest ih =>
    refine Run.Ends.bind ?_ fun _ _ h => ih h
    cases a with
    | line p l => exact hc.line _ _ _ h
    | busWrite off v => exact hc.bankWrite off v h
    | probe p => exact hc.probe _ _ h

theorem Closed.kept (hc : Closed P) (hQ : (∀ s, P s → Q s) ∨ ∀ s, P s → NoReset s) : Kept P Q :=
  ⟨fun s t rest hs h => hc.envActs _ (hc.script t rest s hs h), hc.draw, hc.temp, hQ⟩

theorem bankRead_ends (hk : Kept P Q) (off : Nat) {s : State} (h : P s) : (bankRead off s).Ends P P Q := by
  unfold bankRead
  split
  · exact h
  · exact hk.draw _ h
  · exact hk.draw _ h
  · exact hk.draw _ h
  · trivial

/-- What the bus answers leaves `P`, and a reset answer is one `Q` allows. -/
theorem busTurn_cases (hk : Kept P Q) {s : State} (h : P s) {β : Type} {k : BusAnswer → State → Run β}
    (hcont : ∀ a s, P s → (a = .reset ∨ a = .doneThenReset → ∀ s, P s → Q s) → (k a s).Ends P P Q) :
    ((busTurn s).bind k).Ends P P Q := by
  cases hs : s.script with
  | nil =>
    have ht : busTurn s = .done .done s := by unfold busTurn; rw [hs]
    rw [ht]
    exact hcont _ _ h (by rintro (h | h) <;> cases h)
  | cons t rest =>
    have ht : busTurn s = (envActs t.before (withScript rest s)).bind fun _ s => .done t.answer s := by
      unfold busTurn; rw [hs]
    rw [ht]
    have hreset : t.answer = .reset ∨ t.answer = .doneThenReset → ∀ s, P s → Q s := by
      intro hr
      rcases hk.reset with hQ | hQ
      · exact hQ
      · have := hQ s h t (by simp [hs])
        rcases hr with hr | hr
        · exact (this.1 hr).elim
        · exact (this.2 hr).elim
    have he : (envActs t.before (withScript rest s)).Ends P P Q := hk.turn s t rest hs h
    cases hr : envActs t.before (withScript rest s) with
    | done a s' => rw [hr] at he; exact hcont _ _ he hreset
    | raised e s' => rw [hr] at he; exact he
    | abandoned s' => rw [hr] at he; exact he
    | refused w => exact trivial
    | stuck f => exact trivial

theorem memRead_ends (hk : Kept P Q) {off : Nat} (hlog : ∀ v s, P s → P (logAccess (.rd off v) s)) {s : State} (h : P s) :
    (memRead off s).Ends P P Q := by
  unfold memRead
  split
  · exact h
  · refine busTurn_cases hk h fun a s h hreset => ?_
    cases a with
    | done => exact (bankRead_ends hk off h).bind fun v s h => hlog v s h
    | fault b => exact h
    | reset => exact hreset (.inl rfl) s h
    | doneThenReset => exact (bankRead_ends hk off h).bind fun v s h => hreset (.inr rfl) _ (hlog v s h)

theorem memWrite_ends (hk : Kept P Q) {off : Nat} {v : Word} (hw : ∀ s, P s → (bankWrite off v s).Ends P P Q)
    (hlog : ∀ s, P s → P (logAccess (.wr off v) s)) {s : State} (h : P s) : (memWrite off v s).Ends P P Q := by
  unfold memWrite
  split
  · exact h
  · refine busTurn_cases hk h fun a s h hreset => ?_
    cases a with
    | done => exact (hw s h).bind fun _ s h => hlog s h
    | fault b =>
      cases b with
      | true => exact (hw s h).bind fun _ s h => h
      | false => exact h
    | reset => exact hreset (.inl rfl) s h
    | doneThenReset => exact (hw s h).bind fun _ s h => hreset (.inr rfl) _ (hlog s h)

/-- However a read ends, the bank is that at its access (rules R61, R68); where it goes on, the access completed. -/
theorem memRead_bank {R : Memory → Memory → Prop} {off : Nat} {s : State} (hoff : ¬ OffsetBad s.cfg off)
    (h : R (atAccess s).mem (atAccess s).lat) :
    (memRead off s).Ends (fun u => nextAnswer s = .done ∧ u.script = s.script.tail ∧ u.cfg = s.cfg ∧ R u.mem u.lat)
      (fun u => R u.mem u.lat) (fun u => R u.mem u.lat) := by
  have hb : (∃ v u, bankRead off (atAccess s) = .done v u ∧ (u = atAccess s ∨ u = drawn (atAccess s)))
      ∨ ∃ w, bankRead off (atAccess s) = .refused w := by
    unfold bankRead; split
    · exact .inl ⟨_, _, rfl, .inl rfl⟩
    · exact .inl ⟨_, _, rfl, .inr rfl⟩
    · exact .inl ⟨_, _, rfl, .inr rfl⟩
    · exact .inl ⟨_, _, rfl, .inr rfl⟩
    · exact .inr ⟨_, rfl⟩
  simp only [memRead, if_neg hoff]
  rcases busTurn_eq s with he | ⟨w, he⟩ <;> rw [he] <;> simp only [Run.bind]
  · cases hn : nextAnswer s with
    | done => rcases hb with ⟨v, u, hv, rfl | rfl⟩ | ⟨w, hv⟩ <;> rw [hv] <;> simp [Run.Ends, h]
    | fault b => exact h
    | reset => exact h
    | doneThenReset => rcases hb with ⟨v, u, hv, rfl | rfl⟩ | ⟨w, hv⟩ <;> rw [hv] <;> simp [Run.Ends, h]
  · trivial

/-- However a write ends, the bank is that at its access, or that with the one write done (rules R62, R65, R66, R139). -/
theorem memWrite_bank {R : Memory → Memory → Prop} {off : Nat} {v : Word} {s : State} (hoff : ¬ OffsetBad s.cfg off)
    (h : R (atAccess s).mem (atAccess s).lat) (hw : ∀ w, bankWrite off v (atAccess s) = .done () w → R w.mem w.lat) :
    (memWrite off v s).Ends (fun u => nextAnswer s = .done ∧ u.script = s.script.tail ∧ u.cfg = s.cfg ∧ R u.mem u.lat)
      (fun u => R u.mem u.lat) (fun u => R u.mem u.lat) := by
  simp only [memWrite, if_neg hoff]
  rcases busTurn_eq s with he | ⟨w, he⟩ <;> rw [he] <;> simp only [Run.bind]
  · have hcases : (∃ w, bankWrite off v (atAccess s) = .done () w) ∨ ∃ w, bankWrite off v (atAccess s) = .refused w :=
      envAct_cases (.busWrite off v) (atAccess s)
    rcases hcases with ⟨w, hb⟩ | ⟨w, hb⟩
    · have hR := hw w hb
      have hf : w.script = s.script.tail ∧ w.cfg = s.cfg := by
        rw [envAct_frame (a := .busWrite off v) hb]; simp
      cases hn : nextAnswer s with
      | done => rw [hb]; simp [Run.Ends, hR, hf.1, hf.2]
      | fault b => cases b <;> simp [hb, Run.Ends, hR, h]
      | reset => exact h
      | doneThenReset => rw [hb]; simp [Run.Ends, hR]
    · cases hn : nextAnswer s with
      | done => rw [hb]; trivial
      | fault b => cases b <;> simp [hb, Run.Ends, h]
      | reset => exact h
      | doneThenReset => rw [hb]; trivial
  · trivial

/-- `P` is kept by the entry of an access of the engine in the trace (rule R55). -/
abbrev LogsEngine (P : State → Prop) : Prop := ∀ a s, EngineAccess s.cfg a → P s → P (logAccess a s)

/-- `P` fixes the configuration. -/
abbrev FixesConfig (P : State → Prop) (cfg : Config) : Prop := ∀ s, P s → s.cfg = cfg

/-- The writes a command can make: where, and what (rules R151, R155). -/
def Stores (cfg : Config) (i : Instr) (off : Nat) (v : Word) : Prop :=
  match i with
  | .addr _ _ => False
  | .cfgin p => off = (addressOf cfg .fsel p).offset
  | .cfgout p l => off = (addressOf cfg .fsel p).offset ∨
      (off = (addressOf cfg (levelFamily l) p).offset ∧ v = 1#32 <<< (p % 32))
  | .setlv p l => off = (addressOf cfg (levelFamily l) p).offset ∧ v = 1#32 <<< (p % 32)
  | .rdfn _ => False
  | .rdlv _ => False
  | .enext => False

/-- `P` is kept by the writes of a command to the registers of a pin that exists. -/
abbrev StoresKept (P Q : State → Prop) (cfg : Config) (i : Instr) : Prop :=
  ∀ off v s, Stores cfg i off v → i.pin < cfg.numPins → P s → (bankWrite off v s).Ends P P Q

theorem isRegister_addressOf (cfg : Config) (f : Family) {p : Nat} (hp : p < cfg.numPins) :
    IsRegister cfg f (addressOf cfg f p).offset := ⟨p / ppr f, pin_register_lt f hp, addressOf_offset cfg f p⟩

theorem checkPin_ends {D : State → Prop} (p : Nat) {s : State} (h : P s) {β : Type} {k : Unit → State → Run β}
    (hk : p < s.cfg.numPins → (k () s).Ends D P Q) : ((checkPin p s).bind k).Ends D P Q := by
  unfold checkPin
  split
  · exact h
  · exact hk (by omega)

theorem fselRmw_ends (hk : Kept P Q) (hl : LogsEngine P) {cfg : Config} (hf : FixesConfig P cfg) {p : Nat}
    (hp : p < cfg.numPins) (m : Word)
    (hw : ∀ v s, P s → (bankWrite (addressOf cfg .fsel p).offset v s).Ends P P Q) {s : State} (h : P s) :
    (fselRmw p m s).Ends P P Q := by
  unfold fselRmw
  have hr := isRegister_addressOf cfg .fsel hp
  rw [hf s h]
  refine (memRead_ends hk (fun v t ht => hl _ _ (by rw [hf t ht]; exact .inl hr) ht) h).bind fun t s' h' => ?_
  rw [hf s' h']
  exact (memWrite_ends hk (hw _) (fun t ht => hl _ _ (by rw [hf t ht]; exact .inl hr) ht) (hk.temp _ _ h')).bind
    fun _ s'' h'' => hk.temp _ _ h''

theorem levelWrite_ends (hk : Kept P Q) (hl : LogsEngine P) {cfg : Config} (hf : FixesConfig P cfg) {p : Nat}
    (hp : p < cfg.numPins) (l : Level)
    (hw : ∀ s, P s → (bankWrite (addressOf cfg (levelFamily l) p).offset (1#32 <<< (p % 32)) s).Ends P P Q) {s : State}
    (h : P s) : (levelWrite p l s).Ends P P Q := by
  unfold levelWrite
  have hb : (addressOf cfg (levelFamily l) p).bitOffset = p % 32 := by cases l <;> simp [levelFamily, addressOf, ppr, bpp]
  rw [hf s h, hb]
  refine memWrite_ends hk hw (fun t ht => hl _ _ ?_ ht) h
  rw [hf t ht]
  have hr := isRegister_addressOf cfg (levelFamily l) hp
  cases l
  · exact .inr (.inr hr)
  · exact .inr (.inl hr)

theorem readPinField_ends (hk : Kept P Q) (hl : LogsEngine P) {cfg : Config} (hf : FixesConfig P cfg) {f : Family}
    (hfam : f = .fsel ∨ f = .lev) {p : Nat} (hp : p < cfg.numPins) {s : State} (h : P s) :
    (readPinField f p s).Ends P P Q := by
  unfold readPinField
  rw [hf s h]
  refine (memRead_ends hk (fun v t ht => hl _ _ ?_ ht) h).bind fun v s' h' => h'
  rw [hf t ht]
  rcases hfam with rfl | rfl
  · exact .inl (isRegister_addressOf cfg .fsel hp)
  · exact .inr (isRegister_addressOf cfg .lev hp)

end Sys2Proof.Machine
end

