-- ==== Sys2Proof/Laws/Undisturbed.lean ====
section
/-! SUPPORT. The state after each command when every access completes, the other agents' acts have an effect in the spec and
the host serializes (the premises of rules R57, R69 and R80): one closed form per command, from the state at its first access,
and the fields of the intermediate states. -/

namespace Sys2Proof.Machine

theorem fselReg_congr {s t : State} (hc : t.cfg = s.cfg) (hm : t.mem = s.mem) (j : Nat) : fselReg t j = fselReg s j := by
  simp [fselReg, hc, hm]

/-- The replacement of a 3-bit field, with the mask written out (rule R151). -/
theorem replaceField_three (v m : Word) (bo : Nat) :
    replaceField v bo 3 m = (v &&& ~~~(0b111#32 <<< bo)) ||| (m <<< bo) := by simp [replaceField, fieldMask]

/-- A level write of the bank touches the latches alone. -/
theorem writeLevelReg_frame (l : Level) (j : Nat) (v : Word) (s : State) :
    writeLevelReg l j v s = { s with lat := (writeLevelReg l j v s).lat } := by cases l <;> rfl

section
variable (l : Level) (j : Nat) (v : Word) (s : State)

@[simp] theorem writeLevelReg_cfg : (writeLevelReg l j v s).cfg = s.cfg := by cases l <;> rfl
@[simp] theorem writeLevelReg_ecur : (writeLevelReg l j v s).ecur = s.ecur := by cases l <;> rfl
@[simp] theorem writeLevelReg_faulted : (writeLevelReg l j v s).faulted = s.faulted := by cases l <;> rfl
@[simp] theorem writeLevelReg_busy : (writeLevelReg l j v s).busy = s.busy := by cases l <;> rfl
@[simp] theorem writeLevelReg_bind : (writeLevelReg l j v s).bind = s.bind := by cases l <;> rfl
@[simp] theorem writeLevelReg_configured : (writeLevelReg l j v s).configured = s.configured := by cases l <;> rfl
@[simp] theorem writeLevelReg_mem : (writeLevelReg l j v s).mem = s.mem := by cases l <;> rfl
@[simp] theorem writeLevelReg_ext : (writeLevelReg l j v s).ext = s.ext := by cases l <;> rfl
@[simp] theorem writeLevelReg_responses : (writeLevelReg l j v s).responses = s.responses := by cases l <;> rfl
@[simp] theorem writeLevelReg_trace : (writeLevelReg l j v s).trace = s.trace := by cases l <;> rfl
@[simp] theorem writeLevelReg_inputs : (writeLevelReg l j v s).inputs = s.inputs := by cases l <;> rfl
@[simp] theorem writeLevelReg_script : (writeLevelReg l j v s).script = s.script := by cases l <;> rfl
@[simp] theorem writeLevelReg_replies : (writeLevelReg l j v s).replies = s.replies := by cases l <;> rfl
@[simp] theorem writeLevelReg_draws : (writeLevelReg l j v s).draws = s.draws := by cases l <;> rfl
@[simp] theorem writeLevelReg_probes : (writeLevelReg l j v s).probes = s.probes := by cases l <;> rfl
end

/-! ### The intermediate states, field by field -/

section
variable (p : Nat) (s : State)

@[simp] theorem rmwRead_cfg : (rmwRead p s).cfg = s.cfg := by simp [rmwRead]
@[simp] theorem rmwRead_ecur : (rmwRead p s).ecur = s.ecur := by simp [rmwRead]
@[simp] theorem rmwRead_faulted : (rmwRead p s).faulted = s.faulted := by simp [rmwRead]
@[simp] theorem rmwRead_bind : (rmwRead p s).bind = s.bind := by simp [rmwRead]
@[simp] theorem rmwRead_configured : (rmwRead p s).configured = s.configured := by simp [rmwRead]
@[simp] theorem rmwRead_mem : (rmwRead p s).mem = s.mem := by simp [rmwRead]
@[simp] theorem rmwRead_lat : (rmwRead p s).lat = s.lat := by simp [rmwRead]
@[simp] theorem rmwRead_ext : (rmwRead p s).ext = s.ext := by simp [rmwRead]
@[simp] theorem rmwRead_responses : (rmwRead p s).responses = s.responses := by simp [rmwRead]
@[simp] theorem rmwRead_trace : (rmwRead p s).trace = s.trace ++ [.rd (addressOf s.cfg .fsel p).offset (fselReg s (p / 10))] := by simp [rmwRead]
@[simp] theorem rmwRead_inputs : (rmwRead p s).inputs = s.inputs := by simp [rmwRead]
@[simp] theorem rmwRead_script : (rmwRead p s).script = s.script := by simp [rmwRead]
@[simp] theorem rmwRead_replies : (rmwRead p s).replies = s.replies := by simp [rmwRead]
@[simp] theorem rmwRead_draws : (rmwRead p s).draws = s.draws := by simp [rmwRead]
@[simp] theorem rmwRead_probes : (rmwRead p s).probes = s.probes := by simp [rmwRead]
end

@[simp] theorem atAccess_rmwRead_ext (p : Nat) (s : State) : (atAccess (rmwRead p s)).ext = (atAccess s).ext := by
  simp [rmwRead]

section
variable (p : Nat) (m : Word) (s t : State)

@[simp] theorem rmwWritten_cfg : (rmwWritten p m s t).cfg = t.cfg := by simp [rmwWritten]
@[simp] theorem rmwWritten_ecur : (rmwWritten p m s t).ecur = t.ecur := by simp [rmwWritten]
@[simp] theorem rmwWritten_faulted : (rmwWritten p m s t).faulted = t.faulted := by simp [rmwWritten]
@[simp] theorem rmwWritten_bind : (rmwWritten p m s t).bind = t.bind := by simp [rmwWritten]
@[simp] theorem rmwWritten_configured : (rmwWritten p m s t).configured = t.configured := by simp [rmwWritten]
@[simp] theorem rmwWritten_responses : (rmwWritten p m s t).responses = t.responses := by simp [rmwWritten]
@[simp] theorem rmwWritten_inputs : (rmwWritten p m s t).inputs = t.inputs := by simp [rmwWritten]
@[simp] theorem rmwWritten_script : (rmwWritten p m s t).script = t.script := by simp [rmwWritten]
@[simp] theorem rmwWritten_replies : (rmwWritten p m s t).replies = t.replies := by simp [rmwWritten]
@[simp] theorem rmwWritten_draws : (rmwWritten p m s t).draws = t.draws := by simp [rmwWritten]
end

/-- The register a read-modify-write leaves is computed from the word it read: what others wrote meanwhile is lost (R77). -/
theorem fselReg_rmwWritten (p : Nat) (m : Word) (s t : State) : fselReg (rmwWritten p m s t) (p / 10) = rmwWord p m s := by
  simp [fselReg, rmwWritten]

section
variable (p : Nat) (m : Word) (s : State)

@[simp] theorem rmwDone_cfg : (rmwDone p m s).cfg = s.cfg := by simp [rmwDone, rmwWritten]
@[simp] theorem rmwDone_ecur : (rmwDone p m s).ecur = s.ecur := by simp [rmwDone, rmwWritten]
@[simp] theorem rmwDone_faulted : (rmwDone p m s).faulted = s.faulted := by simp [rmwDone, rmwWritten]
@[simp] theorem rmwDone_bind : (rmwDone p m s).bind = s.bind := by simp [rmwDone, rmwWritten]
@[simp] theorem rmwDone_configured : (rmwDone p m s).configured = s.configured := by simp [rmwDone, rmwWritten]
@[simp] theorem rmwDone_mem : (rmwDone p m s).mem = setWord s.mem (base s.cfg .fsel + 4 * (p / 10)) (rmwWord p m s) := by simp [rmwDone, rmwWritten]
@[simp] theorem rmwDone_lat : (rmwDone p m s).lat = s.lat := by simp [rmwDone, rmwWritten]
@[simp] theorem rmwDone_ext : (rmwDone p m s).ext = (atAccess s).ext := by simp [rmwDone, rmwWritten]
@[simp] theorem rmwDone_responses : (rmwDone p m s).responses = s.responses := by simp [rmwDone, rmwWritten]
@[simp] theorem rmwDone_trace : (rmwDone p m s).trace = s.trace ++
    [.rd (addressOf s.cfg .fsel p).offset (fselReg s (p / 10)), .wr (addressOf s.cfg .fsel p).offset (rmwWord p m s)] := by simp [rmwDone, rmwWritten]
@[simp] theorem rmwDone_inputs : (rmwDone p m s).inputs = s.inputs := by simp [rmwDone, rmwWritten]
@[simp] theorem rmwDone_script : (rmwDone p m s).script = s.script.tail := by simp [rmwDone, rmwWritten]
@[simp] theorem rmwDone_replies : (rmwDone p m s).replies = s.replies := by simp [rmwDone, rmwWritten]
@[simp] theorem rmwDone_draws : (rmwDone p m s).draws = s.draws := by simp [rmwDone, rmwWritten]
end

/-- The register of the pin after the read-modify-write (rule R151). -/
theorem fselReg_rmwDone (p : Nat) (m : Word) (s : State) : fselReg (rmwDone p m s) (p / 10) = rmwWord p m s := by
  simp [fselReg]

/-- Every pin's field after it (rules R151, R166). -/
theorem fnField_rmwDone (p q : Nat) (m : Word) (hm : ∀ j, 3 ≤ j → m.getLsbD j = false) (s : State) :
    fnField (rmwDone p m s) q = if q = p then m.setWidth 3 else fnField s q := by
  rw [← fnField_rmw s p q m hm]
  exact fnField_congr (by simp) (by simp [rmwWord]) q

/-- Every byte outside the pin's register keeps its value. -/
theorem byteAt_rmwDone (p : Nat) (m : Word) (s : State) {a : Nat}
    (ha : a < (addressOf s.cfg .fsel p).offset ∨ (addressOf s.cfg .fsel p).offset + 4 ≤ a) :
    byteAt (rmwDone p m s).mem a = byteAt s.mem a := by
  rw [rmwDone_mem, byteAt_setWord_other]
  simpa [addressOf_offset, ppr] using ha

section
variable (p : Nat) (l : Level) (s : State)

@[simp] theorem levelDone_cfg : (levelDone p l s).cfg = s.cfg := by simp [levelDone]
@[simp] theorem levelDone_ecur : (levelDone p l s).ecur = s.ecur := by simp [levelDone]
@[simp] theorem levelDone_faulted : (levelDone p l s).faulted = s.faulted := by simp [levelDone]
@[simp] theorem levelDone_busy : (levelDone p l s).busy = s.busy := by simp [levelDone]
@[simp] theorem levelDone_bind : (levelDone p l s).bind = s.bind := by simp [levelDone]
@[simp] theorem levelDone_configured : (levelDone p l s).configured = s.configured := by simp [levelDone]
@[simp] theorem levelDone_mem : (levelDone p l s).mem = s.mem := by simp [levelDone]
@[simp] theorem levelDone_ext : (levelDone p l s).ext = s.ext := by simp [levelDone]
@[simp] theorem levelDone_responses : (levelDone p l s).responses = s.responses := by simp [levelDone]
@[simp] theorem levelDone_trace : (levelDone p l s).trace = s.trace ++
    [.wr (addressOf s.cfg (levelFamily l) p).offset (1#32 <<< (p % 32))] := by simp [levelDone]
@[simp] theorem levelDone_inputs : (levelDone p l s).inputs = s.inputs := by simp [levelDone]
@[simp] theorem levelDone_script : (levelDone p l s).script = s.script := by simp [levelDone]
@[simp] theorem levelDone_replies : (levelDone p l s).replies = s.replies := by simp [levelDone]
@[simp] theorem levelDone_draws : (levelDone p l s).draws = s.draws := by simp [levelDone]
@[simp] theorem levelDone_probes : (levelDone p l s).probes = s.probes := by simp [levelDone]
end

/-- Every latch after the level write (rules R155, R166). -/
theorem latch_levelDone {p : Nat} (l : Level) {s : State} (hp : p < s.cfg.numPins) (q : Nat) :
    latch (levelDone p l s) q = if q = p then bitOfLevel l else latch s q :=
  (latch_congr (by simp [levelDone]) q).trans (latch_writeLevelReg s p q l hp)

section
variable (p : Nat) (s : State)

@[simp] theorem fselDone_cfg : (fselDone p s).cfg = s.cfg := by simp [fselDone]
@[simp] theorem fselDone_ecur : (fselDone p s).ecur = s.ecur := by simp [fselDone]
@[simp] theorem fselDone_faulted : (fselDone p s).faulted = s.faulted := by simp [fselDone]
@[simp] theorem fselDone_busy : (fselDone p s).busy = s.busy := by simp [fselDone]
@[simp] theorem fselDone_bind : (fselDone p s).bind = s.bind := by simp [fselDone]
@[simp] theorem fselDone_configured : (fselDone p s).configured = s.configured := by simp [fselDone]
@[simp] theorem fselDone_mem : (fselDone p s).mem = s.mem := by simp [fselDone]
@[simp] theorem fselDone_lat : (fselDone p s).lat = s.lat := by simp [fselDone]
@[simp] theorem fselDone_ext : (fselDone p s).ext = s.ext := by simp [fselDone]
@[simp] theorem fselDone_responses : (fselDone p s).responses = s.responses := by simp [fselDone]
@[simp] theorem fselDone_trace : (fselDone p s).trace = s.trace ++ [.rd (addressOf s.cfg .fsel p).offset (fselReg s (p / 10))] := by simp [fselDone]
@[simp] theorem fselDone_inputs : (fselDone p s).inputs = s.inputs := by simp [fselDone]
@[simp] theorem fselDone_script : (fselDone p s).script = s.script := by simp [fselDone]
@[simp] theorem fselDone_replies : (fselDone p s).replies = s.replies := by simp [fselDone]
@[simp] theorem fselDone_draws : (fselDone p s).draws = s.draws := by simp [fselDone]
@[simp] theorem fselDone_probes : (fselDone p s).probes = s.probes := by simp [fselDone]
end

section
variable (p : Nat) (s : State)

@[simp] theorem levDone_cfg : (levDone p s).cfg = s.cfg := by simp [levDone]
@[simp] theorem levDone_ecur : (levDone p s).ecur = s.ecur := by simp [levDone]
@[simp] theorem levDone_faulted : (levDone p s).faulted = s.faulted := by simp [levDone]
@[simp] theorem levDone_busy : (levDone p s).busy = s.busy := by simp [levDone]
@[simp] theorem levDone_bind : (levDone p s).bind = s.bind := by simp [levDone]
@[simp] theorem levDone_configured : (levDone p s).configured = s.configured := by simp [levDone]
@[simp] theorem levDone_mem : (levDone p s).mem = s.mem := by simp [levDone]
@[simp] theorem levDone_lat : (levDone p s).lat = s.lat := by simp [levDone]
@[simp] theorem levDone_ext : (levDone p s).ext = s.ext := by simp [levDone]
@[simp] theorem levDone_responses : (levDone p s).responses = s.responses := by simp [levDone]
@[simp] theorem levDone_trace : (levDone p s).trace = s.trace ++ [.rd (addressOf s.cfg .lev p).offset (levReg s (p / 32))] := by simp [levDone]
@[simp] theorem levDone_inputs : (levDone p s).inputs = s.inputs := by simp [levDone]
@[simp] theorem levDone_script : (levDone p s).script = s.script := by simp [levDone]
@[simp] theorem levDone_replies : (levDone p s).replies = s.replies := by simp [levDone]
@[simp] theorem levDone_draws : (levDone p s).draws = s.draws + 1 := by simp [levDone]
@[simp] theorem levDone_probes : (levDone p s).probes = s.probes := by simp [levDone]
end

@[simp] theorem atAccess_fselDone (p : Nat) (s : State) :
    atAccess (fselDone p s) =
      logAccess (.rd (addressOf s.cfg .fsel p).offset (fselReg s (p / 10))) (atAccess s) := by simp [fselDone]

/-! ### Fields, latches and levels of the intermediate states -/

section
variable (i : Instr) (p q j : Nat) (m : Word) (l : Level) (s : State) (st : Status) (d0 d1 : Word) (e : CmdError)
  (a : Access) (c : Cursor)

@[simp] theorem fselReg_accept : fselReg (accept i s) j = fselReg s j := rfl
@[simp] theorem fselReg_respond : fselReg (respond st d0 d1 s) j = fselReg s j := rfl
@[simp] theorem fselReg_logAccess : fselReg (logAccess a s) j = fselReg s j := rfl
@[simp] theorem fselReg_passed : fselReg (passed s) j = fselReg s j := rfl
@[simp] theorem fselReg_levelDone : fselReg (levelDone p l s) j = fselReg s j := fselReg_congr (by simp) (by simp) j
@[simp] theorem rmwWord_accept : rmwWord p m (accept i s) = rmwWord p m s := rfl
@[simp] theorem levReg_accept : levReg (accept i s) j = levReg s j := rfl
@[simp] theorem levReg_logAccess : levReg (logAccess a s) j = levReg s j := rfl
@[simp] theorem fnField_accept : fnField (accept i s) q = fnField s q := rfl
@[simp] theorem fnField_respond : fnField (respond st d0 d1 s) q = fnField s q := rfl
@[simp] theorem fnField_logAccess : fnField (logAccess a s) q = fnField s q := rfl
@[simp] theorem fnField_takeError : fnField (takeError e s) q = fnField s q := rfl
@[simp] theorem fnField_passed : fnField (passed s) q = fnField s q := rfl
@[simp] theorem fnField_setCursor : fnField (setCursor c s) q = fnField s q := rfl
@[simp] theorem fnField_levelDone : fnField (levelDone p l s) q = fnField s q := fnField_congr (by simp) (by simp) q
@[simp] theorem fnField_fselDone : fnField (fselDone p s) q = fnField s q := fnField_congr (by simp) (by simp) q
@[simp] theorem fnField_levDone : fnField (levDone p s) q = fnField s q := fnField_congr (by simp) (by simp) q
@[simp] theorem latch_accept : latch (accept i s) q = latch s q := rfl
@[simp] theorem latch_respond : latch (respond st d0 d1 s) q = latch s q := rfl
@[simp] theorem latch_logAccess : latch (logAccess a s) q = latch s q := rfl
@[simp] theorem latch_takeError : latch (takeError e s) q = latch s q := rfl
@[simp] theorem latch_passed : latch (passed s) q = latch s q := rfl
@[simp] theorem latch_rmwDone : latch (rmwDone p m s) q = latch s q := latch_congr (by simp) q
@[simp] theorem latch_fselDone : latch (fselDone p s) q = latch s q := latch_congr (by simp) q
@[simp] theorem latch_levDone : latch (levDone p s) q = latch s q := latch_congr (by simp) q
@[simp] theorem level_accept : level (accept i s) q = level s q := rfl
@[simp] theorem level_respond : level (respond st d0 d1 s) q = level s q := rfl
@[simp] theorem level_logAccess : level (logAccess a s) q = level s q := rfl
@[simp] theorem level_setCursor : level (setCursor c s) q = level s q := rfl
@[simp] theorem level_fselDone : level (fselDone p s) q = level s q := rfl
@[simp] theorem level_levDone : level (levDone p s) q = level s q := rfl
end

/-! ### The commands -/

theorem nextAnswer_complete {s : State} (h : AccessesComplete s) : nextAnswer s = .done := by
  unfold nextAnswer
  split
  · rfl
  · exact h _ (by simp [*])

/-- Nobody writes before the second access of a command whose first one completes, nor before the third (rule R80). -/
theorem serialized_second {i : Instr} {s : State} (hs : HostSerializes i s) (hn : 2 ≤ accessCount i s)
    (ha : nextAnswer s = .done) : NextUnwritten s.script.tail := by
  obtain ⟨n, hn⟩ : ∃ n, accessCount i s = n + 2 := ⟨_, (Nat.sub_add_cancel hn).symm⟩
  rw [HostSerializes, hn] at hs
  intro t ht
  rcases h : s.script with _ | ⟨x, _ | ⟨y, rest⟩⟩ <;> simp [h] at ht
  subst ht
  have hx : x.answer = .done := by simpa [nextAnswer, h] using ha
  exact hs y (by simp [h, turnsUsed, hx])

theorem serialized_third {i : Instr} {s : State} (hs : HostSerializes i s) (hn : 3 ≤ accessCount i s)
    (ha : nextAnswer s = .done) (ha' : nextAnswer (withScript s.script.tail s) = .done) :
    NextUnwritten s.script.tail.tail := by
  obtain ⟨n, hn⟩ : ∃ n, accessCount i s = n + 3 := ⟨_, (Nat.sub_add_cancel hn).symm⟩
  rw [HostSerializes, hn] at hs
  intro t ht
  rcases h : s.script with _ | ⟨x, _ | ⟨y, _ | ⟨z, rest⟩⟩⟩ <;> simp [h] at ht
  subst ht
  have hx : x.answer = .done := by simpa [nextAnswer, h] using ha
  have hy : y.answer = .done := by simpa [nextAnswer, h] using ha'
  exact hs z (by simp [h, turnsUsed, hx, hy])

section
variable {s : State} {p : Nat}

/-- `CFGIN`, whatever the other agents do that the spec gives an effect (rules R77, R152). -/
theorem exec_cfgin_turns (hr : Ready s) (hp : p < s.cfg.numPins) (h : TurnAnswers s.cfg s.script)
    (h' : TurnAnswers s.cfg s.script.tail) :
    exec (.cfgin p) s = .next (respond .ok 0#32 0#32
      (rmwWritten p 0b000#32 (accept (.cfgin p) (atAccess s)) (atAccess (rmwRead p (accept (.cfgin p) (atAccess s)))))) := by
  simp only [exec, execCfgin, command_ready hr, checkPin_ok (s := accept (.cfgin p) s) hp, Run.bind,
    fselRmw_turns (s := accept (.cfgin p) s) hr.1 h h' hp, atAccess_accept, finish]

/-- `CFGIN`, serialized (rules R80, R152). -/
theorem exec_cfgin (hr : Ready s) (h : Answers s) (hs : HostSerializes (.cfgin p) s) (hp : p < s.cfg.numPins) :
    exec (.cfgin p) s = .next (respond .ok 0#32 0#32 (rmwDone p 0b000#32 (accept (.cfgin p) (atAccess s)))) := by
  have hw := serialized_second hs (by simp [accessCount, hp]) (nextAnswer_complete h.1)
  rw [exec_cfgin_turns hr hp h.turn (Answers.turn (s := withScript s.script.tail s) (h.of_tail rfl rfl)),
    atAccess_passed (s := rmwRead _ _) (by simpa using hw), rmwDone]

/-- `CFGOUT`, whatever the other agents do that the spec gives an effect (rules R77, R156). -/
theorem exec_cfgout_turns (hr : Ready s) (hp : p < s.cfg.numPins) (l : Level) (h : TurnAnswers s.cfg s.script)
    (h' : TurnAnswers s.cfg s.script.tail) (h'' : TurnAnswers s.cfg s.script.tail.tail) :
    exec (.cfgout p l) s = .next (respond .ok 0#32 0#32 (levelDone p l (atAccess
      (rmwWritten p 0b001#32 (accept (.cfgout p l) (atAccess s))
        (atAccess (rmwRead p (accept (.cfgout p l) (atAccess s)))))))) := by
  have hl := levelWrite_done (s := rmwWritten p 0b001#32 (accept (.cfgout p l) (atAccess s))
      (atAccess (rmwRead p (accept (.cfgout p l) (atAccess s))))) (by simpa using hr.1)
    (completes_of_turn (by simpa using hr.1) (by simpa using h'')) (p := p) (by simpa using hp) l
  simp only [exec, execCfgout, command_ready hr, checkPin_ok (s := accept (.cfgout p l) s) hp, Run.bind,
    fselRmw_turns (s := accept (.cfgout p l) s) hr.1 h h' hp, atAccess_accept, hl, finish]

/-- `CFGOUT`, serialized (rules R80, R156). -/
theorem exec_cfgout (hr : Ready s) (h : Answers s) {l : Level} (hs : HostSerializes (.cfgout p l) s)
    (hp : p < s.cfg.numPins) :
    exec (.cfgout p l) s =
      .next (respond .ok 0#32 0#32 (levelDone p l (passed (rmwDone p 0b001#32 (accept (.cfgout p l) (atAccess s)))))) := by
  have h1 : Answers (withScript s.script.tail s) := h.of_tail rfl rfl
  have h2 : Answers (withScript s.script.tail.tail s) := h1.of_tail rfl rfl
  have hw := serialized_second hs (by simp [accessCount, hp]) (nextAnswer_complete h.1)
  have hw' := serialized_third hs (by simp [accessCount, hp]) (nextAnswer_complete h.1) (nextAnswer_complete h1.1)
  rw [exec_cfgout_turns hr hp l h.turn h1.turn h2.turn, atAccess_passed (s := rmwRead _ _) (by simpa using hw), ← rmwDone,
    atAccess_passed (s := rmwDone _ _ _) (by simpa using hw')]

/-- `SETLV` (rule R159). -/
theorem exec_setlv (hr : Ready s) (h : Answers s) (hp : p < s.cfg.numPins) (l : Level) :
    exec (.setlv p l) s = .next (respond .ok 0#32 0#32 (levelDone p l (accept (.setlv p l) (atAccess s)))) := by
  simp only [exec, execSetlv, command_ready hr, checkPin_ok (s := accept (.setlv p l) s) hp, Run.bind,
    levelWrite_answers (s := accept (.setlv p l) s) hr.1 (h.of_script rfl rfl) hp, atAccess_accept, finish]

/-- `RDFN` (rule R162). -/
theorem exec_rdfn (hr : Ready s) (h : Answers s) (hp : p < s.cfg.numPins) :
    exec (.rdfn p) s =
      .next (respond .ok ((fnField (atAccess s) p).setWidth 32) 0#32 (fselDone p (accept (.rdfn p) (atAccess s)))) := by
  simp only [exec, execRdfn, command_ready hr, checkPin_ok (s := accept (.rdfn p) s) hp, Run.bind,
    readPinField_fsel (s := accept (.rdfn p) s) hr.1 (busTurn_answers hr.1 (h.of_script rfl rfl)) hp, atAccess_accept, fnField_accept, finish]

/-- `RDLV` (rules R68, R165). -/
theorem exec_rdlv (hr : Ready s) (h : Answers s) (hp : p < s.cfg.numPins) :
    exec (.rdlv p) s =
      .next (respond .ok (levelWord (level (atAccess s) p)) 0#32 (levDone p (accept (.rdlv p) (atAccess s)))) := by
  simp only [exec, execRdlv, command_ready hr, checkPin_ok (s := accept (.rdlv p) s) hp, Run.bind,
    readPinField_lev (s := accept (.rdlv p) s) hr.1 (busTurn_answers hr.1 (h.of_script rfl rfl)) hp, atAccess_accept, level_accept, finish]

/-- `ENEXT` from `START` and from `NUM_PINS` makes no access, whatever the bus does (rule R177). -/
theorem exec_enext_start (hr : Ready s) (h : s.ecur = .start) :
    exec .enext s = .next { s with ecur := .atPin 0, responses := s.responses ++ [⟨.ok, 0#32, 1#32⟩] } := by
  have hb := hr.2.1
  simp only [exec, execEnext, command_ready hr, h, finish, setCursor, respond, accept, hb]
  rfl

theorem exec_enext_end (hr : Ready s) (h : s.ecur = .atPin s.cfg.numPins) :
    exec .enext s = .next { s with ecur := .start, responses := s.responses ++ [⟨.ok, 0#32, 0#32⟩] } := by
  have hb := hr.2.1
  simp only [exec, execEnext, command_ready hr, h, lt_irrefl, if_false, if_true, finish, setCursor,
    respond, accept, hb]
  rfl

theorem isIo_setWidth (f : BitVec 3) : isIo (f.setWidth 32) = true ↔ f = 0b000#3 ∨ f = 0b001#3 := by
  revert f; decide

/-- `ENEXT` at a pin (rule R177): the field is that at the first access, the level that at the second. -/
theorem exec_enext_pin (hr : Ready s) (h : Answers s) (hc : s.ecur = .atPin p) (hp : p < s.cfg.numPins) :
    exec .enext s = .next
      (if fnField (atAccess s) p = 0b000#3 ∨ fnField (atAccess s) p = 0b001#3 then
        respond .ok
          (reportData p ((fnField (atAccess s) p).setWidth 32) (levelWord (level (atAccess (atAccess s)) p)))
          (kindData .report)
          (setCursor (.atPin (p + 1)) (levDone p (atAccess (fselDone p (accept .enext (atAccess s))))))
      else
        respond .ok 0#32 (kindData .skip) (setCursor (.atPin (p + 1)) (fselDone p (accept .enext (atAccess s))))) := by
  have hf : readPinField .fsel p (accept .enext s) =
      .done ((fnField (atAccess s) p).setWidth 32) (fselDone p (accept .enext (atAccess s))) := by
    have := readPinField_fsel (s := accept .enext s) hr.1 (busTurn_answers hr.1 (h.of_script rfl rfl)) hp
    rwa [atAccess_accept] at this
  have hl : readPinField .lev p (fselDone p (accept .enext (atAccess s))) =
      .done (levelWord (level (atAccess (atAccess s)) p)) (levDone p (atAccess (fselDone p (accept .enext (atAccess s))))) := by
    have := readPinField_lev (s := fselDone p (accept .enext (atAccess s))) (by simpa using hr.1)
      (busTurn_answers (by simpa using hr.1) (h.of_tail (by simp) (by simp))) (p := p) (by simpa using hp)
    rw [this]
    simp
  simp only [exec, execEnext, command_ready hr, accept_ecur, hc, accept_cfg, hp, if_true, examinePin, hf, Run.bind,
    isIo_setWidth, hl]
  split <;> rfl
end

end Sys2Proof.Machine
end

