-- ==== Sys2Proof/Laws/Agents.lean ====
section
/-! SUPPORT. What the acts of the other agents do to one pin: a write of another register leaves its field or its latch alone,
and what becomes of a latch rests on that latch alone (rules R62, R65, R66, R78). -/

namespace Sys2Proof.Machine

variable {s t u v : State} {p : Nat}

/-- A write of another register leaves the FSEL register of the pin alone (rule R62). -/
theorem envAct_fselReg_other {a : EnvAct} (h : envAct a s = .done () t)
    (hn : writesTo (addressOf s.cfg .fsel p).offset a = false) : fselReg t (p / 10) = fselReg s (p / 10) := by
  cases a with
  | line q l => injection h with _ h; subst h; exact fselReg_congr (by simp) (by simp) _
  | probe q => injection h with _ h; subst h; exact fselReg_congr (by simp) (by simp) _
  | busWrite off w =>
    have hn : off ≠ (addressOf s.cfg .fsel p).offset := by simpa [writesTo] using hn
    simp only [envAct, bankWrite] at h
    split at h
    · rename_i j hj
      injection h with _ h; subst h
      rw [fselReg_writeFsel, if_neg]
      rintro rfl
      exact hn (by rw [(regAt_some hj).1, addressOf_offset]; rfl)
    · injection h with _ h; subst h; rfl
    · injection h with _ h; subst h; rfl
    · cases h
    · cases h

/-- A write of other registers than SET and CLR of the pin leaves its latch alone (rules R65, R66). -/
theorem envAct_latch_other {a : EnvAct} (h : envAct a s = .done () t)
    (hs : writesTo (addressOf s.cfg .set p).offset a = false) (hc : writesTo (addressOf s.cfg .clr p).offset a = false) :
    latch t p = latch s p := by
  cases a with
  | line q l => injection h with _ h; subst h; exact latch_congr (by simp) _
  | probe q => injection h with _ h; subst h; exact latch_congr (by simp) _
  | busWrite off w =>
    have hs : off ≠ (addressOf s.cfg .set p).offset := by simpa [writesTo] using hs
    have hc : off ≠ (addressOf s.cfg .clr p).offset := by simpa [writesTo] using hc
    simp only [envAct, bankWrite] at h
    split at h
    · injection h with _ h; subst h; rfl
    · rename_i j hj
      injection h with _ h; subst h
      have : p / 32 ≠ j := by rintro rfl; exact hs (by rw [(regAt_some hj).1, addressOf_offset]; rfl)
      simp [latch_writeSet, this]
    · rename_i j hj
      injection h with _ h; subst h
      have : p / 32 ≠ j := by rintro rfl; exact hc (by rw [(regAt_some hj).1, addressOf_offset]; rfl)
      simp [latch_writeClr, this]
    · cases h
    · cases h

theorem envActs_cons_done {a : EnvAct} {rest : List EnvAct} (h : envActs (a :: rest) s = .done () t) :
    ∃ u, envAct a s = .done () u ∧ envActs rest u = .done () t := by
  simp only [envActs] at h
  cases ha : envAct a s with
  | done x u => rw [ha] at h; exact ⟨u, rfl, h⟩
  | _ => rw [ha] at h; cases h

theorem envAct_cfg {a : EnvAct} (h : envAct a s = .done () t) : t.cfg = s.cfg := by rw [envAct_frame h]

theorem envActs_fselReg_other {acts : List EnvAct} (h : envActs acts s = .done () t)
    (hn : ∀ a ∈ acts, writesTo (addressOf s.cfg .fsel p).offset a = false) : fselReg t (p / 10) = fselReg s (p / 10) := by
  induction acts generalizing s with
  | nil => injection h with _ h; subst h; rfl
  | cons a rest ih =>
    obtain ⟨u, ha, h⟩ := envActs_cons_done h
    rw [ih h fun b hb => by rw [envAct_cfg ha]; exact hn b (by simp [hb]), envAct_fselReg_other ha (hn a (by simp))]

theorem envActs_latch_other {acts : List EnvAct} (h : envActs acts s = .done () t)
    (hn : ∀ a ∈ acts, writesTo (addressOf s.cfg .set p).offset a = false ∧ writesTo (addressOf s.cfg .clr p).offset a = false) :
    latch t p = latch s p := by
  induction acts generalizing s with
  | nil => injection h with _ h; subst h; rfl
  | cons a rest ih =>
    obtain ⟨u, ha, h⟩ := envActs_cons_done h
    rw [ih h fun b hb => by rw [envAct_cfg ha]; exact hn b (by simp [hb]),
      envAct_latch_other ha (hn a (by simp)).1 (hn a (by simp)).2]

/-- What becomes of a latch rests on that latch alone (rules R65, R66). -/
theorem envActs_latch_congr {acts : List EnvAct} (hc : t.cfg = s.cfg) (hl : latch t p = latch s p)
    (hs : envActs acts s = .done () u) (ht : envActs acts t = .done () v) : latch v p = latch u p := by
  induction acts generalizing s t with
  | nil => injection hs with _ hs; injection ht with _ ht; rw [← hs, ← ht, hl]
  | cons a rest ih =>
    obtain ⟨s', hs', hs⟩ := envActs_cons_done hs
    obtain ⟨t', ht', ht⟩ := envActs_cons_done ht
    refine ih (by rw [envAct_cfg hs', envAct_cfg ht', hc]) ?_ hs ht
    cases a with
    | line q l => injection hs' with _ h; injection ht' with _ h'; subst h h'; simpa [latch] using hl
    | probe q => injection hs' with _ h; injection ht' with _ h'; subst h h'; simpa [latch] using hl
    | busWrite off w =>
      simp only [envAct, bankWrite] at hs' ht'
      rw [hc] at ht'
      rcases hr : regAt s.cfg off with _ | ⟨f, j⟩ <;> rw [hr] at hs' ht'
      · cases hs'
      · cases f <;> cases hs' <;> cases ht'
        · exact hl
        · simp [latch_writeSet, hl, hc]
        · simp [latch_writeClr, hl, hc]

/-- What the state at the next access is: its acts done, or, where one is refused, the state before them. -/
theorem atAccess_cases (s : State) :
    (s.script = [] ∧ atAccess s = s)
    ∨ ∃ x rest, s.script = x :: rest ∧
        (envActs x.before (withScript rest s) = .done () (atAccess s)
        ∨ (∃ w, envActs x.before (withScript rest s) = .refused w) ∧ atAccess s = withScript rest s) := by
  unfold atAccess busTurn
  cases hs : s.script with
  | nil => exact .inl ⟨rfl, rfl⟩
  | cons x rest =>
    refine .inr ⟨x, rest, rfl, ?_⟩
    rcases envActs_cases x.before (withScript rest s) with ⟨u, h⟩ | ⟨w, h⟩
    · exact .inl (by simp only [h, Run.bind])
    · exact .inr ⟨⟨w, h⟩, by simp only [h, Run.bind]; rfl⟩

/-- The FSEL register of a pin at the next access, where no other agent writes it before (rule R153). -/
theorem fselReg_atAccess_untouched {offs : List Nat} (h : Untouched offs s.script)
    (hm : (addressOf s.cfg .fsel p).offset ∈ offs) : fselReg (atAccess s) (p / 10) = fselReg s (p / 10) := by
  rcases atAccess_cases s with ⟨_, he⟩ | ⟨x, rest, hs, he | ⟨_, he⟩⟩
  · rw [he]
  · exact envActs_fselReg_other (s := withScript rest s) he fun a ha => h x (by simp [hs]) a ha _ hm
  · rw [he]; rfl

theorem fnField_atAccess_untouched {offs : List Nat} (h : Untouched offs s.script)
    (hm : (addressOf s.cfg .fsel p).offset ∈ offs) : fnField (atAccess s) p = fnField s p := by
  simp only [fnField, fselReg_atAccess_untouched h hm]

/-- The latch of a pin at the next access, where no other agent writes it before (rules R158, R160). -/
theorem latch_atAccess_untouched {offs : List Nat} (h : Untouched offs s.script)
    (hs : (addressOf s.cfg .set p).offset ∈ offs) (hc : (addressOf s.cfg .clr p).offset ∈ offs) :
    latch (atAccess s) p = latch s p := by
  rcases atAccess_cases s with ⟨_, he⟩ | ⟨x, rest, hx, he | ⟨_, he⟩⟩
  · rw [he]
  · exact envActs_latch_other (s := withScript rest s) he fun a ha =>
      ⟨h x (by simp [hx]) a ha _ hs, h x (by simp [hx]) a ha _ hc⟩
  · rw [he]; rfl

/-- A latch that stands alike in two states stands alike at their next access under one script (rule R78). -/
theorem latch_atAccess_congr (hc : t.cfg = s.cfg) (hs : t.script = s.script) (hl : latch t p = latch s p) :
    latch (atAccess t) p = latch (atAccess s) p := by
  rcases atAccess_cases s with ⟨h0, he⟩ | ⟨x, rest, hx, he⟩
  · rcases atAccess_cases t with ⟨_, he'⟩ | ⟨x, rest, hx, _⟩
    · rw [he, he', hl]
    · rw [hs, h0] at hx; cases hx
  · rcases atAccess_cases t with ⟨h0, _⟩ | ⟨x', rest', hx', he'⟩
    · rw [← hs, h0] at hx; cases hx
    · rw [hs, hx] at hx'; cases hx'
      rcases he with he | ⟨⟨w, hw⟩, he⟩ <;> rcases he' with he' | ⟨⟨w', hw'⟩, he'⟩
      · exact envActs_latch_congr (s := withScript rest s) (t := withScript rest t) hc hl he he'
      · rw [envActs_refused_congr (s := withScript rest t) (t := withScript rest s) hc.symm hw'] at he; cases he
      · rw [envActs_refused_congr (s := withScript rest s) (t := withScript rest t) hc hw] at he'; cases he'
      · rw [he, he']; exact hl

/-- Nobody touches these registers before the next access if nobody touches more of them. -/
theorem Untouched.mono {offs offs' : List Nat} {script : List BusTurn} (h : Untouched offs script)
    (hs : ∀ o ∈ offs', o ∈ offs) : Untouched offs' script := fun x hx a ha o ho => h x hx a ha o (hs o ho)

end Sys2Proof.Machine
end

