-- ==== Sys2Proof/Laws/Encode.lean ====
section
/-! SUPPORT. A command word is a constant in bits 31:16 and a pin in bits 15:0: what the masks and the fields of a word of
that form are (rules R91, R97). -/

namespace Sys2Proof

variable {c m : Word} {p : Nat}

theorem getLsbD_pin_high (hp : p ≤ 65535) {i : Nat} (hi : 16 ≤ i) : (BitVec.ofNat 32 p).getLsbD i = false := by
  have : p < 2 ^ i := lt_of_lt_of_le (show p < 2 ^ 16 by omega) (Nat.pow_le_pow_right (by decide) hi)
  simp [BitVec.getLsbD_ofNat, Nat.testBit_lt_two_pow this]

/-- The word has no bit below bit 16. -/
abbrev HighOnly (c : Word) : Prop := c &&& 0xFFFF#32 = 0#32

theorem getLsbD_highOnly (hc : HighOnly c) {i : Nat} (hi : i < 16) : c.getLsbD i = false := by
  have h : (c &&& 0xFFFF#32).getLsbD i = false := by rw [hc]; simp
  have hm : (0xFFFF#32).getLsbD i = true := by interval_cases i <;> rfl
  simpa [hm] using h

/-- A mask of bits 31:16 does not see the pin. -/
theorem word_and_mask (hp : p ≤ 65535) (hm : HighOnly m) : (c ||| BitVec.ofNat 32 p) &&& m = c &&& m := by
  apply BitVec.eq_of_getLsbD_eq
  intro i hi
  simp only [BitVec.getLsbD_and, BitVec.getLsbD_or]
  by_cases h : i < 16
  · simp [getLsbD_highOnly hm h]
  · simp only [getLsbD_pin_high hp (by omega : 16 ≤ i), Bool.or_false]

/-- The pin field of the word is the pin. -/
theorem word_pin (hp : p ≤ 65535) (hc : HighOnly c) : pinField (c ||| BitVec.ofNat 32 p) = p := by
  have h : (c ||| BitVec.ofNat 32 p).extractLsb' 0 16 = BitVec.ofNat 16 p := by
    apply BitVec.eq_of_getLsbD_eq
    intro i hi
    simp only [BitVec.getLsbD_extractLsb', hi, decide_true, Bool.true_and, Nat.zero_add, BitVec.getLsbD_or,
      getLsbD_highOnly hc hi, Bool.false_or, BitVec.getLsbD_ofNat]
    simp [show i < 32 by omega]
  simp only [pinField, h, BitVec.toNat_ofNat]
  omega

/-- A field of bits 31:16 is the constant's. -/
theorem word_field (hp : p ≤ 65535) {lo w : Nat} (hlo : 16 ≤ lo) :
    (c ||| BitVec.ofNat 32 p).extractLsb' lo w = c.extractLsb' lo w := by
  apply BitVec.eq_of_getLsbD_eq
  intro i hi
  simp only [BitVec.getLsbD_extractLsb', hi, decide_true, Bool.true_and, BitVec.getLsbD_or,
    getLsbD_pin_high hp (by omega : 16 ≤ lo + i), Bool.or_false]

theorem word_bit (hp : p ≤ 65535) {i : Nat} (hi : 16 ≤ i) : (c ||| BitVec.ofNat 32 p).getLsbD i = c.getLsbD i := by
  simp only [BitVec.getLsbD_or, getLsbD_pin_high hp hi, Bool.or_false]

theorem covers_pin_row {r : OpRow} (hp : p ≤ 65535) (hm : HighOnly r.mask) :
    r.covers (c ||| BitVec.ofNat 32 p) = (c &&& r.mask == r.bits) := by
  rw [OpRow.covers, word_and_mask hp hm]

theorem pinFits_iff : pinFits p = true ↔ p ≤ 65535 := by simp [pinFits]

/-- The constant part of a command's word. -/
def encodeHigh (i : Instr) : Word :=
  (i.op.setWidth 32 <<< 28) ||| (i.famCode.setWidth 32 <<< 26) ||| (i.lvlCode.setWidth 32 <<< 25)

theorem encode_eq (i : Instr) : encode i = encodeHigh i ||| BitVec.ofNat 32 i.pin := rfl

@[simp] theorem encodeHigh_addr (f : Family) (p : Nat) :
    encodeHigh (.addr f p) = 0x10000000#32 ||| (f.code.setWidth 32 <<< 26) := by
  simp only [encodeHigh, Instr.op, Instr.famCode, Instr.lvlCode]
  cases f <;> decide

@[simp] theorem encodeHigh_cfgin (p : Nat) : encodeHigh (.cfgin p) = 0x20000000#32 := by
  simp only [encodeHigh, Instr.op, Instr.famCode, Instr.lvlCode]
  decide

@[simp] theorem encodeHigh_cfgout (p : Nat) (l : Level) :
    encodeHigh (.cfgout p l) = 0x30000000#32 ||| (l.code.setWidth 32 <<< 25) := by
  simp only [encodeHigh, Instr.op, Instr.famCode, Instr.lvlCode]
  cases l <;> decide

@[simp] theorem encodeHigh_setlv (p : Nat) (l : Level) :
    encodeHigh (.setlv p l) = 0x40000000#32 ||| (l.code.setWidth 32 <<< 25) := by
  simp only [encodeHigh, Instr.op, Instr.famCode, Instr.lvlCode]
  cases l <;> decide

@[simp] theorem encodeHigh_rdfn (p : Nat) : encodeHigh (.rdfn p) = 0x50000000#32 := by
  simp only [encodeHigh, Instr.op, Instr.famCode, Instr.lvlCode]
  decide

@[simp] theorem encodeHigh_rdlv (p : Nat) : encodeHigh (.rdlv p) = 0x60000000#32 := by
  simp only [encodeHigh, Instr.op, Instr.famCode, Instr.lvlCode]
  decide

@[simp] theorem encodeHigh_enext : encodeHigh .enext = 0x70000000#32 := by
  simp only [encodeHigh, Instr.op, Instr.famCode, Instr.lvlCode]
  decide

/-- The row of a command (rule R97). -/
def rowOf : Instr → OpRow
  | .addr _ _ => rowAddr
  | .cfgin _ => rowCfgin
  | .cfgout _ _ => rowCfgout
  | .setlv _ _ => rowSetlv
  | .rdfn _ => rowRdfn
  | .rdlv _ => rowRdlv
  | .enext => rowEnext

/-! ### The other direction: a word is its row's constant, its free bits and its pin -/

/-- A word is what it has under a mask and what it has outside it. -/
theorem eq_of_fields {w c m x : Word} (h : w &&& m = c) (hx : w &&& ~~~m = x) : w = c ||| x := by
  subst h hx
  apply BitVec.eq_of_getLsbD_eq
  intro i hi
  simp only [BitVec.getLsbD_or, BitVec.getLsbD_and, BitVec.getLsbD_not, hi, decide_true, Bool.true_and]
  cases w.getLsbD i <;> cases m.getLsbD i <;> rfl

theorem word_low (w : Word) : w &&& 0xFFFF#32 = BitVec.ofNat 32 (pinField w) := by
  apply BitVec.eq_of_toNat_eq
  simp only [pinField, BitVec.toNat_and, BitVec.toNat_ofNat, BitVec.extractLsb'_toNat, Nat.shiftRight_zero]
  have : w.toNat &&& 65535 = w.toNat % 65536 := Nat.and_two_pow_sub_one_eq_mod w.toNat 16
  simp; omega

theorem pinField_le (w : Word) : pinField w ≤ 65535 := by
  unfold pinField; have := (w.extractLsb' 0 16).isLt; omega

theorem covers_iff (r : OpRow) (w : Word) : r.covers w = true ↔ w &&& r.mask = r.bits := by simp [OpRow.covers]

theorem word_split {w h : Word} (hh : w &&& 0xFFFF0000#32 = h) : w = h ||| BitVec.ofNat 32 (pinField w) :=
  eq_of_fields hh (by rw [show ~~~(0xFFFF0000#32) = 0xFFFF#32 by decide, word_low])

/-- The same for a row whose mask leaves the bits `f` of 31:16 free. -/
theorem row_split {w m c f : Word} (h : w &&& m = c) (hm : m ||| f = 0xFFFF0000#32) :
    w = (c ||| (w &&& f)) ||| BitVec.ofNat 32 (pinField w) := by
  apply word_split
  rw [← hm, ← h]
  apply BitVec.eq_of_getLsbD_eq
  intro i hi
  simp only [BitVec.getLsbD_or, BitVec.getLsbD_and]
  cases w.getLsbD i <;> simp

/-- What a word that decodes is, row by row (rule R97). -/
theorem decode_cases {w : Word} {i : Instr} (h : decode w = .legal i) :
    (w &&& rowAddr.mask = rowAddr.bits ∧ i = .addr (famField w) (pinField w)) ∨
    (w &&& rowCfgin.mask = rowCfgin.bits ∧ i = .cfgin (pinField w)) ∨
    (w &&& rowCfgout.mask = rowCfgout.bits ∧ i = .cfgout (pinField w) (lvlField w)) ∨
    (w &&& rowSetlv.mask = rowSetlv.bits ∧ i = .setlv (pinField w) (lvlField w)) ∨
    (w &&& rowRdfn.mask = rowRdfn.bits ∧ i = .rdfn (pinField w)) ∨
    (w &&& rowRdlv.mask = rowRdlv.bits ∧ i = .rdlv (pinField w)) ∨
    (w &&& rowEnext.mask = rowEnext.bits ∧ i = .enext) := by
  unfold decode at h
  simp only [covers_iff] at h
  split at h
  · cases h; simp_all
  split at h
  · cases h; simp_all
  split at h
  · cases h; simp_all
  split at h
  · cases h; simp_all
  split at h
  · cases h; simp_all
  split at h
  · cases h; simp_all
  split at h
  · cases h; simp_all
  · cases h

end Sys2Proof
end

