-- ==== Sys2Proof/Laws/Enumerate.lean ====
section
/-! SUPPORT. One call of the enumerator at a pin, undisturbed, as its record (rules R103, R177), and the frame of calls in a
row (rule R178). -/

namespace Sys2Proof.Machine

theorem pinRecord_report {k : Nat} {f : BitVec 3} {l : Bool} (h : f = 0b000#3 ∨ f = 0b001#3) :
    pinRecord k f l = ⟨.ok, reportData k (f.setWidth 32) (levelWord l), kindData .report⟩ := by
  simp only [pinRecord, if_pos h, reportData, levelWord]; rfl

theorem pinRecord_skip {k : Nat} {f : BitVec 3} {l : Bool} (h : ¬ (f = 0b000#3 ∨ f = 0b001#3)) :
    pinRecord k f l = ⟨.ok, 0#32, kindData .skip⟩ := by
  simp only [pinRecord, if_neg h]; rfl

theorem SameRest.trans {s t u : State} (h : SameRest s t) (h' : SameRest t u) : SameRest s u :=
  ⟨h'.cfg.trans h.cfg, h'.faulted.trans h.faulted, h'.idle, h'.bind.trans h.bind, h'.configured.trans h.configured,
    h'.inputs.trans h.inputs, h'.replies.trans h.replies⟩

theorem SameBank.trans {s t u : State} (h : SameBank s t) (h' : SameBank t u) : SameBank s u :=
  ⟨h'.bytes.trans h.bytes, h'.latches.trans h.latches⟩

/-- Acts that only look leave the bank and the lines as they are (rules R71, R178). -/
theorem envActs_quiet {acts : List EnvAct} {s t : State} (hq : ∀ a ∈ acts, isProbe a = true)
    (h : envActs acts s = .done () t) : t.mem = s.mem ∧ t.lat = s.lat ∧ t.ext = s.ext := by
  induction acts generalizing s with
  | nil => injection h with _ h; subst h; exact ⟨rfl, rfl, rfl⟩
  | cons a rest ih =>
    cases a with
    | line p l => simpa [isProbe] using hq (.line p l) (by simp)
    | busWrite off v => simpa [isProbe] using hq (.busWrite off v) (by simp)
    | probe p =>
      have := ih (fun b hb => hq b (List.mem_cons_of_mem _ hb)) (s := probePin p s) h
      simpa using this

theorem Quiet.unwritten {s : State} (h : Quiet s) : NoForeignWrites s := fun t ht a ha => by
  have := h t ht a ha
  cases a <;> first | rfl | cases this

theorem NoForeignWrites.next {s : State} (h : NoForeignWrites s) : NextUnwritten s.script :=
  fun t ht => h t (List.mem_of_mem_head? ht)

/-- Where no other agent does more than look the lines stand still (rule R178). -/
theorem atAccess_quiet {s : State} (h : Quiet s) : (atAccess s).ext = s.ext := by
  unfold atAccess busTurn
  cases hs : s.script with
  | nil => rfl
  | cons t rest =>
    simp only
    rcases envActs_cases t.before (withScript rest s) with ⟨u, hu⟩ | ⟨w, hu⟩
    · simp only [hu, Run.bind]
      exact (envActs_quiet (s := withScript rest s) (h t (by simp [hs])) hu).2.2
    · simp only [hu, Run.bind]; rfl

theorem Quiet.of_drop {s t : State} {k : Nat} (h : Quiet s) (hs : t.script = s.script.drop k) : Quiet t :=
  fun x hx => h x (List.mem_of_mem_drop (hs ▸ hx))

theorem NoForeignWrites.of_drop {s t : State} {k : Nat} (h : NoForeignWrites s) (hs : t.script = s.script.drop k) :
    NoForeignWrites t := fun x hx => h x (List.mem_of_mem_drop (hs ▸ hx))

/-- The state at the last access of an `ENEXT` at a pin: the second for an input or output, else the first (rule R177). -/
def atLastRead (p : Nat) (s : State) : State :=
  if fnField (atAccess s) p = 0b000#3 ∨ fnField (atAccess s) p = 0b001#3 then atAccess (atAccess s) else atAccess s

/-- Where nobody writes, or nobody does more than look, the bank there is that before the call. -/
theorem atLastRead_unwritten {s : State} (p : Nat) (h : NoForeignWrites s) :
    (atLastRead p s).mem = s.mem ∧ (atLastRead p s).lat = s.lat := by
  have h1 := atAccess_passed h.next
  have h2 := atAccess_passed (s := passed s) (NoForeignWrites.of_drop (k := 1) (t := passed s) h (by simp)).next
  unfold atLastRead
  split
  · rw [h1, h2]; exact ⟨rfl, rfl⟩
  · rw [h1]; exact ⟨rfl, rfl⟩

theorem atLastRead_quiet {s : State} (p : Nat) (h : Quiet s) : (atLastRead p s).ext = s.ext := by
  unfold atLastRead
  split
  · exact (atAccess_quiet (h.of_drop (k := 1) (by simp))).trans (atAccess_quiet h)
  · exact atAccess_quiet h

/-- One `ENEXT` at a pin: its record, its accesses, what it leaves, and what is left of the script (rule R177). -/
theorem enext_pin {s : State} {p : Nat} (hr : Ready s) (h : Answers s) (hc : s.ecur = .atPin p)
    (hp : p < s.cfg.numPins) :
    ∃ t, exec .enext s = .next t ∧ t.ecur = .atPin (p + 1) ∧ SameBank (atLastRead p s) t ∧ SameRest s t
      ∧ t.responses = s.responses ++ [pinRecord p (fnField (atAccess s) p) (level t p)]
      ∧ (∃ k, t.script = s.script.drop k)
      ∧ t.ext = (atLastRead p s).ext
      ∧ (if fnField (atAccess s) p = 0b000#3 ∨ fnField (atAccess s) p = 0b001#3 then
          ∃ v, t.trace = s.trace ++ [.rd (addressOf s.cfg .fsel p).offset (fselReg (atAccess s) (p / 10)),
            .rd (addressOf s.cfg .lev p).offset v]
        else t.trace = s.trace ++ [.rd (addressOf s.cfg .fsel p).offset (fselReg (atAccess s) (p / 10))]) := by
  have hx := exec_enext_pin hr h hc hp
  by_cases hf : fnField (atAccess s) p = 0b000#3 ∨ fnField (atAccess s) p = 0b001#3
  · rw [if_pos hf] at hx
    refine ⟨_, hx, rfl, ⟨by simp [atLastRead, hf], by simp [atLastRead, hf]⟩,
      ⟨by simp, by simp, by simp, by simp, by simp, by simp, by simp⟩, ?_, ⟨2, by simp [← List.drop_one]⟩,
      by simp [atLastRead, hf], ?_⟩
    · rw [pinRecord_report hf]; simp
    · rw [if_pos hf]; exact ⟨_, by simp; rfl⟩
  · rw [if_neg hf] at hx
    refine ⟨_, hx, rfl, ⟨by simp [atLastRead, hf], by simp [atLastRead, hf]⟩,
      ⟨by simp, by simp, by simp, by simp, by simp, by simp, by simp⟩, ?_, ⟨1, by simp [← List.drop_one]⟩,
      by simp [atLastRead, hf], ?_⟩
    · rw [pinRecord_skip hf]; simp
    · rw [if_neg hf]; simp

end Sys2Proof.Machine
end

