-- ==== Sys2Proof/Laws/Exec.lean ====
section
/-! SUPPORT. What one command can do, under every bus script: it ends with its response, with an error taken, or abandoned
by reset, and in each case everything that its accesses keep holds of the state it leaves (rules R23, R101, R233, R263). -/

namespace Sys2Proof.Machine

variable {P D Q : State → Prop}

/-- What a command's accesses keep holds of it when it is done: also where `ENEXT` writes `ECUR`, the one register a
command writes outside the bank (rule R24), and it does so only when it is done. -/
structure CursorMay (P D : State → Prop) (i : Instr) : Prop where
  done : ∀ s, P s → D s
  moved : i = .enext → ∀ c s, cursorLegal s.cfg c = true → P s → D (setCursor c s)

/-- How a command ends: with its response, where `D` holds before it; with an error `E` allows, where `P` does; or
abandoned by reset, where `Q` does. -/
def CommandEnds (E : CmdError → Prop) (P D Q : State → Prop) (t : State) : Prop :=
  (∃ d0 d1 u, D u ∧ t = respond .ok d0 d1 u) ∨ (∃ e u, P u ∧ E e ∧ t = takeError e u) ∨ (∃ u, Q u ∧ t = resetEngine u)

/-- The errors a command can end with (rules R150, R231 to R233): a bus fault, and `OutOfRange` for a pin that does not
exist. -/
def ErrorOf (cfg : Config) (i : Instr) (e : CmdError) : Prop :=
  e = .hardwareFault ∨ (e = .outOfRange ∧ cfg.numPins ≤ i.pin ∧ i ≠ .enext)

/-- Which errors the operation can raise. -/
def Run.Raises {α : Type} (E : CmdError → Prop) : Run α → Prop
  | .raised e _ => E e
  | .done _ _ => True
  | .abandoned _ => True
  | .refused _ => True
  | .stuck _ => True

theorem Run.Raises.bind {α β : Type} {E : CmdError → Prop} {r : Run α} {k : α → State → Run β} (h : r.Raises E)
    (hk : ∀ a s, (k a s).Raises E) : (r.bind k).Raises E := by
  cases r with
  | done a s => exact hk a s
  | raised e s => exact h
  | abandoned s => trivial
  | refused w => trivial
  | stuck f => trivial

/-- A pin that exists raises nothing; the others raise `OutOfRange` (rule R150). -/
theorem checkPin_raises {E : CmdError → Prop} (p : Nat) (s : State) (h : s.cfg.numPins ≤ p → E .outOfRange) :
    (checkPin p s).Raises E := by
  unfold checkPin
  split
  · rename_i hp; exact h hp
  · trivial

theorem bankWrite_raises {E : CmdError → Prop} (off : Nat) (v : Word) (s : State) : (bankWrite off v s).Raises E := by
  unfold bankWrite; split <;> trivial

theorem bankRead_raises {E : CmdError → Prop} (off : Nat) (s : State) : (bankRead off s).Raises E := by
  unfold bankRead; split <;> trivial

theorem envActs_raises {E : CmdError → Prop} (acts : List EnvAct) (s : State) : (envActs acts s).Raises E := by
  induction acts generalizing s with
  | nil => trivial
  | cons a rest ih =>
    refine Run.Raises.bind ?_ fun _ s => ih s
    cases a with
    | line p l => trivial
    | busWrite off v => exact bankWrite_raises off v s
    | probe p => trivial

theorem busTurn_raises {E : CmdError → Prop} (s : State) : (busTurn s).Raises E := by
  unfold busTurn
  split
  · trivial
  · exact (envActs_raises _ _).bind fun _ _ => trivial

variable {E : CmdError → Prop}

/-- An access can raise `HardwareFault` alone (rules R137 to R139). -/
theorem memRead_raises (hE : E .hardwareFault) (off : Nat) (s : State) : (memRead off s).Raises E := by
  unfold memRead
  split
  · exact hE
  · refine (busTurn_raises s).bind fun a s => ?_
    cases a with
    | done => exact (bankRead_raises off s).bind fun _ _ => trivial
    | fault b => exact hE
    | reset => trivial
    | doneThenReset => exact (bankRead_raises off s).bind fun _ _ => trivial

theorem memWrite_raises (hE : E .hardwareFault) (off : Nat) (v : Word) (s : State) : (memWrite off v s).Raises E := by
  unfold memWrite
  split
  · exact hE
  · refine (busTurn_raises s).bind fun a s => ?_
    cases a with
    | done => exact (bankWrite_raises off v s).bind fun _ _ => trivial
    | fault b =>
      cases b with
      | true => exact (bankWrite_raises off v s).bind fun _ _ => hE
      | false => exact hE
    | reset => trivial
    | doneThenReset => exact (bankWrite_raises off v s).bind fun _ _ => trivial

theorem fselRmw_raises (hE : E .hardwareFault) (p : Nat) (m : Word) (s : State) : (fselRmw p m s).Raises E :=
  (memRead_raises hE _ _).bind fun _ _ => (memWrite_raises hE _ _ _).bind fun _ _ => trivial

theorem readPinField_raises (hE : E .hardwareFault) (f : Family) (p : Nat) (s : State) : (readPinField f p s).Raises E :=
  (memRead_raises hE _ _).bind fun _ _ => trivial

theorem ErrorOf.hardwareFault (cfg : Config) (i : Instr) : ErrorOf cfg i .hardwareFault := .inl rfl

theorem command_next {i : Instr} {s t : State} {body : State → Run (Word × Word)} (h : command i s body = .next t)
    (hi : (body (accept i s)).Raises E)
    (hb : Ready s → (body (accept i s)).Ends D P Q) : Ready s ∧ CommandEnds E P D Q t := by
  obtain ⟨hr, hf⟩ := ifReady_next h
  refine ⟨hr, ?_⟩
  have he := hb hr
  cases hd : body (accept i s) with
  | done d u => rw [hd] at hf he; cases hf; exact .inl ⟨d.1, d.2, u, he, rfl⟩
  | raised e u => rw [hd] at hf he hi; cases hf; exact .inr (.inl ⟨e, u, he, hi, rfl⟩)
  | abandoned u => rw [hd] at hf he; cases hf; exact .inr (.inr ⟨u, he, rfl⟩)
  | refused w => rw [hd] at hf; cases hf
  | stuck f => rw [hd] at hf; cases hf

/-- The inversion of `exec`: if it answers a next state, the engine was ready and the command ended in one of the three
ways, with everything its accesses keep. -/
theorem exec_next {i : Instr} {s t : State} (h : exec i s = .next t) (hk : Kept P Q) (hl : LogsEngine P)
    (hf : FixesConfig P s.cfg) (hw : StoresKept P Q s.cfg i) (hcur : CursorMay P D i)
    (hP : P (accept i s)) : Ready s ∧ CommandEnds (ErrorOf s.cfg i) P D Q t := by
  cases i with
  | addr f p =>
    simp only [exec, execAddr] at h
    exact command_next h ((checkPin_raises p _ fun hp => .inr ⟨rfl, hp, by simp⟩).bind fun _ _ => trivial)
      fun _ => checkPin_ends p hP fun _ => hcur.done _ hP
  | cfgin p =>
    simp only [exec, execCfgin] at h
    refine command_next h ((checkPin_raises p _ fun hp => .inr ⟨rfl, hp, by simp⟩).bind fun _ _ =>
      (fselRmw_raises (.hardwareFault _ _) _ _ _).bind fun _ _ => trivial) fun _ => checkPin_ends p hP fun hp => ?_
    exact (fselRmw_ends hk hl hf hp _ (fun v s => hw _ v s rfl hp) hP).bind fun _ _ h => hcur.done _ h
  | cfgout p l =>
    simp only [exec, execCfgout] at h
    refine command_next h ((checkPin_raises p _ fun hp => .inr ⟨rfl, hp, by simp⟩).bind fun _ _ =>
      (fselRmw_raises (.hardwareFault _ _) _ _ _).bind fun _ _ =>
      (memWrite_raises (.hardwareFault _ _) _ _ _).bind fun _ _ => trivial) fun _ => checkPin_ends p hP fun hp => ?_
    refine (fselRmw_ends hk hl hf hp _ (fun v s => hw _ v s (.inl rfl) hp) hP).bind fun _ u hu => ?_
    exact (levelWrite_ends hk hl hf hp l (fun s => hw _ _ s (.inr ⟨rfl, rfl⟩) hp) hu).bind fun _ _ h => hcur.done _ h
  | setlv p l =>
    simp only [exec, execSetlv] at h
    refine command_next h ((checkPin_raises p _ fun hp => .inr ⟨rfl, hp, by simp⟩).bind fun _ _ =>
      (memWrite_raises (.hardwareFault _ _) _ _ _).bind fun _ _ => trivial) fun _ => checkPin_ends p hP fun hp => ?_
    exact (levelWrite_ends hk hl hf hp l (fun s => hw _ _ s ⟨rfl, rfl⟩ hp) hP).bind fun _ _ h => hcur.done _ h
  | rdfn p =>
    simp only [exec, execRdfn] at h
    refine command_next h ((checkPin_raises p _ fun hp => .inr ⟨rfl, hp, by simp⟩).bind fun _ _ =>
      (readPinField_raises (.hardwareFault _ _) _ _ _).bind fun _ _ => trivial) fun _ => checkPin_ends p hP fun hp => ?_
    exact (readPinField_ends hk hl hf (.inl rfl) hp hP).bind fun _ _ h => hcur.done _ h
  | rdlv p =>
    simp only [exec, execRdlv] at h
    refine command_next h ((checkPin_raises p _ fun hp => .inr ⟨rfl, hp, by simp⟩).bind fun _ _ =>
      (readPinField_raises (.hardwareFault _ _) _ _ _).bind fun _ _ => trivial) fun _ => checkPin_ends p hP fun hp => ?_
    exact (readPinField_ends hk hl hf (.inr rfl) hp hP).bind fun _ _ h => hcur.done _ h
  | enext =>
    simp only [exec, execEnext] at h
    refine command_next h ?_ fun _ => ?_
    · cases (accept .enext s).ecur with
      | start => trivial
      | atPin k =>
        simp only
        split
        · refine (readPinField_raises (.hardwareFault _ _) _ _ _).bind fun f s => ?_
          split
          · exact (readPinField_raises (.hardwareFault _ _) _ _ _).bind fun _ _ => trivial
          · trivial
        · split <;> trivial
    · have hcur := hcur.moved rfl
      revert hP
      generalize accept .enext s = u
      intro hP
      have hk' : ∀ k w, k < u.cfg.numPins → P w → cursorLegal w.cfg (.atPin (k + 1)) = true := by
        intro k w hk hw
        simp only [cursorLegal, decide_eq_true_eq]
        rw [hf w hw, ← hf u hP]; omega
      cases u.ecur with
      | start => exact hcur _ _ rfl hP
      | atPin k =>
        simp only
        split
        · rename_i hlt
          have hlt' : k < s.cfg.numPins := by rw [← hf u hP]; exact hlt
          refine (readPinField_ends hk hl hf (.inl rfl) hlt' hP).bind fun f w hw => ?_
          split
          · exact (readPinField_ends hk hl hf (.inr rfl) hlt' hw).bind fun l x hx => hcur _ _ (hk' k x hlt hx) hx
          · exact hcur _ _ (hk' k w hlt hw) hw
        · split
          · exact hcur _ _ rfl hP
          · trivial

/-- What every command keeps, whatever the bus script: the configuration, `FAULTED`, the front-end's state, the ports'
histories, a trace that grows by accesses the engine may make, and samples that are added to (rules R28, R55, R71). -/
structure Framed (s t : State) : Prop where
  cfg : t.cfg = s.cfg
  faulted : t.faulted = s.faulted
  bind : t.bind = s.bind
  configured : t.configured = s.configured
  responses : t.responses = s.responses
  inputs : t.inputs = s.inputs
  replies : t.replies = s.replies
  trace : ∃ acc, t.trace = s.trace ++ acc ∧ ∀ a ∈ acc, EngineAccess s.cfg a
  probes : ∃ more, t.probes = s.probes ++ more

theorem framed_refl (s : State) (b : Option InFlight) : Framed s { s with busy := b } :=
  ⟨rfl, rfl, rfl, rfl, rfl, rfl, rfl, ⟨[], by simp, by simp⟩, [], by simp⟩

theorem framed_closed (s : State) : Closed (Framed s) where
  line _ _ _ h := ⟨by simp [h.cfg], by simp [h.faulted], by simp [h.bind], by simp [h.configured], by simp [h.responses],
    by simp [h.inputs], by simp [h.replies], by simpa using h.trace, by simpa using h.probes⟩
  probe p t h := ⟨by simp [h.cfg], by simp [h.faulted], by simp [h.bind], by simp [h.configured], by simp [h.responses],
    by simp [h.inputs], by simp [h.replies], by simpa using h.trace, by
      obtain ⟨more, hm⟩ := h.probes
      rw [probePin_probes]
      split
      · exact ⟨more ++ [seen p t], by simp [hm]⟩
      · exact ⟨more, hm⟩⟩
  fsel _ _ _ h := ⟨h.cfg, h.faulted, h.bind, h.configured, h.responses, h.inputs, h.replies, h.trace, h.probes⟩
  set _ _ _ h := ⟨h.cfg, h.faulted, h.bind, h.configured, h.responses, h.inputs, h.replies, h.trace, h.probes⟩
  clr _ _ _ h := ⟨h.cfg, h.faulted, h.bind, h.configured, h.responses, h.inputs, h.replies, h.trace, h.probes⟩
  draw _ h := ⟨h.cfg, h.faulted, h.bind, h.configured, h.responses, h.inputs, h.replies, h.trace, h.probes⟩
  script _ _ _ _ h := ⟨h.cfg, h.faulted, h.bind, h.configured, h.responses, h.inputs, h.replies, h.trace, h.probes⟩
  temp _ _ h := ⟨h.cfg, h.faulted, h.bind, h.configured, h.responses, h.inputs, h.replies, h.trace, h.probes⟩

theorem framed_logs (s : State) : LogsEngine (Framed s) := fun a t ha h =>
  ⟨h.cfg, h.faulted, h.bind, h.configured, h.responses, h.inputs, h.replies, by
    obtain ⟨acc, h1, h2⟩ := h.trace
    refine ⟨acc ++ [a], by simp [h1], fun b hb => ?_⟩
    rcases List.mem_append.mp hb with hb | hb
    · exact h2 b hb
    · rw [List.mem_singleton.mp hb, ← h.cfg]; exact ha, h.probes⟩

theorem framed_fixes (s : State) : FixesConfig (Framed s) s.cfg := fun _ h => h.cfg

theorem framed_cursor (s : State) (i : Instr) : CursorMay (Framed s) (Framed s) i :=
  ⟨fun _ h => h, fun _ _ _ _ h =>
    ⟨h.cfg, h.faulted, h.bind, h.configured, h.responses, h.inputs, h.replies, h.trace, h.probes⟩⟩

/-- The frame of `exec` for every command and every bus script. -/
theorem exec_framed {i : Instr} {s t : State} (h : exec i s = .next t) :
    Ready s ∧ CommandEnds (ErrorOf s.cfg i) (Framed s) (Framed s) (Framed s) t :=
  exec_next h ((framed_closed s).kept (.inl fun _ h => h)) (framed_logs s) (framed_fixes s)
    (fun off v _ _ _ h => (framed_closed s).bankWrite off v h) (framed_cursor s i) (framed_refl s _)

/-- Two predicates that everything keeps are kept together. -/
theorem Closed.and {P P' : State → Prop} (h : Closed P) (h' : Closed P') : Closed fun s => P s ∧ P' s where
  line p l s hs := ⟨h.line p l s hs.1, h'.line p l s hs.2⟩
  probe p s hs := ⟨h.probe p s hs.1, h'.probe p s hs.2⟩
  fsel j v s hs := ⟨h.fsel j v s hs.1, h'.fsel j v s hs.2⟩
  set j v s hs := ⟨h.set j v s hs.1, h'.set j v s hs.2⟩
  clr j v s hs := ⟨h.clr j v s hs.1, h'.clr j v s hs.2⟩
  draw s hs := ⟨h.draw s hs.1, h'.draw s hs.2⟩
  script t rest s ht hs := ⟨h.script t rest s ht hs.1, h'.script t rest s ht hs.2⟩
  temp t s hs := ⟨h.temp t s hs.1, h'.temp t s hs.2⟩

theorem noReset_closed : Closed NoReset where
  line p l s h := by simpa [NoReset] using h
  probe p s h := by simpa [NoReset] using h
  fsel _ _ _ h := h
  set _ _ _ h := h
  clr _ _ _ h := h
  draw _ h := h
  script t rest s hs h := fun x hx => h x (by rw [hs]; exact List.mem_cons_of_mem _ hx)
  temp _ _ h := h

theorem ecur_closed (c : Cursor) : Closed fun s => s.ecur = c where
  line p l s h := by simpa using h
  probe p s h := by simpa using h
  fsel _ _ _ h := h
  set _ _ _ h := h
  clr _ _ _ h := h
  draw _ h := h
  script _ _ _ _ h := h
  temp _ _ h := h

/-- Where no reset arrives a command ends with its response or an error, and `ECUR` is written by `ENEXT` alone, and not by
one that ends in an error (rules R24, R233). -/
theorem exec_noReset {i : Instr} {s t : State} (hn : NoReset s) (h : exec i s = .next t) :
    Ready s ∧ CommandEnds (ErrorOf s.cfg i) (fun u => Framed s u ∧ u.ecur = s.ecur)
      (fun u => Framed s u ∧ (i = .enext ∨ u.ecur = s.ecur)) (fun _ => False) t := by
  have hc := (framed_closed s).and ((ecur_closed s.ecur).and noReset_closed)
  obtain ⟨hr, he⟩ := exec_next (D := fun u => Framed s u ∧ (i = .enext ∨ u.ecur = s.ecur)) (Q := fun _ => False) h
    (hc.kept (.inr fun _ h => h.2.2)) (fun a u ha h => ⟨framed_logs s a u ha h.1, h.2⟩) (fun _ h => h.1.cfg)
    (fun off v _ _ _ h => hc.bankWrite off v h)
    ⟨fun _ h => ⟨h.1, .inr h.2.1⟩, fun hi c u hl h => ⟨(framed_cursor s i).moved hi c u hl h.1, .inl hi⟩⟩
    ⟨framed_refl s _, rfl, hn⟩
  refine ⟨hr, ?_⟩
  rcases he with he | ⟨e, u, hu, hE, rfl⟩ | he
  · exact .inl he
  · exact .inr (.inl ⟨e, u, ⟨hu.1, hu.2.1⟩, hE, rfl⟩)
  · exact .inr (.inr he)

/-- What the memories, the script and the cursor keep through a command. -/
structure Sound (s t : State) : Prop where
  cfg : t.cfg = s.cfg
  memory : Memory.Wf t.mem ∧ Memory.Wf t.lat ∧ Memory.Wf t.ext
  cursor : cursorLegal t.cfg t.ecur = true

theorem sound_closed (s : State) : Closed (Sound s) where
  line p l t h := ⟨by simp [h.cfg], ⟨by simpa using h.memory.1, by simpa using h.memory.2.1, by
    rw [setLine_ext]; split
    · exact setWord_wf h.memory.2.2 _ _
    · exact h.memory.2.2⟩, by simpa using h.cursor⟩
  probe p t h := ⟨by simp [h.cfg], by simpa using h.memory, by simpa using h.cursor⟩
  fsel _ _ _ h := ⟨h.cfg, ⟨setWord_wf h.memory.1 _ _, h.memory.2⟩, h.cursor⟩
  set _ _ _ h := ⟨h.cfg, ⟨h.memory.1, setWord_wf h.memory.2.1 _ _, h.memory.2.2⟩, h.cursor⟩
  clr _ _ _ h := ⟨h.cfg, ⟨h.memory.1, setWord_wf h.memory.2.1 _ _, h.memory.2.2⟩, h.cursor⟩
  draw _ h := ⟨h.cfg, h.memory, h.cursor⟩
  script _ _ _ _ h := ⟨h.cfg, h.memory, h.cursor⟩
  temp _ _ h := ⟨h.cfg, h.memory, h.cursor⟩

/-- The memories stay canonical and the cursor legal through a command, whatever the bus script. -/
theorem exec_sound {i : Instr} {s t : State} (h : exec i s = .next t)
    (hm : Memory.Wf s.mem ∧ Memory.Wf s.lat ∧ Memory.Wf s.ext) (hcur : cursorLegal s.cfg s.ecur = true) :
    Ready s ∧ CommandEnds (ErrorOf s.cfg i) (Sound s) (Sound s) (Sound s) t :=
  exec_next h ((sound_closed s).kept (.inl fun _ h => h)) (fun _ _ _ h => ⟨h.cfg, h.memory, h.cursor⟩) (fun _ h => h.cfg)
    (fun off v _ _ _ h => (sound_closed s).bankWrite off v h) ⟨fun _ h => h, fun _ _ _ hc h => ⟨h.cfg, h.memory, hc⟩⟩ ⟨rfl, hm, hcur⟩

/-- Every command waits for readiness first (rules R13, R26, R90), and what is not ready stops by name. -/
theorem exec_ifReady (i : Instr) (s : State) : ∃ go, exec i s = ifReady s go := by cases i <;> exact ⟨_, rfl⟩

theorem ifReady_stop {s : State} (go : Result) :
    (¬ ConfigOK s.cfg → ifReady s go = .refused .configNotOk)
    ∧ (ConfigOK s.cfg → s.busy ≠ none → ifReady s go = .fault .engineBusy)
    ∧ (ConfigOK s.cfg → s.busy = none → s.faulted = true → ifReady s go = .fault .engineFaulted) := by
  refine ⟨fun h => by simp [ifReady, h], fun h hb => ?_, fun h hb hf => by simp [ifReady, h, hb, hf]⟩
  have : s.busy.isSome = true := Option.isSome_iff_ne_none.mpr hb
  simp [ifReady, h, this]

end Sys2Proof.Machine
end

