-- ==== Sys2Proof/Laws/Frontend.lean ====
section
/-! SUPPORT. What a front-end command can do: a predicate that commands, rejected words and replies keep holds of the state
every text command, status query and enumeration read leaves (rules R200 to R207). -/

namespace Sys2Proof.Machine

/-- A command word runs a command or is rejected (rules R90, R98). -/
theorem present_cases {w : Word} {s t : State} (h : present w s = .next t) :
    (∃ i, exec i s = .next t) ∨ (Ready s ∧ t = takeError .invalidCommand s) := by
  unfold present at h
  split at h
  · exact .inl ⟨_, h⟩
  · obtain ⟨hr, h⟩ := ifReady_next h
    injection h with h
    exact .inr ⟨hr, h.symm⟩

/-- `P` is kept by commands, by rejected words and by replies. -/
structure FrontKeeps (P : State → Prop) : Prop where
  exec : ∀ i s t, exec i s = .next t → P s → P t
  reject : ∀ s, P s → P (takeError .invalidCommand s)
  reply : ∀ r s, P s → P (reply r s)

variable {P : State → Prop} {s t u : State}

theorem FrontKeeps.present (hk : FrontKeeps P) {w : Word} (h : present w s = .next t) (hs : P s) : P t := by
  rcases present_cases h with ⟨i, h⟩ | ⟨_, rfl⟩
  · exact hk.exec i s t h hs
  · exact hk.reject s hs

theorem FrontKeeps.issue (hk : FrontKeeps P) {i : Instr} {k : Response → State → Result} (h : issue i s k = .next t)
    (hs : P s) (hk' : ∀ r u, P u → k r u = .next t → P t) : P t := by
  unfold Machine.issue at h
  split at h
  · rename_i u hu
    have hu := hk.present hu hs
    split at h
    · exact hk' _ u hu h
    · injection h with h; exact h ▸ hu
  · cases h
  · cases h

theorem FrontKeeps.onOk (hk : FrontKeeps P) {r : Response} {good : Result} (h : onOk r u good = .next t) (hu : P u)
    (hg : good = .next t → P t) : P t := by
  unfold Machine.onOk at h
  split at h
  · exact hg h
  · injection h with h; exact h ▸ hk.reply _ _ hu

theorem FrontKeeps.text (hk : FrontKeeps P) {ch : Channel} {buf : List Byte} (h : dispatchText ch buf s = .next t)
    (hs : P s) : P t := by
  have h := (ifReady_next h).2
  split at h
  · refine hk.issue h hs fun r u hu h => ?_
    injection h with h; exact h ▸ hk.reply _ _ hu
  · injection h with h; exact h ▸ hk.reply _ _ hs

theorem FrontKeeps.query (hk : FrontKeeps P) {q : QueryTarget} (h : statusQuery q s = .next t) (hs : P s) : P t := by
  have h := (ifReady_next h).2
  split at h
  · injection h with h; exact h ▸ hk.reply _ _ hs
  · split at h
    · refine hk.issue h hs fun r u hu h => hk.onOk h hu fun h => ?_
      split at h
      · refine hk.issue h hu fun r u hu h => hk.onOk h hu fun h => ?_
        injection h with h; exact h ▸ hk.reply _ _ hu
      · injection h with h; exact h ▸ hk.reply _ _ hu
    · injection h with h; exact h ▸ hk.reply _ _ hs

theorem FrontKeeps.enum (hk : FrontKeeps P) (h : enumRead s = .next t) (hs : P s) : P t := by
  have h := (ifReady_next h).2
  refine hk.issue h hs fun r u hu h => hk.onOk h hu fun h => ?_
  injection h with h; exact h ▸ hk.reply _ _ hu

/-- An act of another agent keeps what the bank and the lines keep (rule R241). -/
theorem actInput_keeps (hc : Closed P) {a : EnvAct} (h : actInput a s = .next t) (hs : P s) : P t := by
  unfold actInput at h
  split at h
  · have he : (envAct a s).Ends P P P := by
      cases a with
      | line p l => exact hc.line _ _ _ hs
      | busWrite off v => exact hc.bankWrite off v hs
      | probe p => exact hc.probe _ _ hs
    cases hr : envAct a s <;> rw [hr] at h he <;> simp at h <;> exact h ▸ he
  · cases h

/-- The front-end goes on with the response of the command it issued (rules R90, R101). -/
theorem issue_next {i : Instr} {r : Response} {k : Response → State → Result} (hd : decode (encode i) = .legal i)
    (h : exec i s = .next u) (hr : u.responses = s.responses ++ [r]) : issue i s k = k r u := by
  have hn : newResponse s u = some r := by simp [newResponse, hr]
  simp only [issue, Machine.present, hd, h, hn]

/-- Where reset abandoned the command the front-end issued, its own command ends there too (rule R263). -/
theorem issue_abandoned {i : Instr} {k : Response → State → Result} (hd : decode (encode i) = .legal i)
    (h : exec i s = .next u) (hr : u.responses = s.responses) : issue i s k = .next u := by
  have hn : newResponse s u = none := by simp [newResponse, hr]
  simp only [issue, Machine.present, hd, h, hn]

end Sys2Proof.Machine
end

