-- ==== Sys2Proof/Laws/PerInstr.lean ====
section
/-! SUPPORT. Statements made once per command. Family `EncodedShape`: the word of a well-formed command lies in its row of
rule R97, "a word `w` is the command exactly when `w & mask = match`". -/

namespace Sys2Proof.Laws.EncodedShape

/-- The word of a command that fits one lies in the command's row. -/
def Statement (i : Instr) : Prop := i.WellFormed → (rowOf i).covers (encode i) = true

theorem addr (fam : Family) (pin : Nat) : Statement (.addr fam pin) := fun h => by
  rw [encode_eq, rowOf, Instr.pin, covers_pin_row (pinFits_iff.mp h) (by decide), encodeHigh_addr]
  cases fam <;> decide

theorem cfgin (pin : Nat) : Statement (.cfgin pin) := fun h => by
  rw [encode_eq, rowOf, Instr.pin, covers_pin_row (pinFits_iff.mp h) (by decide), encodeHigh_cfgin]
  decide

theorem cfgout (pin : Nat) (lvl : Level) : Statement (.cfgout pin lvl) := fun h => by
  rw [encode_eq, rowOf, Instr.pin, covers_pin_row (pinFits_iff.mp h) (by decide), encodeHigh_cfgout]
  cases lvl <;> decide

theorem setlv (pin : Nat) (lvl : Level) : Statement (.setlv pin lvl) := fun h => by
  rw [encode_eq, rowOf, Instr.pin, covers_pin_row (pinFits_iff.mp h) (by decide), encodeHigh_setlv]
  cases lvl <;> decide

theorem rdfn (pin : Nat) : Statement (.rdfn pin) := fun h => by
  rw [encode_eq, rowOf, Instr.pin, covers_pin_row (pinFits_iff.mp h) (by decide), encodeHigh_rdfn]
  decide

theorem rdlv (pin : Nat) : Statement (.rdlv pin) := fun h => by
  rw [encode_eq, rowOf, Instr.pin, covers_pin_row (pinFits_iff.mp h) (by decide), encodeHigh_rdlv]
  decide

theorem enext : Statement .enext := fun _ => rfl

end Sys2Proof.Laws.EncodedShape
end

