-- ==== Sys2Proof/Laws/Runs.lean ====
section
/-! SUPPORT. Lists of command words, one after the other (rules R267, R275): what one presented word does, which part of the
bus script a command uses up, and that every command is finished while the bus answers. -/

namespace Sys2Proof.Machine

variable {s t : State}

/-- A word presented next is run on the state before it was presented (rule R90). -/
theorem step_presentNext (w : Word) (s : State) : step (presentNext w s) = present w s := rfl

theorem runCommands_cons (w : Word) (rest : List Word) (h : present w s = .next t) :
    runCommands (w :: rest) s = runCommands rest t := by simp only [runCommands, step_presentNext, h]

theorem runCommands_cons_next {w : Word} {rest : List Word} (h : runCommands (w :: rest) s = .next t) :
    ∃ u, present w s = .next u ∧ runCommands rest u = .next t := by
  simp only [runCommands, step_presentNext] at h
  split at h
  · exact ⟨_, ‹_›, h⟩
  · cases h
  · cases h

/-- A list that ran ran its first words first. -/
theorem runCommands_append (ws vs : List Word) (h : runCommands (ws ++ vs) s = .next t) :
    ∃ u, runCommands ws s = .next u ∧ runCommands vs u = .next t := by
  induction ws generalizing s with
  | nil => exact ⟨s, rfl, h⟩
  | cons w ws ih =>
    obtain ⟨u, hu, h⟩ := runCommands_cons_next h
    obtain ⟨v, hv, hv'⟩ := ih h
    exact ⟨v, by rw [runCommands_cons w ws hu, hv], hv'⟩

/-- What is left of the bus script is a part of it. -/
def ScriptOf (s t : State) : Prop := ∃ k, t.script = s.script.drop k

theorem scriptOf_closed (s : State) : Closed (ScriptOf s) where
  line _ _ _ h := by simpa [ScriptOf] using h
  probe _ _ h := by simpa [ScriptOf] using h
  fsel _ _ _ h := h
  set _ _ _ h := h
  clr _ _ _ h := h
  draw _ h := h
  script t rest u hu h := by
    obtain ⟨k, hk⟩ := h
    refine ⟨k + 1, ?_⟩
    rw [← List.drop_drop, ← hk, hu]; rfl
  temp _ _ h := h

/-- A command uses up turns of the bus script from its front and changes none (rules R34, R57). -/
theorem exec_script {i : Instr} (h : exec i s = .next t) : ∃ k, t.script = s.script.drop k := by
  have hc := (framed_closed s).and (scriptOf_closed s)
  obtain ⟨_, he⟩ := exec_next (D := ScriptOf s) (Q := ScriptOf s) h (hc.kept (.inl fun _ h => h.2))
    (fun a u ha h => ⟨framed_logs s a u ha h.1, h.2⟩) (fun _ h => h.1.cfg)
    (fun off v _ _ _ h => (hc.bankWrite off v h)) ⟨fun _ h => h.2, fun _ _ _ _ h => h.2⟩ ⟨framed_refl s _, 0, rfl⟩
  rcases he with ⟨_, _, u, hu, rfl⟩ | ⟨_, u, hu, _, rfl⟩ | ⟨u, hu, rfl⟩
  · exact hu
  · exact hu.2
  · exact hu

/-- Every command is finished where the accesses complete, whatever the other agents do to the bank that the spec gives an
effect, and the engine stays healthy (rules R73, R233, R275). -/
theorem exec_completes (i : Instr) (hr : Ready s) (h : Answers s) (hc : cursorLegal s.cfg s.ecur = true) :
    ∃ t, exec i s = .next t ∧ t.faulted = false := by
  have hf := hr.2.2
  by_cases hp : i.pin < s.cfg.numPins ∨ i = .enext
  · cases i with
    | addr f p =>
      simp only [exec, execAddr, command_ready hr, checkPin]
      split <;> exact ⟨_, rfl, hf⟩
    | cfgin p =>
      have h1 : Answers (withScript s.script.tail s) := h.of_tail rfl rfl
      exact ⟨_, exec_cfgin_turns hr (hp.resolve_right nofun) h.turn h1.turn, by simpa using hf⟩
    | cfgout p l =>
      have h1 : Answers (withScript s.script.tail s) := h.of_tail rfl rfl
      have h2 : Answers (withScript s.script.tail.tail s) := h1.of_tail rfl rfl
      exact ⟨_, exec_cfgout_turns hr (hp.resolve_right nofun) l h.turn h1.turn h2.turn, by simpa using hf⟩
    | setlv p l => exact ⟨_, exec_setlv hr h (hp.resolve_right nofun) l, by simpa using hf⟩
    | rdfn p => exact ⟨_, exec_rdfn hr h (hp.resolve_right nofun), by simpa using hf⟩
    | rdlv p => exact ⟨_, exec_rdlv hr h (hp.resolve_right nofun), by simpa using hf⟩
    | enext =>
      cases he : s.ecur with
      | start => exact ⟨_, exec_enext_start hr he, hf⟩
      | atPin k =>
        have hk : k ≤ s.cfg.numPins := by simpa [cursorLegal, he] using hc
        rcases Nat.lt_or_eq_of_le hk with hk | rfl
        · exact ⟨_, exec_enext_pin hr h he hk, by split <;> simpa using hf⟩
        · exact ⟨_, exec_enext_end hr he, hf⟩
  · have ho := fun j => checkPin_out (s := accept j s) (p := i.pin) (Nat.le_of_not_lt fun hi => hp (.inl hi))
    cases i with
    | enext => exact (hp (.inr rfl)).elim
    | _ =>
      simp only [exec, execAddr, execCfgin, execCfgout, execSetlv, execRdfn, execRdlv, command_ready hr]
      simp only [Instr.pin] at ho
      simp only [ho, Run.bind, finish]
      exact ⟨_, rfl, hf⟩

end Sys2Proof.Machine
end

