-- ==== Sys2Proof/Laws/Text.lean ====
section
/-! SUPPORT. The texts of the front-end: tokens, decimal numbers and actions (rules R196 to R199, R216). -/

namespace Sys2Proof.Machine

/-- A run of bytes that are not whitespace joins the token begun. -/
theorem tokensFrom_run (cur x rest : List Byte) (hx : ∀ b ∈ x, isSpace b = false) :
    tokensFrom cur (x ++ rest) = tokensFrom (x.reverse ++ cur) rest := by
  induction x generalizing cur with
  | nil => rfl
  | cons b x ih =>
    simp only [List.cons_append, tokensFrom, hx b (by simp)]
    rw [if_neg (by simp), ih _ (fun b hb => hx b (by simp [hb]))]
    simp

/-- Whitespace with no token begun makes no token. -/
theorem tokensFrom_spaces (w rest : List Byte) (hw : ∀ b ∈ w, isSpace b = true) :
    tokensFrom [] (w ++ rest) = tokensFrom [] rest := by
  induction w with
  | nil => rfl
  | cons b w ih =>
    simp only [List.cons_append, tokensFrom, hw b (by simp), if_true]
    exact ih (fun b hb => hw b (by simp [hb]))

/-- Whitespace ends the token begun. -/
theorem tokensFrom_gap (cur w rest : List Byte) (hc : cur ≠ []) (hw : ∀ b ∈ w, isSpace b = true) (hne : w ≠ []) :
    tokensFrom cur (w ++ rest) = cur.reverse :: tokensFrom [] rest := by
  cases w with
  | nil => exact (hne rfl).elim
  | cons b w =>
    simp only [List.cons_append, tokensFrom, hw b (by simp), if_true, if_neg hc]
    rw [tokensFrom_spaces w rest (fun b hb => hw b (by simp [hb]))]

theorem tokensFrom_last (cur w : List Byte) (hc : cur ≠ []) (hw : ∀ b ∈ w, isSpace b = true) :
    tokensFrom cur w = [cur.reverse] := by
  cases w with
  | nil => simp [tokensFrom, hc]
  | cons b w =>
    have := tokensFrom_gap cur (b :: w) [] hc hw (by simp)
    simpa [tokensFrom] using this

/-- The whitespace bytes one by one (rule R196). -/
theorem isSpace_iff (b : Byte) : isSpace b = true ↔
    b = 0x20#8 ∨ b = 0x09#8 ∨ b = 0x0A#8 ∨ b = 0x0B#8 ∨ b = 0x0C#8 ∨ b = 0x0D#8 := by
  revert b; decide

/-- The first token of a buffer, and the tokens of what follows the whitespace after it (rule R196). -/
theorem tokens_cons (w0 x w1 rest : List Byte) (h0 : ∀ b ∈ w0, isSpace b = true) (hx : ∀ b ∈ x, isSpace b = false)
    (hne : x ≠ []) (h1 : ∀ b ∈ w1, isSpace b = true) (hw : w1 ≠ []) :
    tokens (w0 ++ x ++ w1 ++ rest) = x :: tokens rest := by
  simp only [tokens, List.append_assoc]
  rw [tokensFrom_spaces _ _ h0, tokensFrom_run _ _ _ hx, tokensFrom_gap _ _ _ (by simpa using hne) h1 hw]
  simp

/-- The three actions, byte for byte (rule R199). -/
theorem parseAction_iff (tok : List Byte) (act : Action) : parseAction tok = some act ↔ tok = actionText act := by
  unfold parseAction
  constructor
  · intro h
    split at h
    · cases h; assumption
    split at h
    · cases h; assumption
    split at h
    · cases h; assumption
    · cases h
  · rintro rfl; cases act <;> rfl

/-- What a pin token is (rule R198). -/
theorem parsePin_iff (np : Nat) (tok : List Byte) (n : Nat) : parsePin np tok = some n ↔
    tok ≠ [] ∧ (∀ b ∈ tok, 0x30#8 ≤ b ∧ b ≤ 0x39#8) ∧ decimalFrom 0 tok = n ∧ n < np := by
  unfold parsePin
  have : tok.all isDigit = true ↔ (∀ b ∈ tok, 0x30#8 ≤ b ∧ b ≤ 0x39#8) := by simp [List.all_eq_true, isDigit]
  simp only [this]
  constructor
  · intro h; split at h
    · rename_i h'; cases h; exact ⟨h'.1, h'.2.1, rfl, h'.2.2⟩
    · cases h
  · rintro ⟨h1, h2, rfl, h4⟩; rw [if_pos ⟨h1, h2, h4⟩]

theorem decimalFrom_append (acc : Nat) (a b : List Byte) :
    decimalFrom acc (a ++ b) = decimalFrom (decimalFrom acc a) b := by
  induction a generalizing acc with
  | nil => rfl
  | cons x a ih => simp [decimalFrom, ih]

theorem digit_val {d : Nat} (h : d < 10) : digitValue (BitVec.ofNat 8 (0x30 + d)) = d := by
  have : ∀ d : Nat, d < 10 → digitValue (BitVec.ofNat 8 (0x30 + d)) = d := by decide
  exact this d h

theorem digit_isDigit {d : Nat} (h : d < 10) : isDigit (BitVec.ofNat 8 (0x30 + d)) = true := by
  have : ∀ d : Nat, d < 10 → isDigit (BitVec.ofNat 8 (0x30 + d)) = true := by decide
  exact this d h

/-- The decimal digits of a number: some, all digits, of its value, and no leading zero (rule R216). -/
theorem digits_spec (fuel n : Nat) (h : n < fuel) :
    decimalDigits fuel n ≠ [] ∧ (decimalDigits fuel n).all isDigit = true
      ∧ decimalFrom 0 (decimalDigits fuel n) = n ∧ ((decimalDigits fuel n).head? = some 0x30#8 → n = 0) := by
  induction fuel generalizing n with
  | zero => omega
  | succ fuel ih =>
    unfold decimalDigits
    split
    · rename_i hn
      refine ⟨by simp, by simp [digit_isDigit hn], ?_, ?_⟩
      · simp only [decimalFrom]; rw [digit_val hn]; omega
      · intro hh
        have : ∀ d : Nat, d < 10 → BitVec.ofNat 8 (0x30 + d) = 0x30#8 → d = 0 := by decide
        exact this n hn (by simpa using hh)
    · rename_i hn
      obtain ⟨h1, h2, h3, h4⟩ := ih (n / 10) (by omega)
      have hd : n % 10 < 10 := by omega
      refine ⟨by simp, by rw [List.all_append, h2]; simp [digit_isDigit hd], ?_, ?_⟩
      · rw [decimalFrom_append, h3]; simp only [decimalFrom]; rw [digit_val hd]; omega
      · intro hh
        rw [List.head?_append_of_ne_nil _ h1] at hh
        have := h4 hh; omega

end Sys2Proof.Machine
end

