-- ==== Sys2Proof/Laws/Turns.lean ====
section
/-! SUPPORT. One turn of the bus script with no act before it, whatever the answer (rules R57, R139, R263): what an access
then does. -/

namespace Sys2Proof.Machine

variable {s : State} {p : Nat} {a : BusAnswer} {rest : List BusTurn}

theorem busTurn_cons (h : s.script = ⟨[], a⟩ :: rest) : busTurn s = .done a (withScript rest s) := by
  simp [busTurn, h, envActs, Run.bind]

/-- A read that does not complete (rule R137). -/
theorem memRead_fault (f : Family) (ok : ConfigOK s.cfg) (hp : p < s.cfg.numPins) {b : Bool}
    (h : s.script = ⟨[], .fault b⟩ :: rest) :
    memRead (addressOf s.cfg f p).offset s = .raised .hardwareFault (withScript rest s) := by
  simp [memRead, if_neg (addressOf_ok ok f hp), busTurn_cons h, Run.bind]

/-- A reset before the read is issued (rule R263). -/
theorem memRead_reset (f : Family) (ok : ConfigOK s.cfg) (hp : p < s.cfg.numPins) (h : s.script = ⟨[], .reset⟩ :: rest) :
    memRead (addressOf s.cfg f p).offset s = .abandoned (withScript rest s) := by
  simp [memRead, if_neg (addressOf_ok ok f hp), busTurn_cons h, Run.bind]

/-- An FSEL read that completes (rule R61). -/
theorem memRead_done (ok : ConfigOK s.cfg) (hp : p < s.cfg.numPins) (h : s.script = ⟨[], .done⟩ :: rest) :
    memRead (addressOf s.cfg .fsel p).offset s = .done (fselReg s (p / 10))
      (logAccess (.rd (addressOf s.cfg .fsel p).offset (fselReg s (p / 10))) (withScript rest s)) := by
  have hr := bankRead_fsel (s := withScript rest s) ok hp
  simp only [withScript_cfg] at hr
  simp [memRead, if_neg (addressOf_ok ok .fsel hp), busTurn_cons h, Run.bind, hr, fselReg]

/-- An FSEL read that completes just before a reset (rule R263). -/
theorem memRead_doneThenReset (ok : ConfigOK s.cfg) (hp : p < s.cfg.numPins) (h : s.script = ⟨[], .doneThenReset⟩ :: rest) :
    memRead (addressOf s.cfg .fsel p).offset s = .abandoned
      (logAccess (.rd (addressOf s.cfg .fsel p).offset (fselReg s (p / 10))) (withScript rest s)) := by
  have hr := bankRead_fsel (s := withScript rest s) ok hp
  simp only [withScript_cfg] at hr
  simp [memRead, if_neg (addressOf_ok ok .fsel hp), busTurn_cons h, Run.bind, hr, fselReg]

/-- What is left of a write once the bus has answered: `u` is the state with the write done (rules R138, R139). -/
def writeAnswered (acc : Access) (a : BusAnswer) (s u : State) : Run Unit :=
  match a with
  | .done => .done () (logAccess acc u)
  | .fault true => .raised .hardwareFault u
  | .fault false => .raised .hardwareFault s
  | .reset => .abandoned s
  | .doneThenReset => .abandoned (logAccess acc u)

theorem memWrite_turn {off : Nat} {v : Word} {u : State} (hoff : ¬ OffsetBad s.cfg off)
    (h : s.script = ⟨[], a⟩ :: rest) (hw : bankWrite off v (withScript rest s) = .done () u) :
    memWrite off v s = writeAnswered (.wr off v) a (withScript rest s) u := by
  simp only [memWrite, if_neg hoff, busTurn_cons h, Run.bind]
  cases a with
  | fault b => cases b <;> simp only [hw, writeAnswered]
  | _ => simp only [hw, writeAnswered]

theorem memWrite_fsel_turn (ok : ConfigOK s.cfg) (hp : p < s.cfg.numPins) (v : Word) (h : s.script = ⟨[], a⟩ :: rest) :
    memWrite (addressOf s.cfg .fsel p).offset v s =
      writeAnswered (.wr (addressOf s.cfg .fsel p).offset v) a (withScript rest s)
        (writeFsel (p / 10) v (withScript rest s)) :=
  memWrite_turn (addressOf_ok ok .fsel hp) h (bankWrite_fsel (s := withScript rest s) ok hp v)

theorem levelWrite_turn (ok : ConfigOK s.cfg) (hp : p < s.cfg.numPins) (l : Level) (h : s.script = ⟨[], a⟩ :: rest) :
    levelWrite p l s =
      writeAnswered (.wr (addressOf s.cfg (levelFamily l) p).offset (1#32 <<< (p % 32))) a (withScript rest s)
        (writeLevelReg l (p / 32) (1#32 <<< (p % 32)) (withScript rest s)) := by
  have hb : (addressOf s.cfg (levelFamily l) p).bitOffset = p % 32 := by cases l <;> simp [levelFamily, addressOf, ppr, bpp]
  rw [levelWrite, hb]
  exact memWrite_turn (addressOf_ok ok _ hp) h (bankWrite_level (s := withScript rest s) ok hp l _)

/-- The state between the read and the write-back of a read-modify-write: `T` holds the register (rule R151). -/
def midRmw (p : Nat) (rest : List BusTurn) (s : State) : State :=
  setTemp (some (fselReg s (p / 10)))
    (logAccess (.rd (addressOf s.cfg .fsel p).offset (fselReg s (p / 10))) (withScript rest s))

section
variable (p : Nat) (rest : List BusTurn) (s : State)

@[simp] theorem midRmw_cfg : (midRmw p rest s).cfg = s.cfg := rfl
@[simp] theorem midRmw_ecur : (midRmw p rest s).ecur = s.ecur := rfl
@[simp] theorem midRmw_faulted : (midRmw p rest s).faulted = s.faulted := rfl
@[simp] theorem midRmw_bind : (midRmw p rest s).bind = s.bind := rfl
@[simp] theorem midRmw_configured : (midRmw p rest s).configured = s.configured := rfl
@[simp] theorem midRmw_mem : (midRmw p rest s).mem = s.mem := rfl
@[simp] theorem midRmw_lat : (midRmw p rest s).lat = s.lat := rfl
@[simp] theorem midRmw_ext : (midRmw p rest s).ext = s.ext := rfl
@[simp] theorem midRmw_responses : (midRmw p rest s).responses = s.responses := rfl
@[simp] theorem midRmw_trace : (midRmw p rest s).trace =
    s.trace ++ [.rd (addressOf s.cfg .fsel p).offset (fselReg s (p / 10))] := rfl
@[simp] theorem midRmw_inputs : (midRmw p rest s).inputs = s.inputs := rfl
@[simp] theorem midRmw_script : (midRmw p rest s).script = rest := rfl
@[simp] theorem midRmw_replies : (midRmw p rest s).replies = s.replies := rfl
@[simp] theorem midRmw_draws : (midRmw p rest s).draws = s.draws := rfl
@[simp] theorem midRmw_probes : (midRmw p rest s).probes = s.probes := rfl
end

/-- The read-modify-write whose read completes: what is left is its write (rule R151). -/
theorem fselRmw_read (ok : ConfigOK s.cfg) (hp : p < s.cfg.numPins) (m : Word) (h : s.script = ⟨[], .done⟩ :: rest) :
    fselRmw p m s =
      (memWrite (addressOf s.cfg .fsel p).offset (replaceField (fselReg s (p / 10)) (3 * (p % 10)) 3 m)
        (midRmw p rest s)).bind fun _ s => .done () (setTemp none s) := by
  have hb : (addressOf s.cfg .fsel p).bitOffset = 3 * (p % 10) := by simp [addressOf, ppr, bpp, Nat.mul_comm]
  simp only [fselRmw, memRead_done ok hp h, Run.bind, logAccess_cfg, withScript_cfg, hb, midRmw]

/-- The read-modify-write whose read completes and whose write-back gets any answer (rules R139, R151, R263). -/
theorem fselRmw_turn (ok : ConfigOK s.cfg) (hp : p < s.cfg.numPins) (m : Word)
    (h : s.script = ⟨[], .done⟩ :: ⟨[], a⟩ :: rest) :
    fselRmw p m s =
      (writeAnswered
        (.wr (addressOf s.cfg .fsel p).offset (replaceField (fselReg s (p / 10)) (3 * (p % 10)) 3 m)) a
        (withScript rest (midRmw p (⟨[], a⟩ :: rest) s))
        (writeFsel (p / 10) (replaceField (fselReg s (p / 10)) (3 * (p % 10)) 3 m)
          (withScript rest (midRmw p (⟨[], a⟩ :: rest) s)))).bind fun _ s => .done () (setTemp none s) := by
  have hw := memWrite_fsel_turn (s := midRmw p (⟨[], a⟩ :: rest) s) ok hp
    (replaceField (fselReg s (p / 10)) (3 * (p % 10)) 3 m) rfl
  rw [fselRmw_read ok hp m h, ← midRmw_cfg p (⟨[], a⟩ :: rest) s, hw]

end Sys2Proof.Machine
end

