-- ==== Sys2Proof/Tests/Slice0.lean ====
section
/-! SUPPORT. Tests of the model, each one step or one function on a small state, with the expected value taken from
95_test_vectors.md (the vector is named beside the test) or worked out from the spec's encoding, and a witness for the
hypotheses of every obligation that has some. -/

namespace Sys2Proof.Tests
open Sys2Proof Sys2Proof.Machine

set_option maxRecDepth 4000

/-! ### Helpers -/

/-- The answer is a next state of which `p` holds. -/
def isNext (o : Result) (p : State → Bool) : Bool :=
  match o with
  | .next s => p s
  | _ => false

theorem next_of {o : Result} {p : State → Bool} (h : isNext o p = true) : ∃ t, o = .next t ∧ p t = true := by
  cases o with
  | next t => exact ⟨t, rfl, h⟩
  | fault f => cases h
  | refused r => cases h

/-- `NUM_PINS = 64`: every bit of a LEV register belongs to a pin, so no free bit is read. -/
def cfg64 : Config := { Config.reference with numPins := 64 }

/-- `NUM_PINS = 1`, the smallest engine. -/
def cfg1 : Config := { Config.reference with numPins := 1 }

/-- `NUM_PINS = 65534`, the largest engine (rule R13). -/
def cfgMax : Config := ⟨65534, 0, 0x8000, 0xA000, 0xC000, 0xE000, 0x20000000, .latchAlways⟩

/-- Latches and lines are independent of the function. -/
def cfgLatch : Config := { Config.reference with levModel := .latchAlways }

/-- After reset, with a configuration and one FSEL register. -/
def boot (cfg : Config) (j : Nat) (v : Word) : State := writeFsel j v { State.reset with cfg := cfg }

/-- `fsel[0] = 0x08FAC688`: pins 0 to 9 hold the raw fields 0, 1, 2, 3, 4, 5, 6, 7, 0, 1. -/
def ramp : State := boot Config.reference 0 0x08FAC688#32

/-- The bytes of an ASCII text. -/
def ascii (cs : List Char) : List Byte := cs.map fun c => BitVec.ofNat 8 c.toNat

/-- The response, the trace and nothing more of a command's next state. -/
def shows (r : Response) (tr : List Access) (t : State) : Bool := t.responses == [r] && t.trace == tr

/-! ### Well-formedness: one ill-formed term for each check -/

theorem test_pin_65536_has_no_word :
    Instr.wellFormed (.addr .lev 65536) = false ∧ Instr.wellFormed (.cfgin 65536) = false
    ∧ Instr.wellFormed (.cfgout 65536 .high) = false ∧ Instr.wellFormed (.setlv 65536 .low) = false
    ∧ Instr.wellFormed (.rdfn 65536) = false ∧ Instr.wellFormed (.rdlv 65536) = false := by decide

theorem test_pin_65535_has_a_word :
    Instr.wellFormed (.addr .lev 65535) = true ∧ Instr.wellFormed (.cfgin 65535) = true
    ∧ Instr.wellFormed (.cfgout 65535 .high) = true ∧ Instr.wellFormed (.setlv 65535 .low) = true
    ∧ Instr.wellFormed (.rdfn 65535) = true ∧ Instr.wellFormed (.rdlv 65535) = true
    ∧ Instr.wellFormed .enext = true := by decide

/-! ### Decoding: op[31:28] fam[27:26] lvl[25] rsv[24:16] pin[15:0], written out from rules R91 to R96 -/

theorem test_decode_addr :
    decode 0b0001_01_0_000000000_0000000000011111#32 = .legal (.addr .set 31)
    ∧ decode 0b0001_10_0_000000000_0000000000100000#32 = .legal (.addr .clr 32)
    ∧ decode 0b0001_11_0_000000000_1111111111111111#32 = .legal (.addr .lev 65535) := by decide

theorem test_decode_cfgin : decode 0b0010_00_0_000000000_1000000000010001#32 = .legal (.cfgin 32785) := by decide

theorem test_decode_cfgout :
    decode 0b0011_00_1_000000000_0000000000101111#32 = .legal (.cfgout 47 .high)
    ∧ decode 0b0011_00_0_000000000_0000000000101111#32 = .legal (.cfgout 47 .low) := by decide

theorem test_decode_setlv :
    decode 0b0100_00_1_000000000_0000000000011111#32 = .legal (.setlv 31 .high)
    ∧ decode 0b0100_00_0_000000000_0000000000110101#32 = .legal (.setlv 53 .low) := by decide

theorem test_decode_rdfn : decode 0b0101_00_0_000000000_0000000000000111#32 = .legal (.rdfn 7) := by decide

theorem test_decode_rdlv : decode 0b0110_00_0_000000000_0000000000000100#32 = .legal (.rdlv 4) := by decide

theorem test_decode_enext : decode 0b0111_00_0_000000000_0000000000000000#32 = .legal .enext := by decide

/-- V6.7 to V6.10: reserved operation codes. -/
theorem test_reserved_op_illegal :
    [0x00000000#32, 0x80000000#32, 0xF0000005#32, 0xFFFFFFFF#32, 0x90000005#32].all
      (fun w => decode w == .illegal .reservedOp) = true := by decide

/-- V6.11 to V6.21: a field that must be zero is not. -/
theorem test_nonzero_field_illegal :
    [0x24000005#32, 0x22000005#32, 0x20010005#32, 0x34000005#32, 0x52000005#32, 0x61000005#32, 0x70000001#32,
      0x72000000#32, 0x11000000#32, 0x12000000#32, 0x24000036#32].all
      (fun w => decode w == .illegal .fieldNotZero) = true := by decide

theorem test_table_word : decodeTableWord 32 0x32000005 = some (.cfgout 5 .high) ∧ decodeTableWord 32 0 = none := by decide

/-- V3.4, V4.4, V1.15: the words of the vectors. -/
theorem test_encode :
    encode (.cfgout 5 .high) = 0x32000005#32 ∧ encode (.setlv 53 .low) = 0x40000035#32
    ∧ encode (.addr .lev 47) = 0x1C00002F#32 ∧ encode .enext = 0x70000000#32 := by decide

/-! ### Configuration and bank -/

theorem test_configOk : configOk Config.reference = true ∧ configOk cfg1 = true ∧ configOk cfgMax = true := by decide

/-- Rule R13, a clause each: no pin, too many pins, a base not aligned, a region too short, two families overlapping. -/
theorem test_configOk_refuses :
    configOk { Config.reference with numPins := 0 } = false ∧ configOk { cfgMax with numPins := 65535 } = false
    ∧ configOk { Config.reference with setBase := 0x1D } = false
    ∧ configOk { Config.reference with regionBase := 2 } = false
    ∧ configOk { Config.reference with regionLen := 0x38 } = false
    ∧ configOk { Config.reference with clrBase := 0x20 } = false := by decide

/-- Rule R54: bits 7:0 at the lowest address. -/
theorem test_little_endian : byteAt (setWord [] 4 0x12345678#32) 4 = 0x78#8 ∧ byteAt (setWord [] 4 0x12345678#32) 7 = 0x12#8 := by
  decide

/-- Writing back what an unlisted address reads as leaves no cell. -/
theorem test_canonical : setWord (setWord [] 4 0x12345678#32) 4 0#32 = [] := by decide

/-- Rules R65, R66: a 1 bit acts, a 0 bit does not, and a bit of no pin does not. -/
theorem test_set_clr :
    (writeSet 1 0xFFFFFFFF#32 ramp).lat = setWord [] 4 0x003FFFFF#32
    ∧ (writeClr 1 0x00000001#32 (writeSet 1 0x00000003#32 ramp)).lat = setWord [] 4 0x00000002#32 := by decide

/-! ### One command each -/

/-- V1.4 and V1.9. -/
theorem test_addr :
    isNext (exec (.addr .fsel 17) State.reset) (shows ⟨.ok, 4#32, 0x315#32⟩ []) = true
    ∧ isNext (exec (.addr .fsel 53) State.reset) (shows ⟨.ok, 0x14#32, 0x309#32⟩ []) = true := by decide

/-- V1.12 and V1.17. -/
theorem test_addr_clr_and_range :
    isNext (exec (.addr .clr 31) State.reset) (shows ⟨.ok, 0x28#32, 0x11F#32⟩ []) = true
    ∧ isNext (exec (.addr .fsel 54) State.reset) (shows ⟨.outOfRange, 0#32, 0#32⟩ []) = true := by decide

/-- V3.1: bits 31:30 are written back as read. -/
theorem test_cfgin : isNext (exec (.cfgin 17) (boot Config.reference 1 0xFFFFFFFF#32))
    (shows ⟨.ok, 0#32, 0#32⟩ [.rd 0x04 0xFFFFFFFF#32, .wr 0x04 0xFF1FFFFF#32]) = true := by decide

/-- V3.2. -/
theorem test_cfgin_neighbours : isNext (exec (.cfgin 7) ramp) (fun t => fselReg t 0 == 0x081AC688#32) = true := by decide

/-- V3.4. -/
theorem test_cfgout_high : isNext (exec (.cfgout 5 .high) (boot Config.reference 0 0x12345678#32))
    (fun t => shows ⟨.ok, 0#32, 0#32⟩ [.rd 0 0x12345678#32, .wr 0 0x1234D678#32, .wr 0x1C 0x20#32] t && latch t 5) = true := by
  decide

/-- V3.9, from a state in which the latch of pin 53 is 1. -/
theorem test_cfgout_low : isNext (exec (.cfgout 53 .low) (writeSet 1 0x00600000#32 (boot Config.reference 5 0xFFFFFFFF#32)))
    (fun t => shows ⟨.ok, 0#32, 0#32⟩ [.rd 0x14 0xFFFFFFFF#32, .wr 0x14 0xFFFFF3FF#32, .wr 0x2C 0x00200000#32] t
      && !latch t 53) = true := by decide

/-- V4.2. -/
theorem test_setlv_high : isNext (exec (.setlv 31 .high) State.reset)
    (fun t => shows ⟨.ok, 0#32, 0#32⟩ [.wr 0x1C 0x80000000#32] t && latch t 31 && !latch t 30) = true := by decide

/-- V4.4. -/
theorem test_setlv_low : isNext (exec (.setlv 53 .low) (writeSet 1 0xFFFFFFFF#32 State.reset))
    (fun t => shows ⟨.ok, 0#32, 0#32⟩ [.wr 0x2C 0x00200000#32] t && !latch t 53 && latch t 52) = true := by decide

/-- V5.7 and V5.11. -/
theorem test_rdfn :
    isNext (exec (.rdfn 6) ramp) (shows ⟨.ok, 6#32, 0#32⟩ [.rd 0 0x08FAC688#32]) = true
    ∧ isNext (exec (.rdfn 47) (boot Config.reference 4 0x00E00492#32))
        (shows ⟨.ok, 7#32, 0#32⟩ [.rd 0x10 0x00E00492#32]) = true := by decide

/-- V4.9 and V4.10: an input shows its line under the default model, its latch under `LATCH_ALWAYS`. -/
theorem test_rdlv_model :
    isNext (exec (.rdlv 5) (setLine 5 .high State.reset)) (shows ⟨.ok, 1#32, 0#32⟩ [.rd 0x34 0x20#32]) = true
    ∧ isNext (exec (.rdlv 5) (writeSet 0 0x20#32 { State.reset with cfg := cfgLatch }))
        (shows ⟨.ok, 1#32, 0#32⟩ [.rd 0x34 0x20#32]) = true := by decide

/-- V4.7, with 64 pins so that the whole LEV register is fixed by the state. -/
theorem test_rdlv_output : isNext (exec (.rdlv 47) (writeSet 1 0x8000#32 (boot cfg64 4 0x00200492#32)))
    (shows ⟨.ok, 1#32, 0#32⟩ [.rd 0x38 0x00008000#32]) = true := by decide

/-- V7.1 and V7.4. -/
theorem test_enext_ends :
    isNext (exec .enext State.reset) (fun t => shows ⟨.ok, 0#32, 1#32⟩ [] t && t.ecur == .atPin 0) = true
    ∧ isNext (exec .enext { State.reset with ecur := .atPin 54 })
        (fun t => shows ⟨.ok, 0#32, 0#32⟩ [] t && t.ecur == .start) = true := by decide

/-- V7.6 and V7.7: a skipped pin without a LEV read, and a reported one. -/
theorem test_enext_pin :
    isNext (exec .enext { ramp with ecur := .atPin 4 })
        (fun t => shows ⟨.ok, 0#32, 3#32⟩ [.rd 0 0x08FAC688#32] t && t.ecur == .atPin 5) = true
    ∧ isNext (exec .enext { setLine 0 .high State.reset with ecur := .atPin 0 })
        (fun t => shows ⟨.ok, 0x01000000#32, 2#32⟩ [.rd 0 0#32, .rd 0x34 1#32] t && t.ecur == .atPin 1) = true := by decide

/-- V7.2, with 64 pins. -/
theorem test_enext_report : isNext (exec .enext { writeSet 1 0x8000#32 (boot cfg64 4 0x00200492#32) with ecur := .atPin 47 })
    (shows ⟨.ok, 0x0101002F#32, 2#32⟩ [.rd 0x10 0x00200492#32, .rd 0x38 0x00008000#32]) = true := by decide

/-! ### Errors, reset and other agents -/

/-- V6.1 and V6.7: the whole next state but the response port is as before. -/
theorem test_rejected :
    isNext (exec (.cfgin 54) ramp) (fun t => t == { ramp with responses := [⟨.outOfRange, 0#32, 0#32⟩] }) = true
    ∧ isNext (present 0#32 ramp) (fun t => t == { ramp with responses := [⟨.invalidCommand, 0#32, 0#32⟩] }) = true := by decide

/-- V6.22, the write landed. -/
theorem test_faulting_write : isNext
    (exec (.cfgout 5 .high) { boot Config.reference 0 0x12345678#32 with script := [⟨[], .done⟩, ⟨[], .done⟩, ⟨[], .fault true⟩] })
    (fun t => shows ⟨.hwFault, 0#32, 0#32⟩ [.rd 0 0x12345678#32, .wr 0 0x1234D678#32] t && t.faulted && latch t 5) = true := by
  decide

/-- V6.24. -/
theorem test_faulting_read : isNext (exec .enext { State.reset with ecur := .atPin 3, script := [⟨[], .fault false⟩] })
    (fun t => shows ⟨.hwFault, 0#32, 0#32⟩ [] t && t.faulted && t.ecur == .atPin 3) = true := by decide

/-- Program P5, seen from engine B: A's two writes are another agent's, and A's `CFGOUT 2` is undone (rule R77). -/
theorem test_lost_update : isNext
    (exec (.cfgout 3 .low) { State.reset with
      script := [⟨[], .done⟩, ⟨[.busWrite 0 0x40#32], .done⟩, ⟨[.busWrite 0x1C 4#32], .done⟩] })
    (fun t => fselReg t 0 == 0x200#32 && latch t 2 && !latch t 3) = true := by decide

/-- Rules R71, R156, from V3.4: before the read, before the write-back and before the level write of `CFGOUT 5, HIGH`. -/
theorem test_probe_between_accesses : isNext
    (exec (.cfgout 5 .high) { boot Config.reference 0 0x12345678#32 with
      script := [⟨[.probe 5], .done⟩, ⟨[.probe 5], .done⟩, ⟨[.probe 5, .probe 54], .done⟩] })
    (fun t => t.probes == [⟨5, 0b000#3, false⟩, ⟨5, 0b000#3, false⟩, ⟨5, 0b001#3, false⟩]
      && seen 5 t == ⟨5, 0b001#3, true⟩) = true := by decide

/-- Rule R80: a write before a command's first access, or after its last, is no matter; one in between is. -/
theorem test_hostSerializes :
    HostSerializes (.cfgin 5) { ramp with script := [⟨[.busWrite 0 7#32], .done⟩, ⟨[.probe 5], .done⟩, ⟨[.busWrite 0 7#32], .done⟩] }
    ∧ ¬ HostSerializes (.cfgin 5) { ramp with script := [⟨[], .done⟩, ⟨[.busWrite 0x1C 1#32], .done⟩] }
    ∧ HostSerializes (.cfgin 5) { ramp with script := [⟨[], .fault true⟩, ⟨[.busWrite 0 7#32], .done⟩] }
    ∧ HostSerializes (.setlv 5 .high) { ramp with script := [⟨[], .done⟩, ⟨[.busWrite 0x1C 1#32], .done⟩] }
    ∧ ¬ HostSerializes .enext { ramp with ecur := .atPin 9, script := [⟨[], .done⟩, ⟨[.busWrite 0x1C 1#32], .done⟩] } := by
  decide

/-- Rule R261: from a faulted state, with a session and bindings under way. -/
theorem test_reset_step : isNext
    (step { ramp with faulted := true, ecur := .atPin 9, bind := [⟨pinName 3, 3⟩], inputs := [.reset cfg64] })
    (fun t => !t.faulted && t.ecur == .start && t.bind == [] && fselReg t 0 == 0x08FAC688#32) = true := by decide

/-- A presented word is what the next step runs. -/
theorem test_withFetchWord : isNext (step (State.reset.withFetchWord 32 0x32000005))
    (fun t => t.trace == [.rd 0 0#32, .wr 0 0x8000#32, .wr 0x1C 0x20#32] && t.inputs == []) = true := by decide

/-! ### The front-end -/

/-- V8.1, V8.5, V8.13. -/
theorem test_text_accepted :
    isNext (dispatchText .unbound (ascii [' ', ' ', '0', '5', ' ', '\t', 'h', 'i', 'g', 'h', ' ']) State.reset)
      (fun t => t.trace == [.rd 0 0#32, .wr 0 0x8000#32, .wr 0x1C 0x20#32] && t.replies == [.ok]) = true
    ∧ isNext (dispatchText (.bound (pinName 7)) (ascii ['l', 'o', 'w']) { State.reset with bind := [⟨pinName 7, 7⟩] })
      (fun t => t.trace == [.rd 0 0#32, .wr 0 0x200000#32, .wr 0x28 0x80#32] && t.replies == [.ok]) = true := by decide

/-- V8.2, V8.7 to V8.12 and the second half of V8.13. -/
theorem test_text_rejected :
    (∀ buf ∈ [['5', ' ', 'b', 'o', 'g', 'u', 's'], ['5', '4', ' ', 'i', 'n'], ['h', 'i', 'g', 'h'], [],
        ['5', ' ', 'i', 'n', ' ', 'n', 'o', 'w'], ['-', '5', ' ', 'i', 'n'], ['+', '5', ' ', 'i', 'n'],
        ['0', 'x', '5', ' ', 'i', 'n'], ['5', ' ', 'H', 'I', 'G', 'H'], ['5', ' ', 'o', 'u', 't']],
      parseText State.reset .unbound (ascii buf) = none)
    ∧ parseText { State.reset with bind := [⟨pinName 7, 7⟩] } (.bound (pinName 7)) (ascii ['7', ' ', 'l', 'o', 'w']) = none := by
  decide

/-- V8.15, V8.16. -/
theorem test_status_line :
    isNext (statusQuery (.named 5) (setLine 5 .high State.reset))
      (fun t => t.replies == [.line (ascii ['i', 'n', 'p', 'u', 't', ':', ' ', '1'])]) = true
    ∧ isNext (statusQuery (.named 5) (boot Config.reference 0 0x8000#32))
      (fun t => t.replies == [.line (ascii ['o', 'u', 't', 'p', 'u', 't', ':', ' ', '0'])]) = true := by decide

/-- V8.18, V8.23. -/
theorem test_status_not_io :
    isNext (statusQuery (.named 4) ramp) (fun t => t.replies == [.line (ascii ['N', 'o', 't', ' ', 'i', 'n', 'p', 'u', 't',
      '/', 'o', 'u', 't', 'p', 'u', 't', ' ', 'p', 'i', 'n', '!'])] && t.trace.length == 1) = true
    ∧ isNext (statusQuery (.named 54) ramp)
      (fun t => t.replies == [.outOfRange] && t.responses == [⟨.outOfRange, 0#32, 0#32⟩]) = true := by decide

/-- V8.19, V8.20, V8.21. -/
theorem test_configure :
    pinName 53 = ascii ['g', 'p', 'i', 'o', '5', '3'] ∧ pinName 0 = ascii ['g', 'p', 'i', 'o', '0']
    ∧ isNext (configure [3, 7, 3] State.reset) (fun t => t.bind == [⟨pinName 3, 3⟩, ⟨pinName 7, 7⟩, ⟨pinName 3, 3⟩]
        && lookup t.bind (ascii ['g', 'p', 'i', 'o', '3']) == some 3 && lookup t.bind (pinName 4) == none) = true
    ∧ isNext (configure [3, 54] State.reset) (fun t => t.bind == [] && t.replies == [.outOfRange]) = true := by decide

/-- An enumeration read at the end produces no byte (rule R207). -/
theorem test_enum_read : isNext (enumRead { State.reset with ecur := .atPin 54 })
    (fun t => t.replies == [.enumerated .fin []]) = true := by decide

/-! ### Witnesses: for each obligation with hypotheses, a state and operands that meet them -/

/-- The state with one input waiting. -/
abbrev fed (i : Input) (s : State) : State := { s with inputs := [i] }

/-- The state with a bus script. -/
abbrev scripted (ts : List BusTurn) (s : State) : State := { s with script := ts }

/-- The premises of the statements about results. -/
abbrev Premises (s : State) (p : Nat) : Prop := Ready s ∧ AccessesComplete s ∧ WritesDefined s ∧ p < s.cfg.numPins

/-- Before the engine's first access the line of pin 31 moves and another agent writes FSEL register 0; before the second,
lines move and pin 9 is probed; before the third and the fourth, other agents write other registers (SET 1, CLR 1 and FSEL 1
in the reference map). -/
def lively (cfg : Config) : State :=
  { boot cfg 0 7#32 with
    script := [⟨[.line 31 .high, .busWrite 0 0x08FAC688#32], .done⟩, ⟨[.line 53 .high, .line 31 .low, .probe 9], .done⟩,
      ⟨[.line 9 .high], .done⟩, ⟨[.busWrite 0x20 1#32, .busWrite 4 9#32], .done⟩, ⟨[.busWrite 0x2C 1#32], .done⟩] }

/-- The same with the lines and the probes alone. -/
def calm (cfg : Config) : State :=
  { boot cfg 0 0x08FAC688#32 with
    script := [⟨[.line 31 .high], .done⟩, ⟨[.line 53 .high, .line 31 .low, .probe 9], .done⟩] }

theorem witness_premises :
    (∀ p ∈ [0, 9, 10, 31, 32, 53], Premises (lively Config.reference) p) ∧ Premises (calm cfg1) 0
    ∧ Premises (calm cfgMax) 65533 := by decide

theorem witness_CfginClearsField :
    (Premises (lively Config.reference) 53 ∧ HostSerializes (.cfgin 53) (lively Config.reference))
    ∧ (Premises (lively Config.reference) 0 ∧ HostSerializes (.cfgin 0) (lively Config.reference)) := by decide
theorem witness_CfgoutSetsFieldThenLevel :
    Premises (lively Config.reference) 32 ∧ HostSerializes (.cfgout 32 .high) (lively Config.reference) := by decide
theorem witness_SetlvDrivesLatch : Premises (lively Config.reference) 31 := by decide
theorem witness_RdfnReturnsField : Premises (lively Config.reference) 9 := by decide
theorem witness_RdlvReturnsLevel :
    Premises (lively Config.reference) 53 ∧ 31 / 32 = 0 / 32 ∧ Premises (calm cfgMax) 65533 := by decide
theorem witness_PinControllerSummary :
    Premises (calm cfg1) 0 ∧ HostSerializes (.cfgin 0) (calm cfg1) ∧ HostSerializes (.cfgout 0 .low) (calm cfg1) := by decide
theorem witness_CfginThenRdfnIsInput :
    Premises (lively Config.reference) 0
    ∧ ∃ t, exec (.cfgin 0) (lively Config.reference) = .next t
      ∧ (decide (Untouched [(addressOf Config.reference .fsel 0).offset] t.script) && t.script.length == 3) = true :=
  ⟨by decide, next_of (by decide)⟩
theorem witness_CfgoutThenReadsBack :
    Premises (lively Config.reference) 0 ∧ Untouched [0x00] (lively Config.reference).script.tail.tail
    ∧ (∃ t, exec (.cfgout 0 .high) (lively Config.reference) = .next t
      ∧ (decide (Untouched [0x00, 0x1C, 0x28] t.script) && t.script.length == 2
        && isNext (exec (.rdfn 0) t) fun u => decide (Untouched [0x00, 0x1C, 0x28] u.script) && u.script.length == 1) = true)
    ∧ (addressOf Config.reference .fsel 0).offset = 0x00 ∧ (addressOf Config.reference .set 0).offset = 0x1C
    ∧ (addressOf Config.reference .clr 0).offset = 0x28 :=
  ⟨by decide, by decide, next_of (by decide), by decide⟩
theorem witness_SetlvThenRdlvReadsLevel :
    (Premises (lively cfgLatch) 53 ∧ (lively cfgLatch).cfg.levModel = .latchAlways
      ∧ ∃ t, exec (.setlv 53 .high) (lively cfgLatch) = .next t ∧ (decide (Untouched [0x20, 0x2C] t.script)) = true)
    ∧ (Premises (lively Config.reference) 9
      ∧ ∃ t, exec (.setlv 9 .low) (lively Config.reference) = .next t
        ∧ (decide (Untouched [0x1C, 0x28] t.script) && fnField (atAccess t) 9 == 0b001#3) = true)
    ∧ (addressOf Config.reference .set 53).offset = 0x20 ∧ (addressOf Config.reference .clr 53).offset = 0x2C :=
  ⟨⟨by decide, by decide, next_of (by decide)⟩, ⟨by decide, next_of (by decide)⟩, by decide⟩
theorem witness_LevelWritesCommute :
    (Premises (lively Config.reference) 31 ∧ Premises (lively Config.reference) 32 ∧ (31 : Nat) ≠ 32
      ∧ Untouched [0x1C, 0x28, 0x20, 0x2C] (lively Config.reference).script.tail)
    ∧ Premises (lively Config.reference) 53 := by decide

theorem witness_DecodeEncodeAgree :
    Instr.WellFormed (.cfgout 65535 .high) ∧ Instr.WellFormed .enext ∧ decode 0x1C00FFFF#32 = .legal (.addr .lev 65535) := by decide
theorem witness_OperandsAreWordFields :
    decode 0x1C00FFFF#32 = .legal (.addr .lev 65535) ∧ decode 0x3200FFFF#32 = .legal (.cfgout 65535 .high)
    ∧ decode 0x40000000#32 = .legal (.setlv 0 .low) ∧ decode 0x2000FFFF#32 = .legal (.cfgin 65535)
    ∧ decode 0x50000000#32 = .legal (.rdfn 0) ∧ decode 0x6000FFFF#32 = .legal (.rdlv 65535) := by decide
theorem witness_IllegalWordRejected :
    (Ready (fed (.command 0x24000036#32) ramp) ∧ (fed (.command 0x24000036#32) ramp).inputs = [.command 0x24000036#32]
      ∧ ∀ r ∈ opRows, 0x24000036#32 &&& r.mask ≠ r.bits)
    ∧ (0x00000005#32).extractLsb' 28 4 = 0x0#4 ∧ 0x8#4 ≤ (0x80000000#32).extractLsb' 28 4
    ∧ 0x8#4 ≤ (0xFFFFFFFF#32).extractLsb' 28 4 := by decide

theorem witness_StepRunsDecodedCommand :
    (fed (.command 0x32000005#32) ramp).inputs = .command 0x32000005#32 :: [] ∧ decode 0x32000005#32 = .legal (.cfgout 5 .high) := by
  decide
theorem witness_PresentedWordRuns : Instr.WellFormed (.setlv 65535 .low) := by decide
theorem witness_CommandsNeedReadiness :
    (∃ t, exec (.cfgin 3) ramp = .next t ∧ t.responses == [okResponse])
    ∧ ¬ ConfigOK { ramp with cfg := { ramp.cfg with numPins := 0 } }.cfg
    ∧ (ConfigOK ramp.cfg ∧ { ramp with busy := some ⟨.cfgin 3, some 0x08FAC688#32⟩ }.busy ≠ none)
    ∧ (ConfigOK ramp.cfg ∧ ramp.busy = none ∧ { ramp with faulted := true }.faulted = true) :=
  ⟨next_of (p := fun t => t.responses == [okResponse]) (by decide), by decide, by decide, by decide⟩
theorem witness_OnlyResetLeavesFaulted :
    (∃ t, step { ramp with faulted := true, inputs := [.reset cfg1] } = .next t ∧ (!t.faulted) = true)
    ∧ (∃ t, step { ramp with faulted := true, inputs := [.act (.line 53 .high)] } = .next t ∧ t.faulted = true) :=
  ⟨next_of (by decide), next_of (by decide)⟩
theorem witness_IdleEngineStays : Ready { ramp with ecur := .atPin 54 } ∧ { ramp with ecur := .atPin 54 }.inputs = [] := by decide
theorem witness_ConfigChangesOnlyAtReset :
    (∃ t, step { ramp with inputs := [.command 0x30000035#32] } = .next t ∧ (t.cfg == ramp.cfg) = true)
    ∧ ∀ cfg rest, [Input.command 0x30000035#32] ≠ .reset cfg :: rest :=
  ⟨next_of (by decide), by simp⟩

theorem witness_ResetRestoresEngine :
    ({ ramp with faulted := true, busy := some ⟨.cfgin 3, none⟩, inputs := [.reset cfgMax] }).inputs = [.reset cfgMax]
    ∧ ConfigOK cfgMax := by decide
theorem witness_ResetBetweenAccesses :
    (∀ ts ∈ [[⟨[], .done⟩, ⟨[], .reset⟩], [⟨[], .doneThenReset⟩], [⟨[], .done⟩, ⟨[], .done⟩, ⟨[], .reset⟩],
        [(⟨[], .done⟩ : BusTurn), ⟨[], .doneThenReset⟩]],
      Ready (scripted ts ramp) ∧ 53 < (scripted ts ramp).cfg.numPins ∧ (scripted ts ramp).script = ts
      ∧ Ready (scripted ts (lively cfg1)) ∧ 0 < (scripted ts (lively cfg1)).cfg.numPins)
    ∧ (Ready (scripted [⟨[], .doneThenReset⟩] { ramp with ecur := .atPin 9 })
      ∧ (scripted [⟨[], .doneThenReset⟩] { ramp with ecur := .atPin 9 }).ecur = .atPin 9
      ∧ fnField (scripted [⟨[], .doneThenReset⟩] { ramp with ecur := .atPin 9 }) 9 = 0b001#3) := by decide

theorem witness_FieldNeverCrossesRegister :
    (ConfigOK Config.reference ∧ 53 < Config.reference.numPins) ∧ (ConfigOK cfg1 ∧ 0 < cfg1.numPins)
    ∧ (ConfigOK cfgMax ∧ 65533 < cfgMax.numPins) := by decide
theorem witness_OffsetNamesOneRegister :
    (ConfigOK Config.reference ∧ 31 < Config.reference.numPins ∧ 32 < Config.reference.numPins)
    ∧ (ConfigOK cfgMax ∧ 0 < cfgMax.numPins ∧ 65533 < cfgMax.numPins) := by decide
theorem witness_AddrResult :
    Ready ramp ∧ 0 < ramp.cfg.numPins ∧ 53 < ramp.cfg.numPins ∧ ramp.cfg.numPins ≤ 54 ∧ ramp.cfg.numPins ≤ 65535 := by decide
theorem witness_PinOutOfRangeRejected : Ready ramp ∧ ramp.cfg.numPins ≤ 54 ∧ (lively cfg1).cfg.numPins ≤ 1 := by decide

/-- The state has the act as its next input. -/
def acted (a : EnvAct) : State := fed (.act a) ramp

theorem witness_BankWriteByFamily :
    (ConfigOK (acted (.busWrite 0x14 1#32)).cfg ∧ (acted (.busWrite 0x14 1#32)).inputs = [.act (.busWrite 0x14 1#32)]
      ∧ 5 < nregs ramp.cfg .fsel ∧ 0x14 = ramp.cfg.fselBase + 4 * 5)
    ∧ ((acted (.busWrite 0x20 1#32)).inputs = [.act (.busWrite 0x20 1#32)] ∧ 1 < nregs ramp.cfg .set ∧ 0x20 = ramp.cfg.setBase + 4 * 1)
    ∧ ((acted (.busWrite 0x28 1#32)).inputs = [.act (.busWrite 0x28 1#32)] ∧ 0 < nregs ramp.cfg .clr ∧ 0x28 = ramp.cfg.clrBase + 4 * 0)
    ∧ ((acted (.busWrite 0x38 1#32)).inputs = [.act (.busWrite 0x38 1#32)] ∧ 1 < nregs ramp.cfg .lev ∧ 0x38 = ramp.cfg.levBase + 4 * 1) := by
  decide
theorem witness_BankWriteByFamily_offRegister :
    (acted (.busWrite 0x18 1#32)).inputs = [.act (.busWrite 0x18 1#32)]
    ∧ ∀ f, ¬ IsRegister (acted (.busWrite 0x18 1#32)).cfg f 0x18 := by
  refine ⟨rfl, fun f => ?_⟩
  cases f <;> rintro ⟨j, hj, h⟩ <;>
    simp [acted, ramp, boot, writeFsel, Config.reference, nregs, base, ppr] at hj h <;> omega
theorem witness_EnvironmentMovesLine : ConfigOK (acted (.line 53 .high)).cfg
    ∧ (acted (.line 53 .high)).inputs = [.act (.line 53 .high)] ∧ 53 < (acted (.line 53 .high)).cfg.numPins := by decide
theorem witness_BadOffsetFaults :
    0x35 % 4 ≠ 0 ∧ ramp.cfg.regionLen < 0x3C + 4 ∧ ¬ (ramp.cfg.regionLen < 0x38 + 4) := by decide

theorem witness_FaultingReadEndsCommand :
    (Ready (scripted [⟨[], .fault true⟩] { ramp with ecur := .atPin 53 }) ∧ 53 < ramp.cfg.numPins
      ∧ (scripted [⟨[], .fault true⟩] { ramp with ecur := .atPin 53 }).script = [⟨[], .fault true⟩]
      ∧ (scripted [⟨[], .fault true⟩] { ramp with ecur := .atPin 53 }).ecur = .atPin 53)
    ∧ (Ready (scripted [⟨[], .done⟩, ⟨[], .fault false⟩] { ramp with ecur := .atPin 9 })
      ∧ (scripted [⟨[], .done⟩, ⟨[], .fault false⟩] { ramp with ecur := .atPin 9 }).script = [⟨[], .done⟩, ⟨[], .fault false⟩]
      ∧ (scripted [⟨[], .done⟩, ⟨[], .fault false⟩] { ramp with ecur := .atPin 9 }).ecur = .atPin 9
      ∧ fnField (scripted [⟨[], .done⟩, ⟨[], .fault false⟩] { ramp with ecur := .atPin 9 }) 9 = 0b001#3) := by decide
theorem witness_FaultingWriteAdmitsBoth :
    (Ready (scripted [⟨[], .fault false⟩] ramp) ∧ 53 < ramp.cfg.numPins
      ∧ (scripted [⟨[], .fault false⟩] ramp).script = ⟨[], .fault false⟩ :: [])
    ∧ (Ready (scripted [⟨[], .done⟩, ⟨[], .fault true⟩] ramp)
      ∧ (scripted [⟨[], .done⟩, ⟨[], .fault true⟩] ramp).script = ⟨[], .done⟩ :: ⟨[], .fault true⟩ :: [])
    ∧ (Ready (scripted [⟨[], .done⟩, ⟨[], .done⟩, ⟨[], .fault true⟩] ramp)
      ∧ (scripted [⟨[], .done⟩, ⟨[], .done⟩, ⟨[], .fault true⟩] ramp).script = ⟨[], .done⟩ :: ⟨[], .done⟩ :: ⟨[], .fault true⟩ :: []) := by
  decide

/-- A command meets the premise `NoReset` and completes, in spite of another master's write and a fault. -/
theorem witness_OneResponsePerCommand :
    (NoReset { ramp with script := [⟨[.busWrite 0 7#32], .done⟩, ⟨[], .fault true⟩] }
      ∧ ∃ t, exec (.cfgin 9) { ramp with script := [⟨[.busWrite 0 7#32], .done⟩, ⟨[], .fault true⟩] } = .next t ∧ t.faulted = true)
    ∧ (NoReset ramp ∧ ∃ t, exec (.rdfn 9) ramp = .next t ∧ (!t.faulted) = true) :=
  ⟨⟨by decide, next_of (by decide)⟩, by decide, next_of (by decide)⟩
theorem witness_OutOfRangeChangesNothing :
    ∃ t, exec (.setlv 54 .high) ramp = .next t ∧ (t.responses == ramp.responses ++ [errorResponse .outOfRange]) = true :=
  next_of (by decide)
theorem witness_EngineAccessesOnly :
    ∃ t, exec (.cfgout 53 .low) ramp = .next t ∧ (t.trace.length == 3) = true := next_of (by decide)
theorem witness_CommandKeepsEngineFrame :
    NoReset ramp ∧ ∃ t, exec (.cfgout 0 .high) ramp = .next t ∧ (t.trace.length == 3) = true := ⟨by decide, next_of (by decide)⟩
theorem witness_CommandKeepsBankFrame :
    (HostSerializes (.cfgout 53 .high) (lively Config.reference)
      ∧ ∃ t, exec (.cfgout 53 .high) (lively Config.reference) = .next t ∧ latch t 53 = true)
    ∧ (HostSerializes .enext { lively Config.reference with ecur := .atPin 53 }
      ∧ ∃ t, exec .enext { lively Config.reference with ecur := .atPin 53 } = .next t ∧ (t.trace.length == 2) = true)
    ∧ (HostSerializes (.addr .lev 0) (lively Config.reference)
      ∧ ∃ t, exec (.addr .lev 0) (lively Config.reference) = .next t ∧ (t.trace.length == 0) = true) :=
  ⟨⟨by decide, next_of (by decide)⟩, ⟨by decide, next_of (by decide)⟩, ⟨by decide, next_of (by decide)⟩⟩
theorem witness_OnlyEnextMovesCursor :
    Instr.rdlv 0 ≠ .enext ∧ NoReset ramp ∧ ∃ t, exec (.rdlv 0) ramp = .next t ∧ (t.trace.length == 1) = true :=
  ⟨by decide, by decide, next_of (by decide)⟩
theorem witness_ForeignWriteLost :
    (Ready ramp ∧ 53 < ramp.cfg.numPins
      ∧ (∀ a ∈ [.busWrite 0x14 7#32, .line 31 .high] ++ [.probe 9, .busWrite 0x14 0xFFFFFFFF#32, .busWrite 0x20 1#32],
        actDefined ramp.cfg a = true)
      ∧ (∀ u ∈ [(⟨[.probe 53, .busWrite 0x10 5#32, .busWrite 0x20 2#32], .done⟩ : BusTurn)].take 1,
        u.answer = .done ∧ ∀ a ∈ u.before,
          actDefined ramp.cfg a = true ∧ writesTo (addressOf ramp.cfg .fsel 53).offset a = false))
    ∧ (Ready State.reset ∧ 3 < State.reset.cfg.numPins
      ∧ (∀ a ∈ [] ++ [.busWrite 0 0x40#32], actDefined State.reset.cfg a = true)
      ∧ (∀ u ∈ [(⟨[.busWrite 0x1C 4#32], .done⟩ : BusTurn)].take 1, u.answer = .done ∧ ∀ a ∈ u.before,
        actDefined State.reset.cfg a = true ∧ writesTo (addressOf State.reset.cfg .fsel 3).offset a = false)) := by decide

theorem witness_EnextByCursor :
    (Ready ramp ∧ ramp.ecur = .start) ∧ (Ready { ramp with ecur := .atPin 54 } ∧ ramp.cfg.numPins = 54)
    ∧ (Premises { lively Config.reference with ecur := .atPin 53 } 53 ∧ fnField (atAccess (lively Config.reference)) 53 = 0b000#3)
    ∧ (Premises { lively Config.reference with ecur := .atPin 1 } 1 ∧ fnField (atAccess (lively Config.reference)) 1 = 0b001#3)
    ∧ (Premises { lively Config.reference with ecur := .atPin 7 } 7 ∧ fnField (atAccess (lively Config.reference)) 7 ≠ 0b000#3
      ∧ fnField (atAccess (lively Config.reference)) 7 ≠ 0b001#3)
    ∧ Premises { calm cfg1 with ecur := .atPin 0 } 0 := by decide
theorem witness_CursorBeyondPinsStuck : Ready { ramp with ecur := .atPin 55 } ∧ ramp.cfg.numPins < 55 := by decide
theorem witness_SessionReturnsToStart :
    (Premises (lively Config.reference) 0 ∧ (lively Config.reference).ecur = .start)
    ∧ (Premises (calm Config.reference) 0 ∧ (calm Config.reference).ecur = .start ∧ NoForeignWrites (calm Config.reference))
    ∧ (Premises (scripted [⟨[.probe 0], .done⟩, ⟨[], .done⟩] (boot cfg1 0 4#32)) 0
      ∧ (scripted [⟨[.probe 0], .done⟩, ⟨[], .done⟩] (boot cfg1 0 4#32)).ecur = .start
      ∧ Quiet (scripted [⟨[.probe 0], .done⟩, ⟨[], .done⟩] (boot cfg1 0 4#32))) := by decide

theorem witness_TokensAreMaximalRuns :
    (∀ b ∈ [0x20#8, 0x09#8] ++ [0x0D#8], isSpace b = true) ∧ [0x0D#8] ≠ []
    ∧ (∀ b ∈ [0x35#8, 0x0E#8, 0x08#8, 0x21#8], isSpace b = false) := by decide
theorem witness_TextCommandForms :
    parseText State.reset .unbound (ascii ['0', '5', '3', ' ', 'i', 'n']) = some (53, .input)
    ∧ parseText State.reset .unbound (ascii ['0', '\t', 'l', 'o', 'w', ' ']) = some (0, .low)
    ∧ parseText { State.reset with bind := [⟨pinName 7, 7⟩] } (.bound (pinName 7)) (ascii ['h', 'i', 'g', 'h']) = some (7, .high) := by
  decide
/-- `53 low` waits at the front-end, with a bus script. -/
def lowText (ts : List BusTurn) : State := scripted ts (fed (.text .unbound (ascii ['5', '3', ' ', 'l', 'o', 'w'])) ramp)

theorem witness_TextActionIssuesCommand :
    (∀ ts ∈ [[], [⟨[], .fault true⟩], [(⟨[], .done⟩ : BusTurn), ⟨[], .reset⟩]],
      (lowText ts).inputs = [.text .unbound (ascii ['5', '3', ' ', 'l', 'o', 'w'])]
      ∧ parseText (lowText ts) .unbound (ascii ['5', '3', ' ', 'l', 'o', 'w']) = some (53, .low)) ∧ 53 ≤ 65535
    ∧ (∃ u, exec (.cfgout 53 .low) (withInputs [] (lowText [])) = .next u
      ∧ (u.responses == (lowText []).responses ++ [okResponse]) = true)
    ∧ (∃ u, exec (.cfgout 53 .low) (withInputs [] (lowText [⟨[], .fault true⟩])) = .next u
      ∧ (u.responses == (lowText [⟨[], .fault true⟩]).responses ++ [errorResponse .hwFault]) = true)
    ∧ (∃ u, exec (.cfgout 53 .low) (withInputs [] (lowText [⟨[], .done⟩, ⟨[], .reset⟩])) = .next u
      ∧ (u.responses == (lowText [⟨[], .done⟩, ⟨[], .reset⟩]).responses) = true) :=
  ⟨by decide, by decide, next_of (by decide), next_of (by decide), next_of (by decide)⟩
theorem witness_TextRejectedIsNoOp :
    Ready (fed (.text .unbound (ascii ['5', '4', ' ', 'i', 'n'])) ramp)
    ∧ (fed (.text .unbound (ascii ['5', '4', ' ', 'i', 'n'])) ramp).inputs = [.text .unbound (ascii ['5', '4', ' ', 'i', 'n'])]
    ∧ parseText (fed (.text .unbound (ascii ['5', '4', ' ', 'i', 'n'])) ramp) .unbound (ascii ['5', '4', ' ', 'i', 'n']) = none := by
  decide
theorem witness_StatusQueryLine :
    (Premises (fed (.query (.named 53)) (lively Config.reference)) 53
      ∧ (fed (.query (.named 53)) (lively Config.reference)).inputs = [.query (.named 53)]
      ∧ fnField (atAccess (lively Config.reference)) 53 = 0b000#3)
    ∧ (Premises (fed (.query (.named 9)) (lively Config.reference)) 9 ∧ fnField (atAccess (lively Config.reference)) 9 = 0b001#3)
    ∧ (Premises (fed (.query (.named 2)) (lively Config.reference)) 2
      ∧ fnField (atAccess (lively Config.reference)) 2 ≠ 0b000#3 ∧ fnField (atAccess (lively Config.reference)) 2 ≠ 0b001#3)
    ∧ (Ready (fed (.query (.named 54)) (lively Config.reference)) ∧ (lively Config.reference).cfg.numPins ≤ 54)
    ∧ (Premises (fed (.query (.bound (pinName 53))) { lively Config.reference with bind := [⟨pinName 53, 53⟩] }) 53
      ∧ lookup [⟨pinName 53, 53⟩] (pinName 53) = some 53)
    ∧ (Premises (fed (.query (.bound (pinName 5))) { lively Config.reference with bind := [⟨pinName 53, 53⟩] }) 53
      ∧ lookup [⟨pinName 53, 53⟩] (pinName 5) = none) := by decide

/-- An enumeration read waits at the front-end, the cursor at pin `k`, with a bus script. -/
def reading (k : Nat) (ts : List BusTurn) : State := scripted ts (fed .enumRead { ramp with ecur := .atPin k })

theorem witness_EnumReadIssuesEnext :
    (reading 54 []).inputs = [.enumRead] ∧ (reading 53 [⟨[], .fault true⟩]).inputs = [.enumRead]
    ∧ (∃ u, exec .enext (withInputs [] (reading 54 [])) = .next u
      ∧ (u.responses == (reading 54 []).responses ++ [⟨.ok, 0#32, 0#32⟩]) = true)
    ∧ (∃ u, exec .enext (withInputs [] (reading 53 [⟨[], .fault true⟩])) = .next u
      ∧ (u.responses == (reading 53 [⟨[], .fault true⟩]).responses ++ [errorResponse .hwFault]) = true)
    ∧ (∃ u, exec .enext (withInputs [] (reading 9 [⟨[], .doneThenReset⟩])) = .next u
      ∧ (u.responses == (reading 9 [⟨[], .doneThenReset⟩]).responses) = true) :=
  ⟨rfl, rfl, next_of (by decide), next_of (by decide), next_of (by decide)⟩
theorem witness_ConfigureBindsList :
    (Ready (fed (.configure [0, 53, 0]) ramp) ∧ (fed (.configure [0, 53, 0]) ramp).inputs = [.configure [0, 53, 0]]
      ∧ ramp.configured = false ∧ ∀ n ∈ [0, 53, 0], n < ramp.cfg.numPins)
    ∧ (Ready (fed (.configure [3, 54]) ramp) ∧ (fed (.configure [3, 54]) ramp).inputs = [.configure [3, 54]]
      ∧ ∃ n ∈ [3, 54], ramp.cfg.numPins ≤ n)
    ∧ (Ready (fed (.configure []) { ramp with configured := true }) ∧ { ramp with configured := true }.configured = true) := by decide
theorem witness_TeardownEmptiesTable :
    Ready (fed .teardown { ramp with bind := [⟨pinName 3, 3⟩], configured := true })
    ∧ (fed .teardown { ramp with bind := [⟨pinName 3, 3⟩], configured := true }).inputs = [.teardown] := by decide

/-- A state that meets `Inv` without being the reset state: a session under way and a binding. -/
theorem witness_StepKeepsInvariant :
    Inv { ramp with ecur := .atPin 54, bind := [⟨pinName 53, 53⟩], configured := true, inputs := [.enumRead] }
    ∧ ∃ t, step { ramp with ecur := .atPin 54, bind := [⟨pinName 53, 53⟩], configured := true, inputs := [.enumRead] } = .next t
        ∧ (t.ecur == .start) = true :=
  ⟨⟨by decide, by decide, by decide, by decide, by decide, by decide⟩, next_of (by decide)⟩

/-- A status query of a pin waits at the front-end, with a bus script. -/
def querying (n : Nat) (ts : List BusTurn) : State := scripted ts (fed (.query (.named n)) ramp)

theorem witness_StatusQueryPassesErrors :
    ((querying 9 []).inputs = [.query (.named 9)] ∧ 9 ≤ 65535 ∧ lookup [⟨pinName 9, 9⟩] (pinName 9) = some 9)
    ∧ (∃ u, exec (.rdfn 65535) (withInputs [] (querying 65535 [])) = .next u
      ∧ (u.responses == (querying 65535 []).responses ++ [errorResponse .outOfRange]) = true)
    ∧ (∃ u, exec (.rdfn 9) (withInputs [] (querying 9 [⟨[], .fault true⟩])) = .next u
      ∧ (u.responses == (querying 9 [⟨[], .fault true⟩]).responses ++ [errorResponse .hwFault]) = true)
    ∧ (∃ u, exec (.rdfn 9) (withInputs [] (querying 9 [⟨[], .reset⟩])) = .next u
      ∧ (u.responses == (querying 9 [⟨[], .reset⟩]).responses) = true) :=
  ⟨by decide, next_of (by decide), next_of (by decide), next_of (by decide)⟩

/-- Pin 9 answers field `001`, and then its level read faults, or is cut by a reset. -/
theorem witness_StatusQueryPassesErrors_level :
    (∃ u, exec (.rdfn 9) (withInputs [] (querying 9 [⟨[], .done⟩, ⟨[], .fault true⟩])) = .next u
      ∧ (u.responses == (querying 9 []).responses ++ [⟨.ok, 1#32, 0#32⟩]
        && isNext (exec (.rdlv 9) u) fun v => v.responses == u.responses ++ [errorResponse .hwFault]) = true)
    ∧ (∃ u, exec (.rdfn 9) (withInputs [] (querying 9 [⟨[], .done⟩, ⟨[], .reset⟩])) = .next u
      ∧ (u.responses == (querying 9 []).responses ++ [⟨.ok, 1#32, 0#32⟩]
        && isNext (exec (.rdlv 9) u) fun v => v.responses == u.responses) = true) :=
  ⟨next_of (by decide), next_of (by decide)⟩

theorem witness_FinishedRuns :
    (Ready ramp ∧ NoReset ramp
      ∧ ∃ t, runCommands [0x20000035#32, 0x00000000#32, 0x60000009#32] ramp = .next t ∧ (!t.faulted) = true)
    ∧ (Ready (scripted [⟨[], .fault true⟩] ramp) ∧ NoReset (scripted [⟨[], .fault true⟩] ramp)
      ∧ ∃ t, runCommands [0x20000035#32] (scripted [⟨[], .fault true⟩] ramp) = .next t ∧ t.faulted = true)
    ∧ (Ready (scripted [⟨[], .done⟩, ⟨[], .reset⟩] ramp) ∧ 53 < ramp.cfg.numPins
      ∧ (scripted [⟨[], .done⟩, ⟨[], .reset⟩] ramp).script = ⟨[], .done⟩ :: ⟨[], .reset⟩ :: []) :=
  ⟨⟨by decide, by decide, next_of (by decide)⟩, ⟨by decide, by decide, next_of (by decide)⟩, by decide⟩

theorem witness_CommandListsFinish :
    Inv { lively Config.reference with ecur := .atPin 54 }
    ∧ (lively Config.reference).faulted = false ∧ AccessesComplete (lively Config.reference)
    ∧ WritesDefined (lively Config.reference) :=
  ⟨⟨by decide, by decide, by decide, by decide, by decide, by decide⟩, by decide, by decide, by decide⟩

theorem witness_ProbeSeesPin :
    (ConfigOK (acted (.probe 53)).cfg ∧ (acted (.probe 53)).inputs = [.act (.probe 53)] ∧ 53 < (acted (.probe 53)).cfg.numPins
      ∧ (acted (.probe 54)).inputs = [.act (.probe 54)] ∧ (acted (.probe 54)).cfg.numPins ≤ 54)
    ∧ (Ready (scripted [⟨[.probe 9], .done⟩, ⟨[.probe 9], .done⟩, ⟨[.probe 9], .done⟩] ramp) ∧ 53 < ramp.cfg.numPins
      ∧ 9 < ramp.cfg.numPins)
    ∧ (Ready (scripted [⟨[.probe 0], .done⟩, ⟨[.probe 0], .done⟩] { ramp with ecur := .atPin 9 })
      ∧ { ramp with ecur := .atPin 9 }.ecur = .atPin 9 ∧ fnField ramp 9 = 0b001#3)
    ∧ (Ready (scripted [⟨[], .done⟩, ⟨[.busWrite 0x20 0x200000#32, .probe 53], .done⟩] ramp)
      ∧ (scripted [⟨[], .done⟩, ⟨[.busWrite 0x20 0x200000#32, .probe 53], .done⟩] ramp).script =
        ⟨[], .done⟩ :: ⟨[.busWrite (addressOf ramp.cfg .set 53).offset (1#32 <<< (53 % 32)), .probe 53], .done⟩ :: []) := by decide

end Sys2Proof.Tests
end

/-! PROOFS, family 20_memory. Level writes of different pins commute and of two for one pin the later decides (rule R78);
the engine's accesses (rule R55); the function modes (rules R63, R161). -/

namespace Sys2Proof.Machine

/-! ### Two level writes in a row -/

theorem bitOfLevel_eq_decide (l : Level) : bitOfLevel l = decide (l = .high) := by cases l <;> rfl

/-- The state after an undisturbed `SETLV` (rule R159). -/
def afterSetlv (p : Nat) (l : Level) (s : State) : State :=
  respond .ok 0#32 0#32 (levelDone p l (accept (.setlv p l) (atAccess s)))

section
variable {s : State} {p q r : Nat} {l m : Level}

@[simp] theorem afterSetlv_cfg : (afterSetlv p l s).cfg = s.cfg := by simp [afterSetlv]

@[simp] theorem afterSetlv_script : (afterSetlv p l s).script = s.script.tail := by simp [afterSetlv]

theorem ready_afterSetlv (hr : Ready s) : Ready (afterSetlv p l s) :=
  ⟨by simpa using hr.1, rfl, by simpa [afterSetlv] using hr.2.2⟩

theorem answers_afterSetlv (h : Answers s) : Answers (afterSetlv p l s) := h.of_tail afterSetlv_cfg afterSetlv_script

theorem latch_afterSetlv (hp : p < s.cfg.numPins) (r : Nat) :
    latch (afterSetlv p l s) r = if r = p then bitOfLevel l else latch (atAccess s) r := by
  rw [afterSetlv, latch_respond, latch_levelDone l (by simpa using hp), latch_accept]

/-- `SETLV` of `p`, then `SETLV` of `q`. -/
theorem exec_setlv_twice (hr : Ready s) (h : Answers s) (hp : p < s.cfg.numPins) (hq : q < s.cfg.numPins) (l m : Level) :
    exec (.setlv p l) s = .next (afterSetlv p l s)
      ∧ exec (.setlv q m) (afterSetlv p l s) = .next (afterSetlv q m (afterSetlv p l s)) :=
  ⟨exec_setlv hr h hp l, exec_setlv (ready_afterSetlv hr) (answers_afterSetlv h) (by simpa using hq) m⟩

/-- The second of two level writes decides its own pin (rule R78). -/
theorem latch_setlv_later (hq : q < s.cfg.numPins) :
    latch (afterSetlv q m (afterSetlv p l s)) q = bitOfLevel m := by
  rw [latch_afterSetlv (by simpa using hq), if_pos rfl]

/-- The first of two level writes decides its pin, where nobody, the second among them, writes that latch after it. -/
theorem latch_setlv_earlier {offs : List Nat} (hp : p < s.cfg.numPins) (hq : q < s.cfg.numPins) (hpq : p ≠ q)
    (hu : Untouched offs s.script.tail) (hset : (addressOf s.cfg .set p).offset ∈ offs)
    (hclr : (addressOf s.cfg .clr p).offset ∈ offs) :
    latch (afterSetlv q m (afterSetlv p l s)) p = bitOfLevel l := by
  have hkept : latch (atAccess (afterSetlv p l s)) p = latch (afterSetlv p l s) p :=
    latch_atAccess_untouched (by rwa [afterSetlv_script]) (by rwa [afterSetlv_cfg]) (by rwa [afterSetlv_cfg])
  rw [latch_afterSetlv (by simpa using hq), if_neg hpq, hkept, latch_afterSetlv hp, if_pos rfl]

/-- A latch that neither of two level writes is for stands alike after them in either order, whatever others write. -/
theorem latch_setlv_other (hp : p < s.cfg.numPins) (hq : q < s.cfg.numPins) (hrp : r ≠ p) (hrq : r ≠ q) :
    latch (afterSetlv q m (afterSetlv p l s)) r = latch (afterSetlv p l (afterSetlv q m s)) r := by
  have hfirst : latch (afterSetlv p l s) r = latch (afterSetlv q m s) r := by
    rw [latch_afterSetlv hp, latch_afterSetlv hq, if_neg hrp, if_neg hrq]
  rw [latch_afterSetlv (by simpa using hq), latch_afterSetlv (by simpa using hp), if_neg hrp, if_neg hrq]
  exact latch_atAccess_congr (by simp) (by simp) hfirst

/-- Level writes for different pins commute on every latch (rule R78). -/
theorem latch_setlv_comm (hp : p < s.cfg.numPins) (hq : q < s.cfg.numPins) (hpq : p ≠ q)
    (hu : Untouched [(addressOf s.cfg .set p).offset, (addressOf s.cfg .clr p).offset,
      (addressOf s.cfg .set q).offset, (addressOf s.cfg .clr q).offset] s.script.tail) (r : Nat) :
    latch (afterSetlv q m (afterSetlv p l s)) r = latch (afterSetlv p l (afterSetlv q m s)) r := by
  by_cases hrp : r = p
  · subst hrp
    rw [latch_setlv_earlier hp hq hpq hu (by simp) (by simp), latch_setlv_later hp]
  · by_cases hrq : r = q
    · subst hrq
      rw [latch_setlv_later hq, latch_setlv_earlier hq hp hrp hu (by simp) (by simp)]
    · exact latch_setlv_other hp hq hrp hrq
end

/-- Settles O29: each latch is that of the first pin, that of the second, or one that neither write is for. -/
theorem levelWritesCommute : Obligations.LevelWritesCommute := by
  intro s p q l m hr hc hw hp hq
  obtain ⟨ht, ht'⟩ := exec_setlv_twice hr ⟨hc, hw⟩ hp hq l m
  obtain ⟨hu, hu'⟩ := exec_setlv_twice hr ⟨hc, hw⟩ hq hp m l
  refine ⟨_, _, _, _, ht, ht', hu, hu', fun hpq hun => latch_setlv_comm hp hq hpq hun, ?_⟩
  rintro rfl
  exact ⟨by rw [latch_setlv_later hp, bitOfLevel_eq_decide], by rw [latch_setlv_later hp, bitOfLevel_eq_decide]⟩

/-! ### The engine's accesses -/

/-- Settles O38: the trace of `Framed` grows by engine accesses alone, and no way a command ends writes the trace. -/
theorem engineAccessesOnly : Obligations.EngineAccessesOnly := by
  intro i s t h
  obtain ⟨_, he⟩ := exec_framed h
  rcases he with ⟨_, _, u, hu, rfl⟩ | ⟨_, u, hu, _, rfl⟩ | ⟨u, hu, rfl⟩
  · exact hu.trace
  · exact hu.trace
  · exact hu.trace

/-! ### The function modes -/

/-- The fields that mean input and output (rule R63). -/
theorem modeOf_eq_input_iff (f : BitVec 3) : modeOf f = .input ↔ f = 0b000#3 := by revert f; decide

theorem modeOf_eq_output_iff (f : BitVec 3) : modeOf f = .output ↔ f = 0b001#3 := by revert f; decide

/-- Settles O30: the table row by row, and `isIo` holds of the two fields that mean input and output. -/
theorem functionModeTable : Obligations.FunctionModeTable := by
  refine ⟨rfl, rfl, rfl, rfl, rfl, rfl, rfl, rfl, fun f => ?_⟩
  rw [isIo_setWidth, modeOf_eq_input_iff, modeOf_eq_output_iff]

end Sys2Proof.Machine

/-! PROOFS, family 30_encoding. A word is decoded by the one row it lies in, its operands read from its fields, and encoding
is the inverse (rules R97, R99); a word of no row is rejected (rule R98). -/

namespace Sys2Proof

variable {w : Word} {i : Instr} {r q : OpRow}

/-! ### Each row has its own operation code -/

theorem rowOf_mem (i : Instr) : rowOf i ∈ opRows := by cases i <;> simp [rowOf, opRows]

/-- Every mask takes in bits 31:28, so a word of a row has the row's operation code. -/
theorem opField_of_row (hr : r ∈ opRows) (h : w &&& r.mask = r.bits) : opField w = opField r.bits := by
  have hm : ∀ r ∈ opRows, r.mask.extractLsb' 28 4 = BitVec.allOnes 4 := by decide
  rw [← h, opField, opField, BitVec.extractLsb'_and, hm r hr, BitVec.and_allOnes]

/-- A word lies in one row at most, since the rows' operation codes differ (rule R97). -/
theorem row_unique (hr : r ∈ opRows) (hq : q ∈ opRows) (h : w &&& r.mask = r.bits) (h' : w &&& q.mask = q.bits) : r = q := by
  have hop : ∀ r ∈ opRows, ∀ q ∈ opRows, opField r.bits = opField q.bits → r = q := by decide
  exact hop r hr q hq ((opField_of_row hr h).symm.trans (opField_of_row hq h'))

theorem opRows_disjoint (w : Word) : opRows.Pairwise fun r q => ¬ (w &&& r.mask = r.bits ∧ w &&& q.mask = q.bits) := by
  have hne : opRows.Pairwise (· ≠ ·) := by decide
  exact hne.imp_of_mem fun hr hq hne ⟨h, h'⟩ => hne (row_unique hr hq h h')

/-! ### The decoder, row by row -/

/-- The command of the row of `i` whose operands are the fields of `w` (rules R91 to R95). -/
def withFields (w : Word) : Instr → Instr
  | .addr _ _ => .addr (famField w) (pinField w)
  | .cfgin _ => .cfgin (pinField w)
  | .cfgout _ _ => .cfgout (pinField w) (lvlField w)
  | .setlv _ _ => .setlv (pinField w) (lvlField w)
  | .rdfn _ => .rdfn (pinField w)
  | .rdlv _ => .rdlv (pinField w)
  | .enext => .enext

/-- A word of a row is covered by that row alone, so the order in which the decoder asks the rows does not matter. -/
theorem decode_of_row (h : w &&& (rowOf i).mask = (rowOf i).bits) : decode w = .legal (withFields w i) := by
  have hcov : ∀ q ∈ opRows, q.covers w = decide (q = rowOf i) := by
    intro q hq
    rw [Bool.eq_iff_iff, covers_iff, decide_eq_true_iff]
    exact ⟨fun hw => row_unique hq (rowOf_mem i) hw h, fun he => he ▸ h⟩
  simp only [opRows, List.forall_mem_cons] at hcov
  obtain ⟨haddr, hcfgin, hcfgout, hsetlv, hrdfn, hrdlv, henext, -⟩ := hcov
  rw [decode, haddr, hcfgin, hcfgout, hsetlv, hrdfn, hrdlv, henext]
  cases i <;> rfl

/-- A word is a command exactly when it lies in the command's row and its fields are the command's operands. -/
theorem decode_eq_legal_iff : decode w = .legal i ↔ w &&& (rowOf i).mask = (rowOf i).bits ∧ withFields w i = i := by
  constructor
  · intro h
    rcases decode_cases h with ⟨hw, rfl⟩ | ⟨hw, rfl⟩ | ⟨hw, rfl⟩ | ⟨hw, rfl⟩ | ⟨hw, rfl⟩ | ⟨hw, rfl⟩ | ⟨hw, rfl⟩ <;>
      exact ⟨hw, rfl⟩
  · rintro ⟨hw, hi⟩
    rw [decode_of_row hw, hi]

theorem row_of_decode (h : decode w = .legal i) : w &&& (rowOf i).mask = (rowOf i).bits := (decode_eq_legal_iff.mp h).1

theorem decode_of_no_row (h : ∀ r ∈ opRows, w &&& r.mask ≠ r.bits) : ∃ why, decode w = .illegal why := by
  cases hd : decode w with
  | legal i => exact absurd (row_of_decode hd) (h _ (rowOf_mem i))
  | illegal why => exact ⟨why, rfl⟩

/-- Settles O2: a word that decodes lies in its command's row, a word of a row decodes to that row's command. -/
theorem wordIsCommandByMask : Obligations.WordIsCommandByMask := fun w =>
  ⟨⟨fun ⟨_, _, h⟩ => row_of_decode h, fun h => ⟨_, _, decode_of_row (i := .addr .fsel 0) h⟩⟩,
   ⟨fun ⟨_, h⟩ => row_of_decode h, fun h => ⟨_, decode_of_row (i := .cfgin 0) h⟩⟩,
   ⟨fun ⟨_, _, h⟩ => row_of_decode h, fun h => ⟨_, _, decode_of_row (i := .cfgout 0 .low) h⟩⟩,
   ⟨fun ⟨_, _, h⟩ => row_of_decode h, fun h => ⟨_, _, decode_of_row (i := .setlv 0 .low) h⟩⟩,
   ⟨fun ⟨_, h⟩ => row_of_decode h, fun h => ⟨_, decode_of_row (i := .rdfn 0) h⟩⟩,
   ⟨fun ⟨_, h⟩ => row_of_decode h, fun h => ⟨_, decode_of_row (i := .rdlv 0) h⟩⟩,
   ⟨row_of_decode, decode_of_row (i := .enext)⟩,
   opRows_disjoint w⟩

/-! ### The fields of an encoded command -/

theorem encode_in_row (h : i.WellFormed) : encode i &&& (rowOf i).mask = (rowOf i).bits := by
  rw [← covers_iff]
  cases i with
  | addr f p => exact Laws.EncodedShape.addr f p h
  | cfgin p => exact Laws.EncodedShape.cfgin p h
  | cfgout p l => exact Laws.EncodedShape.cfgout p l h
  | setlv p l => exact Laws.EncodedShape.setlv p l h
  | rdfn p => exact Laws.EncodedShape.rdfn p h
  | rdlv p => exact Laws.EncodedShape.rdlv p h
  | enext => exact Laws.EncodedShape.enext h

theorem pin_le_of_wellFormed (h : i.WellFormed) : i.pin ≤ 65535 := by
  cases i with
  | enext => exact Nat.zero_le _
  | _ => exact pinFits_iff.mp h

theorem highOnly_encodeHigh (i : Instr) : HighOnly (encodeHigh i) := by
  cases i with
  | addr f p => rw [encodeHigh_addr]; cases f <;> decide
  | cfgout p l => rw [encodeHigh_cfgout]; cases l <;> decide
  | setlv p l => rw [encodeHigh_setlv]; cases l <;> decide
  | cfgin p => rw [encodeHigh_cfgin]; decide
  | rdfn p => rw [encodeHigh_rdfn]; decide
  | rdlv p => rw [encodeHigh_rdlv]; decide
  | enext => decide

theorem pinField_encode (h : i.WellFormed) : pinField (encode i) = i.pin :=
  word_pin (pin_le_of_wellFormed h) (highOnly_encodeHigh i)

theorem famField_encode_addr {f : Family} {p : Nat} (hp : p ≤ 65535) : famField (encode (.addr f p)) = f := by
  rw [encode_eq, encodeHigh_addr, Instr.pin, famField, word_field hp (by decide)]
  cases f <;> decide

/-- The level of a word made of a constant with bit 25 zero, a level code there and a pin (rule R94). -/
theorem lvlField_word {c : Word} {l : Level} {p : Nat} (hp : p ≤ 65535) (hc : c.getLsbD 25 = false) :
    lvlField ((c ||| (l.code.setWidth 32 <<< 25)) ||| BitVec.ofNat 32 p) = l := by
  rw [lvlField, word_bit hp (by decide), BitVec.getLsbD_or, hc]
  cases l <;> decide

theorem withFields_encode (h : i.WellFormed) : withFields (encode i) i = i := by
  have hpin := pinField_encode h
  have hle := pin_le_of_wellFormed h
  cases i with
  | addr f p => exact congrArg₂ Instr.addr (famField_encode_addr hle) hpin
  | cfgin p => exact congrArg Instr.cfgin hpin
  | cfgout p l =>
    have hlvl : lvlField (encode (.cfgout p l)) = l := by rw [encode_eq, encodeHigh_cfgout]; exact lvlField_word hle rfl
    exact congrArg₂ Instr.cfgout hpin hlvl
  | setlv p l =>
    have hlvl : lvlField (encode (.setlv p l)) = l := by rw [encode_eq, encodeHigh_setlv]; exact lvlField_word hle rfl
    exact congrArg₂ Instr.setlv hpin hlvl
  | rdfn p => exact congrArg Instr.rdfn hpin
  | rdlv p => exact congrArg Instr.rdlv hpin
  | enext => rfl

theorem decode_encode (h : i.WellFormed) : decode (encode i) = .legal i :=
  decode_eq_legal_iff.mpr ⟨encode_in_row h, withFields_encode h⟩

/-! ### The word of a decoded command -/

theorem wellFormed_withFields (w : Word) (i : Instr) : (withFields w i).WellFormed := by
  cases i with
  | enext => rfl
  | _ => exact pinFits_iff.mpr (pinField_le w)

theorem famField_code (w : Word) : (famField w).code = w.extractLsb' 26 2 := by
  unfold famField
  generalize w.extractLsb' 26 2 = f
  revert f; decide

theorem lvlField_code (w : Word) : (lvlField w).code = w.extractLsb' 25 1 := by
  have hbit : w.getLsbD 25 = (w.extractLsb' 25 1).getLsbD 0 := by simp
  rw [lvlField, hbit]
  generalize w.extractLsb' 25 1 = l
  revert l; decide

/-- A field put back in its place is what the word has under the field's mask. -/
theorem extractLsb'_in_place (w : Word) (lo n : Nat) :
    (w.extractLsb' lo n).setWidth 32 <<< lo = w &&& ((BitVec.allOnes n).setWidth 32 <<< lo) := by
  apply BitVec.eq_of_getLsbD_eq
  intro k hk
  by_cases hlo : k < lo
  · simp [hlo]
  · have : lo + (k - lo) = k := by omega
    simp [hlo, hk, this, Bool.and_comm]

theorem encode_withFields (h : w &&& (rowOf i).mask = (rowOf i).bits) : encode (withFields w i) = w := by
  cases i with
  | addr f p =>
    rw [withFields, encode_eq, encodeHigh_addr, famField_code, extractLsb'_in_place]
    exact (row_split (m := rowAddr.mask) h (by decide)).symm
  | cfgout p l =>
    rw [withFields, encode_eq, encodeHigh_cfgout, lvlField_code, extractLsb'_in_place]
    exact (row_split (m := rowCfgout.mask) h (by decide)).symm
  | setlv p l =>
    rw [withFields, encode_eq, encodeHigh_setlv, lvlField_code, extractLsb'_in_place]
    exact (row_split (m := rowSetlv.mask) h (by decide)).symm
  | cfgin p => rw [withFields, encode_eq, encodeHigh_cfgin]; exact (word_split h).symm
  | rdfn p => rw [withFields, encode_eq, encodeHigh_rdfn]; exact (word_split h).symm
  | rdlv p => rw [withFields, encode_eq, encodeHigh_rdlv]; exact (word_split h).symm
  | enext =>
    have henc : encode .enext = rowEnext.bits := by decide
    exact henc.trans (h.symm.trans BitVec.and_allOnes)

theorem encode_of_decode (h : decode w = .legal i) : encode i = w ∧ i.WellFormed := by
  obtain ⟨hw, hi⟩ := decode_eq_legal_iff.mp h
  exact ⟨hi ▸ encode_withFields hw, hi ▸ wellFormed_withFields w i⟩

/-- Settles O1: the encoded word lies in its command's row and has its operands as fields, and a word of a row is the row's
constant, its free bits and its pin, which are what the encoder puts together. -/
theorem decodeEncodeAgree : Obligations.DecodeEncodeAgree :=
  ⟨fun _ h => decode_encode h, fun _ _ h => encode_of_decode h, fun _ => rfl⟩

/-! ### Words of no row -/

/-- The operation codes 0 and 8 to F are those of no row (rule R98). -/
theorem no_row_of_reserved_op (h : opField w = 0x0#4 ∨ 0x8#4 ≤ opField w) : ∀ r ∈ opRows, w &&& r.mask ≠ r.bits := by
  have hused : ∀ r ∈ opRows, ¬ (opField r.bits = 0x0#4 ∨ 0x8#4 ≤ opField r.bits) := by decide
  intro r hr hw
  exact hused r hr (opField_of_row hr hw ▸ h)

end Sys2Proof

namespace Sys2Proof.Machine

variable {s : State} {w : Word}

/-- An illegal word in a ready state: its response is the whole effect (rules R98, R232). -/
theorem present_illegal {why : Illegal} (hr : Ready s) (hd : decode w = .illegal why) :
    present w s = .next { s with responses := s.responses ++ [errorResponse .invalidCommand] } := by
  simp only [present, hd, rejectWord, ifReady_ready hr]
  obtain ⟨-, hbusy, -⟩ := hr
  simp only [takeError, respond, faultedAfter, statusOfError, errorResponse, hbusy]

/-- Settles O5: a word of no row decodes to no command, and no row has a reserved operation code. -/
theorem illegalWordRejected : Obligations.IllegalWordRejected := by
  refine ⟨fun s w rest hr hin hno => ?_, fun w h => no_row_of_reserved_op h, no_row_of_reserved_op (.inl rfl)⟩
  obtain ⟨why, hd⟩ := decode_of_no_row hno
  have hstep : step s = present w (withInputs rest s) := by rw [step, takeNext, hin]; rfl
  have hrest : Ready (withInputs rest s) := hr
  rw [hstep, present_illegal hrest hd]
  rfl

end Sys2Proof.Machine

/-! PROOFS, family 40_calculator. A pin's field lies inside one register (rules R123, R124); `ADDR` answers and changes nothing
else (rule R122). -/

namespace Sys2Proof.Machine

/-! ### The field of a pin in its register -/

theorem addressOf_aligned_inside {cfg : Config} (ok : ConfigOK cfg) (f : Family) {p : Nat} (hp : p < cfg.numPins) :
    (addressOf cfg f p).offset % 4 = 0 ∧ (addressOf cfg f p).offset + 4 ≤ cfg.regionLen := by
  have h := addressOf_ok ok f hp
  simpa only [not_or, not_not, not_lt] using h

/-- Settles O16: the field ends within the bits a register's pins take up, its register lies aligned inside the region, and
the region's length fits 32 bits. -/
theorem fieldNeverCrossesRegister : Obligations.FieldNeverCrossesRegister := by
  intro cfg f p ok hp
  obtain ⟨haligned, hinside⟩ := addressOf_aligned_inside ok f hp
  obtain ⟨-, hregion⟩ := configOK_bound ok f
  refine ⟨?_, haligned, hinside, by omega⟩
  have hbits := (bit_range cfg f p).1
  cases f <;> exact hbits

/-! ### Commands whose response is the whole effect -/

section
variable {s : State} {p : Nat}

/-- The response to a command just accepted is the whole change, since the engine is idle again (rules R90, R101). -/
theorem respond_accept (hr : Ready s) (i : Instr) (st : Status) (d0 d1 : Word) :
    respond st d0 d1 (accept i s) = { s with responses := s.responses ++ [⟨st, d0, d1⟩] } := by
  obtain ⟨-, hidle, -⟩ := hr
  simp only [respond, accept, hidle]

/-- A command that checks a pin that does not exist ends there, whatever it goes on with (rules R122, R150, R231). -/
theorem command_checkPin_out (hr : Ready s) (hp : s.cfg.numPins ≤ p) (i : Instr) (k : Unit → State → Run (Word × Word)) :
    command i s (fun s => (checkPin p s).bind k) =
      .next { s with responses := s.responses ++ [errorResponse .outOfRange] } := by
  rw [command_ready hr, checkPin_out (s := accept i s) hp]
  exact congrArg Host.Outcome.next (respond_accept hr i .outOfRange 0#32 0#32)

theorem exec_addr (hr : Ready s) (hp : p < s.cfg.numPins) (f : Family) :
    exec (.addr f p) s = .next { s with responses := s.responses ++
      [⟨.ok, BitVec.ofNat 32 (addressOf s.cfg f p).offset, addrData (addressOf s.cfg f p)⟩] } := by
  rw [exec, execAddr, command_ready hr, checkPin_ok (s := accept _ s) hp]
  exact congrArg Host.Outcome.next (respond_accept hr _ _ _ _)
end

/-- Settles O18: `ADDR` checks the pin, and makes its response of the triple alone. -/
theorem addrResult : Obligations.AddrResult := fun _ f _ hr =>
  ⟨fun hp => exec_addr hr hp f, fun hp => command_checkPin_out hr hp _ _⟩

end Sys2Proof.Machine

/-! PROOFS, family 42_pin_controller. A pin that does not exist is rejected before any access (rule R150); what a pin was
configured as, and what it was driven to, is read back (rules R153, R158, R160). -/

namespace Sys2Proof.Machine

/-- Settles O19: each of the five commands checks its pin first, and ends there. -/
theorem pinOutOfRangeRejected : Obligations.PinOutOfRangeRejected := by
  rintro s i p hr hp (rfl | ⟨l, rfl⟩ | ⟨l, rfl⟩ | rfl | rfl)
  · exact command_checkPin_out hr hp (.cfgin p) _
  · exact command_checkPin_out hr hp (.cfgout p l) _
  · exact command_checkPin_out hr hp (.setlv p l) _
  · exact command_checkPin_out hr hp (.rdfn p) _
  · exact command_checkPin_out hr hp (.rdlv p) _

/-! ### One command of a pin that exists, whatever the other agents do that the spec gives an effect -/

/-- The command completes with the one response, and the next command finds the premises it needs (rules R57, R69, R90). -/
structure Answered (i : Instr) (r : Response) (s t : State) : Prop where
  ran : exec i s = .next t
  cfg : t.cfg = s.cfg
  ready : Ready t
  answers : Answers t
  responses : t.responses = s.responses ++ [r]

section
variable {s t u : State} {p : Nat} {i j : Instr} {r r' : Response}

/-- A command that ends in its response and uses up `k` turns of the script. -/
theorem answered_respond {st : Status} {d0 d1 : Word} (hr : Ready s) (h : Answers s) (k : Nat)
    (hran : exec i s = .next (respond st d0 d1 u)) (hcfg : u.cfg = s.cfg) (hfaulted : u.faulted = s.faulted)
    (hscript : u.script = s.script.drop k) (hresp : u.responses = s.responses) :
    Answered i ⟨st, d0, d1⟩ s (respond st d0 d1 u) where
  ran := hran
  cfg := hcfg
  ready := ⟨hcfg ▸ hr.1, rfl, hfaulted.trans hr.2.2⟩
  answers := h.of_drop k hcfg hscript
  responses := by rw [respond_responses, hresp]

theorem Answered.pin (h : Answered i r s t) (hp : p < s.cfg.numPins) : p < t.cfg.numPins := by rwa [h.cfg]

theorem Answered.responses_two (h : Answered i r s t) (h' : Answered j r' t u) : u.responses = s.responses ++ [r, r'] := by
  rw [h'.responses, h.responses, List.append_assoc, List.singleton_append]

theorem Answers.tail (h : Answers s) : Answers (withScript s.script.tail s) := h.of_tail rfl rfl

/-- The write-back gives the pin its new field, whatever was written since the read (rules R77, R151). -/
theorem fnField_rmwWritten (m : Word) (hm : ∀ j, 3 ≤ j → m.getLsbD j = false) :
    fnField (rmwWritten p m s t) p = m.setWidth 3 := by
  rw [fnField, fselReg_rmwWritten, rmwWord, extract_replaceField_same _ _ _ (by omega) hm]

/-- What `LEV_MODEL` says of a pin whose latch shows (rule R68). -/
theorem level_eq_latch (h : s.cfg.levModel = .latchAlways ∨ fnField s p = 0b001#3) : level s p = latch s p := by
  unfold level
  cases hm : s.cfg.levModel with
  | latchAlways => rfl
  | latchWhenOutput =>
    have hout : fnField s p = 0b001#3 := h.resolve_left (by simp [hm])
    exact if_pos hout

end

section
variable {s : State} {p : Nat} (hr : Ready s) (h : Answers s) (hp : p < s.cfg.numPins)
include hr h hp

theorem cfgin_answered : ∃ t, Answered (.cfgin p) okResponse s t ∧ fnField t p = 0b000#3 := by
  refine ⟨_, answered_respond hr h 2 (exec_cfgin_turns hr hp h.turn h.tail.turn) (by simp) (by simp)
    (by simp [← List.drop_one]) (by simp), ?_⟩
  rw [fnField_respond, fnField_rmwWritten _ (by simp)]
  rfl

/-- The field stands where nobody writes the register between the write-back and the level write (rule R157). -/
theorem cfgout_answered (l : Level) : ∃ t, Answered (.cfgout p l) okResponse s t ∧ latch t p = bitOfLevel l
    ∧ (Untouched [(addressOf s.cfg .fsel p).offset] s.script.tail.tail → fnField t p = 0b001#3) := by
  refine ⟨_, answered_respond hr h 3 (exec_cfgout_turns hr hp l h.turn h.tail.turn h.tail.tail.turn) (by simp) (by simp)
    (by simp [← List.drop_one]) (by simp), ?_, fun hu => ?_⟩
  · rw [latch_respond, latch_levelDone l (by simpa using hp), if_pos rfl]
  · have hbits : ∀ j, 3 ≤ j → (0b001#32).getLsbD j = false := fun j hj => by simp [show j ≠ 0 by omega]
    rw [fnField_respond, fnField_levelDone, fnField_atAccess_untouched (by simpa using hu) (by simp),
      fnField_rmwWritten _ hbits]
    rfl

theorem setlv_answered (l : Level) : ∃ t, Answered (.setlv p l) okResponse s t ∧ latch t p = bitOfLevel l := by
  refine ⟨_, answered_respond hr h 1 (exec_setlv hr h hp l) (by simp) (by simp) (by simp) (by simp), ?_⟩
  rw [latch_respond, latch_levelDone l (by simpa using hp), if_pos rfl]

variable {offs : List Nat} (hu : Untouched offs s.script)
include hu

theorem rdfn_answered (hfsel : (addressOf s.cfg .fsel p).offset ∈ offs) :
    ∃ t, Answered (.rdfn p) ⟨.ok, (fnField s p).setWidth 32, 0#32⟩ s t ∧ fnField t p = fnField s p
      ∧ latch t p = latch (atAccess s) p := by
  rw [← fnField_atAccess_untouched hu hfsel]
  exact ⟨_, answered_respond hr h 1 (exec_rdfn hr h hp) (by simp) (by simp) (by simp) (by simp), by simp, by simp⟩

/-- The level read is the latch where `LEV_MODEL` shows it, and it was not written before the read (rules R68, R165). -/
theorem rdlv_answered (hset : (addressOf s.cfg .set p).offset ∈ offs) (hclr : (addressOf s.cfg .clr p).offset ∈ offs)
    (hshown : s.cfg.levModel = .latchAlways ∨ fnField (atAccess s) p = 0b001#3) :
    ∃ t, Answered (.rdlv p) ⟨.ok, levelWord (latch s p), 0#32⟩ s t := by
  rw [← latch_atAccess_untouched hu hset hclr, ← level_eq_latch (by simpa using hshown)]
  exact ⟨_, answered_respond hr h 1 (exec_rdlv hr h hp) (by simp) (by simp) (by simp) (by simp)⟩

/-- The same for an output whose FSEL register was not written either, under either `LEV_MODEL`. -/
theorem rdlv_answered_output (hfsel : (addressOf s.cfg .fsel p).offset ∈ offs)
    (hset : (addressOf s.cfg .set p).offset ∈ offs) (hclr : (addressOf s.cfg .clr p).offset ∈ offs)
    (hout : fnField s p = 0b001#3) : ∃ t, Answered (.rdlv p) ⟨.ok, levelWord (latch s p), 0#32⟩ s t :=
  rdlv_answered hr h hp hu hset hclr (.inr ((fnField_atAccess_untouched hu hfsel).trans hout))

end

/-! ### What is read back -/

/-- Settles O26: `CFGIN` leaves field `000`, and `RDFN` answers the field that nobody has written since. -/
theorem cfginThenRdfnIsInput : Obligations.CfginThenRdfnIsInput := by
  intro s p hr hc hw hp
  obtain ⟨t, ht, hfield⟩ := cfgin_answered hr ⟨hc, hw⟩ hp
  refine ⟨t, ht.ran, ht.responses, fun hun => ?_⟩
  obtain ⟨u, hu, -⟩ := rdfn_answered ht.ready ht.answers (ht.pin hp) hun (by simp [ht.cfg])
  rw [hfield] at hu
  exact ⟨u, hu.ran, ht.responses_two hu⟩

/-- Settles O27: `CFGOUT` leaves an output with the level in its latch, `RDFN` answers the field and leaves both, and `RDLV` of
an output answers the latch. -/
theorem cfgoutThenReadsBack : Obligations.CfgoutThenReadsBack := by
  intro s p l hr hc hw hp
  obtain ⟨t, ht, hlatch, hfield⟩ := cfgout_answered hr ⟨hc, hw⟩ hp l
  have hpt := ht.pin hp
  refine ⟨t, ht.ran, ht.responses, fun hback => ⟨fun hfsel => ?_, fun hun => ?_⟩⟩
  · obtain ⟨u, hu, hfield', hlatch'⟩ := rdfn_answered ht.ready ht.answers hpt hfsel (by simp [ht.cfg])
    rw [hfield hback] at hu hfield'
    refine ⟨u, hu.ran, ht.responses_two hu, fun hkept hun => ?_⟩
    rw [latch_atAccess_untouched hkept (by simp [ht.cfg]) (by simp [ht.cfg]), hlatch] at hlatch'
    have hcfg : u.cfg = s.cfg := hu.cfg.trans ht.cfg
    obtain ⟨v, hv⟩ := rdlv_answered_output hu.ready hu.answers (hu.pin hpt) hun (by simp [hcfg]) (by simp [hcfg])
      (by simp [hcfg]) hfield'
    refine ⟨v, hv.ran, ?_⟩
    rw [hv.responses, ht.responses_two hu, hlatch', List.append_assoc]
    cases l <;> rfl
  · obtain ⟨v, hv⟩ := rdlv_answered_output ht.ready ht.answers hpt hun (by simp [ht.cfg]) (by simp [ht.cfg])
      (by simp [ht.cfg]) (hfield hback)
    refine ⟨v, hv.ran, ?_⟩
    rw [ht.responses_two hv, hlatch]
    cases l <;> rfl

/-- Settles O28: `SETLV` leaves the level in the latch, and `RDLV` answers the latch where `LEV_MODEL` shows it. -/
theorem setlvThenRdlvReadsLevel : Obligations.SetlvThenRdlvReadsLevel := by
  intro s p l hr hc hw hp
  obtain ⟨t, ht, hlatch⟩ := setlv_answered hr ⟨hc, hw⟩ hp l
  refine ⟨t, ht.ran, fun hun hshown => ?_⟩
  obtain ⟨u, hu⟩ := rdlv_answered ht.ready ht.answers (ht.pin hp) hun (by simp [ht.cfg]) (by simp [ht.cfg])
    (by rwa [ht.cfg])
  refine ⟨u, hu.ran, ?_⟩
  rw [ht.responses_two hu, hlatch]
  cases l <;> rfl

end Sys2Proof.Machine

/-! PROOFS, family 43_enumerator. A session of the enumerator, call by call: each call at a pin adds that pin's record and
leaves what the next one needs (rule R178). -/

namespace Sys2Proof.Machine

/-! ### Calls in a row -/

/-- One call more, at the end. -/
theorem enextCalls_snoc {n : Nat} {s t : State} (h : enextCalls n s = .next t) : enextCalls (n + 1) s = exec .enext t := by
  induction n generalizing s with
  | zero =>
    injection h with h
    subst h
    rw [enextCalls]
    cases exec .enext s <;> rfl
  | succ n ih =>
    rw [enextCalls] at h ⊢
    cases hx : exec .enext s with
    | next u => rw [hx] at h; exact ih h
    | fault f => rw [hx] at h; cases h
    | refused why => rw [hx] at h; cases h

/-- What a session leaves as it was: all but the histories and `ECUR`, the bank where no other agent writes it, and the lines
where none does more than look; of the script it only uses turns up (rules R177, R178). -/
structure SessionKept (s t : State) : Prop where
  rest : SameRest s t
  script : ∃ n, t.script = s.script.drop n
  bank : NoForeignWrites s → SameBank s t
  lines : Quiet s → t.ext = s.ext

section
variable {s t u : State} {p k : Nat} {r : Response} {records records' : List Response}

theorem SessionKept.noForeignWrites (h : SessionKept s t) (hn : NoForeignWrites s) : NoForeignWrites t :=
  let ⟨_, hscript⟩ := h.script; hn.of_drop hscript

theorem SessionKept.quiet (h : SessionKept s t) (hq : Quiet s) : Quiet t :=
  let ⟨_, hscript⟩ := h.script; hq.of_drop hscript

theorem SessionKept.answers (h : SessionKept s t) (ha : Answers s) : Answers t :=
  let ⟨n, hscript⟩ := h.script; ha.of_drop n h.rest.cfg hscript

theorem SessionKept.ready (h : SessionKept s t) (hr : Ready s) : Ready t :=
  ⟨h.rest.cfg ▸ hr.1, h.rest.idle, h.rest.faulted.trans hr.2.2⟩

theorem SessionKept.trans (h : SessionKept s t) (h' : SessionKept t u) : SessionKept s u where
  rest := h.rest.trans h'.rest
  script := by
    obtain ⟨m, hm⟩ := h.script
    obtain ⟨n, hn⟩ := h'.script
    exact ⟨m + n, by rw [hn, hm, List.drop_drop]⟩
  bank hw := (h.bank hw).trans (h'.bank (h.noForeignWrites hw))
  lines hq := (h'.lines (h.quiet hq)).trans (h.lines hq)

/-- A call that makes no access writes the cursor and its response alone. -/
theorem sessionKept_of_no_access (hr : Ready s) (c : Cursor) (rs : List Response) :
    SessionKept s { s with ecur := c, responses := rs } :=
  ⟨⟨rfl, rfl, hr.2.1, rfl, rfl, rfl, rfl⟩, ⟨0, rfl⟩, fun _ => ⟨rfl, rfl⟩, fun _ => rfl⟩

/-- Every pin has its field where nobody writes, and its level too while no pin state changes. -/
theorem SessionKept.fnField_eq (h : SessionKept s t) (hn : NoForeignWrites s) (p : Nat) : fnField t p = fnField s p :=
  fnField_congr h.rest.cfg (h.bank hn).bytes p

theorem SessionKept.level_eq (h : SessionKept s t) (hq : Quiet s) (p : Nat) : level t p = level s p :=
  have hbank := h.bank hq.unwritten
  level_congr h.rest.cfg hbank.bytes hbank.latches (h.lines hq) p

/-! ### The records -/

/-- What the record of a pin shows in a session from `s`, by what the other agents do. -/
structure RecordShows (s : State) (p : Nat) (r : Response) : Prop where
  pin : ∃ f l, r = pinRecord p f l
  field : NoForeignWrites s → ∃ l, r = pinRecord p (fnField s p) l
  level : Quiet s → r = pinRecord p (fnField s p) (level s p)

/-- The session's records so far are those of the first `k` pins, in ascending order. -/
structure RecordsShow (s : State) (k : Nat) (records : List Response) : Prop where
  count : records.length = k
  shows : ∀ j r, records[j]? = some r → RecordShows s j r

theorem RecordsShow.snoc (h : RecordsShow s k records) (hr : RecordShows s k r) :
    RecordsShow s (k + 1) (records ++ [r]) where
  count := by simp [h.count]
  shows j q hq := by
    rcases Nat.lt_trichotomy j records.length with hj | hj | hj
    · exact h.shows j q (by rwa [List.getElem?_append_left hj] at hq)
    · obtain rfl : r = q := by simpa [hj] using hq
      exact hj.trans h.count ▸ hr
    · have hout : (records ++ [r])[j]? = none := List.getElem?_eq_none (by simpa using hj)
      cases hout.symm.trans hq

/-- While no pin state changes, the records of a session from any state on the way are those of one from the start. -/
theorem RecordsShow.eq_of_quiet (h : RecordsShow s k records) (h' : RecordsShow t k records') (hkept : SessionKept s t)
    (hq : Quiet s) : records' = records := by
  refine List.ext_getElem (h'.count.trans h.count.symm) fun j hj' hj => ?_
  rw [(h.shows j _ (List.getElem?_eq_getElem hj)).level hq,
    (h'.shows j _ (List.getElem?_eq_getElem hj')).level (hkept.quiet hq),
    hkept.fnField_eq hq.unwritten, hkept.level_eq hq]

/-! ### A session -/

/-- A call at a pin keeps the session and adds the pin's record, whatever was done to the bank since its start. -/
theorem enext_pin_keeps_session (hkept : SessionKept s t) (hr : Ready s) (h : Answers s) (hc : t.ecur = .atPin p)
    (hp : p < s.cfg.numPins) :
    ∃ u r, exec .enext t = .next u ∧ u.ecur = .atPin (p + 1) ∧ SessionKept s u ∧ u.responses = t.responses ++ [r]
      ∧ RecordShows s p r := by
  obtain ⟨u, hx, hcur, hbank, hrest, hresp, hscript, hext, -⟩ :=
    enext_pin (hkept.ready hr) (hkept.answers h) hc (by rwa [hkept.rest.cfg])
  have hu : SessionKept s u := hkept.trans
    { rest := hrest
      script := hscript
      bank hn := have ⟨hmem, hlat⟩ := atLastRead_unwritten p hn; ⟨hbank.bytes.trans hmem, hbank.latches.trans hlat⟩
      lines hq := hext.trans (atLastRead_quiet p hq) }
  have hfield : NoForeignWrites s → fnField (atAccess t) p = fnField s p := fun hn => by
    rw [atAccess_passed (hkept.noForeignWrites hn).next, fnField_passed, hkept.fnField_eq hn]
  exact ⟨u, _, hx, hcur, hu, hresp, ⟨_, _, rfl⟩, fun hn => ⟨_, by rw [hfield hn]⟩,
    fun hq => by rw [hfield hq.unwritten, hu.level_eq hq]⟩

/-- The session from `s` after `HEADER` and the records of the first `k` pins. -/
structure SessionAt (s : State) (k : Nat) (records : List Response) (t : State) : Prop where
  ran : enextCalls (k + 1) s = .next t
  cursor : t.ecur = .atPin k
  kept : SessionKept s t
  responses : t.responses = s.responses ++ ⟨.ok, 0#32, 1#32⟩ :: records
  records : RecordsShow s k records

theorem session_reaches_pin (hr : Ready s) (h : Answers s) (hs : s.ecur = .start) (hk : k ≤ s.cfg.numPins) :
    ∃ records t, SessionAt s k records t := by
  induction k with
  | zero => exact ⟨[], _, (enextCalls_snoc rfl).trans (exec_enext_start hr hs), rfl, sessionKept_of_no_access hr _ _, rfl,
      rfl, by simp⟩
  | succ k ih =>
    obtain ⟨records, t, ht⟩ := ih (by omega)
    obtain ⟨u, r, hx, hcur, hkept, hresp, hshows⟩ := enext_pin_keeps_session ht.kept hr h ht.cursor hk
    exact ⟨records ++ [r], u, (enextCalls_snoc ht.ran).trans hx, hcur, hkept, by simp [hresp, ht.responses],
      ht.records.snoc hshows⟩

/-- The session from `s`, whole: `HEADER`, the record of every pin, `END`, and `START` again. -/
structure Session (s : State) (records : List Response) (t : State) : Prop where
  ran : enextCalls (s.cfg.numPins + 2) s = .next t
  cursor : t.ecur = .start
  kept : SessionKept s t
  responses : t.responses = s.responses ++ ⟨.ok, 0#32, 1#32⟩ :: (records ++ [⟨.ok, 0#32, 0#32⟩])
  records : RecordsShow s s.cfg.numPins records

theorem session_completes (hr : Ready s) (h : Answers s) (hs : s.ecur = .start) : ∃ records t, Session s records t := by
  obtain ⟨records, c, hc⟩ := session_reaches_pin hr h hs le_rfl
  have hrc := hc.kept.ready hr
  have hend := exec_enext_end hrc (by rw [hc.cursor, hc.kept.rest.cfg])
  exact ⟨records, _, (enextCalls_snoc hc.ran).trans hend, rfl, hc.kept.trans (sessionKept_of_no_access hrc _ _),
    by simp [hc.responses], hc.records⟩
end

/-- Settles O45: a session reaches every cursor on its way to `START`, and one from where it ends shows the same again. -/
theorem sessionReturnsToStart : Obligations.SessionReturnsToStart := by
  intro s hr hc hw hs
  have h : Answers s := ⟨hc, hw⟩
  refine ⟨fun k hk => ?_, ?_⟩
  · obtain ⟨_, c, hat⟩ := session_reaches_pin hr h hs hk
    exact ⟨c, hat.ran, hat.cursor⟩
  obtain ⟨records, t, ht⟩ := session_completes hr h hs
  have hshows := ht.records.shows
  refine ⟨t, records, ht.ran, ht.cursor, ht.responses, ht.records.count, fun k r hk => (hshows k r hk).pin,
    fun hn => ⟨ht.kept.bank hn, fun k r hk => (hshows k r hk).field hn⟩,
    fun hq => ⟨fun k r hk => (hshows k r hk).level hq, ?_⟩⟩
  obtain ⟨records', u, hu⟩ := session_completes (ht.kept.ready hr) (ht.kept.answers h) ht.cursor
  have hcfg : t.cfg = s.cfg := ht.kept.rest.cfg
  have hran := hu.ran
  have hsame := hu.records
  rw [hcfg] at hran hsame
  exact ⟨u, hran, hu.cursor, ht.records.eq_of_quiet hsame ht.kept hq ▸ hu.responses⟩

end Sys2Proof.Machine

/-! PROOFS, family 44_command_frontend. The names of pins: their digits, that no two pins share one, and what a name resolves
to in the table `configure` builds (rules R216, R217). -/

namespace Sys2Proof.Machine

/-- The number a name shows is the pin's. -/
theorem decimalFrom_drop_pinName (n : Nat) : decimalFrom 0 ((pinName n).drop 4) = n := by
  obtain ⟨_, _, hvalue, _⟩ := digits_spec (n + 1) n n.lt_succ_self
  exact hvalue

theorem pinName_injective : Function.Injective pinName := fun m n h =>
  calc m = decimalFrom 0 ((pinName m).drop 4) := (decimalFrom_drop_pinName m).symm
    _ = decimalFrom 0 ((pinName n).drop 4) := by rw [h]
    _ = n := decimalFrom_drop_pinName n

theorem lookup_cons (b : Binding) (table : List Binding) (name : List Byte) :
    lookup (b :: table) name = if b.name = name then some b.pin else lookup table name := by
  by_cases h : b.name = name <;> simp [lookup, h]

/-- The first binding of a pin's name is one of that pin, since no other pin has the name. -/
theorem lookup_map_pinName (pins : List Nat) (n : Nat) :
    lookup (pins.map fun k => ⟨pinName k, k⟩) (pinName n) = if n ∈ pins then some n else none := by
  induction pins with
  | nil => rfl
  | cons k pins ih =>
    rw [List.map_cons, lookup_cons, ih]
    by_cases hk : k = n
    · simp [hk]
    · simp [pinName_injective.ne hk, Ne.symm hk]

/-- Settles O53: the digits have the pin as their value, so a name determines its pin. -/
theorem namesResolveToPins : Obligations.NamesResolveToPins := by
  refine ⟨fun n => ?_, fun _ _ h => pinName_injective h, lookup_map_pinName⟩
  obtain ⟨hne, hdigit, hvalue, hzero⟩ := digits_spec (n + 1) n n.lt_succ_self
  refine ⟨_, rfl, hne, hdigit, hvalue, fun hhead => ?_⟩
  obtain rfl := hzero hhead
  rfl

end Sys2Proof.Machine

/-! PROOFS, family other: the step. What every input keeps is said once (`InputKeeps`), and the invariant and the configuration
follow from it (rules R13, R23, R24, R28, R215); who may take a step, and what leaves a faulted engine (rules R26, R238). -/

namespace Sys2Proof.Machine

variable {s t : State} {w : Word} {i : Instr} {rest : List Input} {input : Input}

/-! ### One step, by its input -/

theorem step_input (h : s.inputs = input :: rest) : step s = takeInput input (withInputs rest s) := by
  rw [step, takeNext, h]

theorem step_no_input (h : s.inputs = []) : step s = idle s := by rw [step, takeNext, h]

/-- A legal word at the port is executed (rule R90). -/
theorem present_legal (h : decode w = .legal i) : present w s = exec i s := by rw [present, h]

/-- A word at the port needs a ready engine, legal or not (rules R90, R98). -/
theorem present_needs_ready (h : present w s = .next t) : Ready s := by
  rcases present_cases h with ⟨i, h⟩ | ⟨hr, -⟩
  · exact (exec_framed h).1
  · exact hr

/-- Every input but reset and an act of another agent needs a ready engine (rules R26, R90). -/
theorem takeInput_needs_ready (h : takeInput input s = .next t) :
    Ready s ∨ (∃ cfg, input = .reset cfg) ∨ ∃ a, input = .act a := by
  cases input with
  | command w => exact .inl (present_needs_ready h)
  | reset cfg => exact .inr (.inl ⟨cfg, rfl⟩)
  | act a => exact .inr (.inr ⟨a, rfl⟩)
  | text ch buf => exact .inl (ifReady_next h).1
  | query q => exact .inl (ifReady_next h).1
  | enumRead => exact .inl (ifReady_next h).1
  | configure pins => exact .inl (ifReady_next h).1
  | teardown => exact .inl (ifReady_next h).1

theorem resetInput_next {cfg : Config} (h : resetInput cfg s = .next t) :
    ConfigOK cfg ∧ t = resetEngine { s with cfg := cfg } := by
  unfold resetInput at h
  split at h
  · exact ⟨‹_›, by injection h with h; exact h.symm⟩
  · cases h

/-! ### What every input but reset keeps -/

/-- The table of bindings replaced, with the flag of log 14. -/
def withTable (table : List Binding) (configured : Bool) (s : State) : State :=
  { s with bind := table, configured := configured }

/-- `P` is kept by all that an input other than reset can do to the machine. -/
structure InputKeeps (P : State → Prop) : Prop where
  front : FrontKeeps P
  bank : Closed P
  inputs : ∀ rest s, P s → P (withInputs rest s)
  configure : ∀ (pins : List Nat) (s : State), (∀ n ∈ pins, n < s.cfg.numPins) → P s →
    P (withTable (pins.map fun n => ⟨pinName n, n⟩) true s)
  teardown : ∀ s, P s → P (withTable [] false s)

variable {P : State → Prop}

theorem configure_cases {pins : List Nat} (h : configure pins s = .next t) :
    ((∀ n ∈ pins, n < s.cfg.numPins) ∧ t = reply .ok (withTable (pins.map fun n => ⟨pinName n, n⟩) true s))
    ∨ t = reply .outOfRange s := by
  obtain ⟨-, h⟩ := ifReady_next h
  split at h
  · cases h
  · split at h
    · rename_i hpins
      injection h with h
      exact .inl ⟨by simpa using hpins, h.symm⟩
    · injection h with h
      exact .inr h.symm

theorem InputKeeps.takeInput (hk : InputKeeps P) (hne : ∀ cfg, input ≠ .reset cfg) (h : takeInput input s = .next t)
    (hs : P s) : P t := by
  cases input with
  | command w => exact hk.front.present h hs
  | reset cfg => exact absurd rfl (hne cfg)
  | act a => exact actInput_keeps hk.bank h hs
  | text ch buf => exact hk.front.text h hs
  | query q => exact hk.front.query h hs
  | enumRead => exact hk.front.enum h hs
  | configure pins =>
    rcases configure_cases h with ⟨hpins, rfl⟩ | rfl
    · exact hk.front.reply _ _ (hk.configure pins s hpins hs)
    · exact hk.front.reply _ _ hs
  | teardown =>
    obtain ⟨-, h⟩ := ifReady_next h
    injection h with h
    exact h ▸ hk.teardown s hs

/-- A step takes the next input, or does nothing. -/
theorem InputKeeps.step (hk : InputKeeps P) (hne : ∀ cfg rest, s.inputs ≠ .reset cfg :: rest) (h : step s = .next t)
    (hs : P s) : P t := by
  cases hin : s.inputs with
  | nil =>
    rw [step_no_input hin] at h
    obtain ⟨-, h⟩ := ifReady_next h
    injection h with h
    exact h ▸ hs
  | cons input rest =>
    rw [step_input hin] at h
    exact hk.takeInput (fun cfg he => hne cfg rest (he ▸ hin)) h (hk.inputs rest s hs)

/-! ### The configuration -/

/-- However a command ends, the configuration is as before (rule R28). -/
theorem exec_cfg (h : exec i s = .next t) : t.cfg = s.cfg := by
  obtain ⟨-, ⟨_, _, u, hu, rfl⟩ | ⟨_, u, hu, -, rfl⟩ | ⟨u, hu, rfl⟩⟩ := exec_framed h
  · exact hu.cfg
  · exact hu.cfg
  · exact hu.cfg

theorem cfg_closed (cfg : Config) : Closed fun u => u.cfg = cfg where
  line _ _ _ h := by simpa using h
  probe _ _ h := by simpa using h
  fsel _ _ _ h := h
  set _ _ _ h := h
  clr _ _ _ h := h
  draw _ h := h
  script _ _ _ _ h := h
  temp _ _ h := h

theorem cfg_inputKeeps (cfg : Config) : InputKeeps fun u => u.cfg = cfg where
  front := ⟨fun _ _ _ h hs => (exec_cfg h).trans hs, fun _ h => h, fun _ _ h => h⟩
  bank := cfg_closed cfg
  inputs _ _ h := h
  configure _ _ _ h := h
  teardown _ h := h

/-- Settles O11: no input but reset writes the configuration. -/
theorem configChangesOnlyAtReset : Obligations.ConfigChangesOnlyAtReset :=
  fun s _ h hne => (cfg_inputKeeps s.cfg).step hne h rfl

/-! ### The invariant -/

theorem inv_closed : Closed Inv where
  line p l s h := ⟨by simpa using h.config, by simpa using ((sound_closed s).line p l s ⟨rfl, h.memory, h.cursor⟩).memory,
    by simpa using h.idle, by simpa using h.cursor, by simpa using h.bindings, by simpa using h.unconfigured⟩
  probe p s h := ⟨by simpa using h.config, by simpa using h.memory, by simpa using h.idle, by simpa using h.cursor,
    by simpa using h.bindings, by simpa using h.unconfigured⟩
  fsel j v s h := ⟨h.config, ((sound_closed s).fsel j v s ⟨rfl, h.memory, h.cursor⟩).memory, h.idle, h.cursor, h.bindings,
    h.unconfigured⟩
  set j v s h := ⟨h.config, ((sound_closed s).set j v s ⟨rfl, h.memory, h.cursor⟩).memory, h.idle, h.cursor, h.bindings,
    h.unconfigured⟩
  clr j v s h := ⟨h.config, ((sound_closed s).clr j v s ⟨rfl, h.memory, h.cursor⟩).memory, h.idle, h.cursor, h.bindings,
    h.unconfigured⟩
  draw _ h := ⟨h.config, h.memory, h.idle, h.cursor, h.bindings, h.unconfigured⟩
  script _ _ _ _ h := ⟨h.config, h.memory, h.idle, h.cursor, h.bindings, h.unconfigured⟩
  temp _ _ h := ⟨h.config, h.memory, by simp [h.idle], h.cursor, h.bindings, h.unconfigured⟩

/-- However a command ends, the memories are canonical and the cursor legal, and the engine is idle. -/
theorem exec_keeps_sound (h : exec i s = .next t) (hs : Inv s) : Sound s t ∧ t.busy = none := by
  obtain ⟨-, ⟨_, _, u, hu, rfl⟩ | ⟨_, u, hu, -, rfl⟩ | ⟨u, hu, rfl⟩⟩ := exec_sound h hs.memory hs.cursor
  · exact ⟨⟨hu.cfg, hu.memory, hu.cursor⟩, rfl⟩
  · exact ⟨⟨hu.cfg, hu.memory, hu.cursor⟩, rfl⟩
  · exact ⟨⟨hu.cfg, hu.memory, rfl⟩, rfl⟩

/-- However a command ends, the table is as before, or emptied by a reset that cut it (rules R31, R261). -/
theorem exec_table (h : exec i s = .next t) :
    (t.bind = s.bind ∧ t.configured = s.configured) ∨ (t.bind = [] ∧ t.configured = false) := by
  obtain ⟨-, ⟨_, _, u, hu, rfl⟩ | ⟨_, u, hu, -, rfl⟩ | ⟨u, hu, rfl⟩⟩ := exec_framed h
  · exact .inl ⟨hu.bind, hu.configured⟩
  · exact .inl ⟨hu.bind, hu.configured⟩
  · exact .inr ⟨rfl, rfl⟩

theorem exec_keeps_inv (h : exec i s = .next t) (hs : Inv s) : Inv t := by
  obtain ⟨hsound, hidle⟩ := exec_keeps_sound h hs
  have hcfg := hsound.cfg
  refine ⟨hcfg ▸ hs.config, hsound.memory, hidle, hsound.cursor, ?_, ?_⟩
  · rcases exec_table h with ⟨hb, -⟩ | ⟨hb, -⟩
    · rw [hb, hcfg]; exact hs.bindings
    · simp [hb]
  · rcases exec_table h with ⟨hb, hc⟩ | ⟨hb, -⟩
    · rw [hb, hc]; exact hs.unconfigured
    · exact fun _ => hb

theorem inv_frontKeeps : FrontKeeps Inv where
  exec _ _ _ h hs := exec_keeps_inv h hs
  reject _ h := ⟨h.config, h.memory, rfl, h.cursor, h.bindings, h.unconfigured⟩
  reply _ _ h := ⟨h.config, h.memory, h.idle, h.cursor, h.bindings, h.unconfigured⟩

theorem inv_inputKeeps : InputKeeps Inv where
  front := inv_frontKeeps
  bank := inv_closed
  inputs _ _ h := ⟨h.config, h.memory, h.idle, h.cursor, h.bindings, h.unconfigured⟩
  configure pins s hpins h := ⟨h.config, h.memory, h.idle, h.cursor, by simpa [withTable] using hpins, nofun⟩
  teardown _ h := ⟨h.config, h.memory, h.idle, h.cursor, by simp [withTable], fun _ => rfl⟩

/-- The reset input installs a `ConfigOK` configuration and leaves the memories alone (rules R261, R262). -/
theorem resetInput_inv {cfg : Config} (h : resetInput cfg s = .next t) (hm : Memory.Wf s.mem ∧ Memory.Wf s.lat ∧ Memory.Wf s.ext) :
    Inv t := by
  obtain ⟨ok, rfl⟩ := resetInput_next h
  exact ⟨ok, hm, rfl, rfl, by simp, fun _ => rfl⟩

/-- Settles O56: reset establishes the invariant, every other input keeps it. -/
theorem stepKeepsInvariant : Obligations.StepKeepsInvariant := by
  intro s t hs h
  by_cases hreset : ∃ cfg rest, s.inputs = .reset cfg :: rest
  · obtain ⟨cfg, rest, hin⟩ := hreset
    rw [step_input hin] at h
    exact resetInput_inv (s := withInputs rest s) h hs.memory
  · exact inv_inputKeeps.step (fun cfg rest hin => hreset ⟨cfg, rest, hin⟩) h hs

/-- Settles O55: the reference configuration is `ConfigOK`, and the memories, the table and the cursor are the empty ones. -/
theorem resetMeetsInvariant : Obligations.ResetMeetsInvariant :=
  ⟨by decide, ⟨nil_wf, nil_wf, nil_wf⟩, rfl, rfl, by simp [State.reset], fun _ => rfl⟩

/-! ### Commands at the port -/

/-- Settles O6: the word is taken off the port and decoded. -/
theorem stepRunsDecodedCommand : Obligations.StepRunsDecodedCommand := fun _ _ _ _ hin hd =>
  (step_input hin).trans (present_legal hd)

/-- Settles O7: presenting puts the word in front, and a well-formed command's word decodes to it. -/
theorem presentedWordRuns : Obligations.PresentedWordRuns := by
  intro s i h
  have hword : BitVec.ofNat 32 ((encode i).toNat % 2 ^ 32) = encode i := by
    rw [Nat.mod_eq_of_lt (encode i).isLt, BitVec.ofNat_toNat, BitVec.setWidth_eq]
  rw [State.withFetchWord, hword, step_presentNext, present_legal (decode_encode h)]

/-- Settles O8: `exec` waits for readiness, and what is not ready stops by name. -/
theorem commandsNeedReadiness : Obligations.CommandsNeedReadiness := by
  intro i s
  obtain ⟨go, hgo⟩ := exec_ifReady i s
  rw [hgo]
  exact ⟨fun _ h => (ifReady_next h).1, ifReady_stop go⟩

/-- Settles O10: the idle step answers the state itself. -/
theorem idleEngineStays : Obligations.IdleEngineStays := fun _ hr hin => (step_no_input hin).trans (ifReady_ready hr _)

/-! ### Acts, reset and the faulted engine -/

theorem actInput_next {a : EnvAct} (h : actInput a s = .next t) : envAct a s = .done () t := by
  unfold actInput at h
  split at h
  · rcases envAct_cases a s with ⟨u, hu⟩ | ⟨why, hu⟩ <;> rw [hu] at h
    · injection h with h
      rw [hu, h]
    · cases h
  · cases h

/-- Settles O9: of the two inputs a faulted engine takes, reset clears `FAULTED` and an act does not touch the engine. -/
theorem onlyResetLeavesFaulted : Obligations.OnlyResetLeavesFaulted := by
  intro s t hfaulted h
  have hnot : ∀ u, u.faulted = s.faulted → ¬ Ready u := fun u hu hr => by
    obtain ⟨-, -, hhealthy⟩ := hr
    simp [hu, hfaulted] at hhealthy
  cases hin : s.inputs with
  | nil =>
    rw [step_no_input hin] at h
    exact absurd (ifReady_next h).1 (hnot s rfl)
  | cons input rest =>
    rw [step_input hin] at h
    rcases takeInput_needs_ready h with hr | ⟨cfg, rfl⟩ | ⟨a, rfl⟩
    · exact absurd hr (hnot _ rfl)
    · obtain ⟨-, rfl⟩ := resetInput_next h
      exact .inl ⟨cfg, rest, rfl, rfl⟩
    · have hframe := envAct_frame (actInput_next h)
      refine .inr ⟨a, rest, rfl, ?_⟩
      rw [hframe]
      exact ⟨hfaulted, rfl, rfl, rfl, rfl⟩

/-- Settles O12: what `resetEngine` writes is what the statement lists. -/
theorem resetRestoresEngine : Obligations.ResetRestoresEngine := by
  intro s cfg rest hin ok
  refine ⟨resetEngine { withInputs rest s with cfg := cfg }, ?_, rfl⟩
  rw [step_input hin, takeInput, resetInput, if_pos ok]

/-- Settles O13: the fields of `State.reset` are these values. -/
theorem resetStateValues : Obligations.ResetStateValues := ⟨rfl, rfl, rfl, rfl, rfl, rfl, rfl, rfl⟩

end Sys2Proof.Machine

/-! PROOFS, family other: words, offsets and texts. The operands of a word are its fields (rules R93 to R95); an offset names one
register (rules R13, R58); what a buffer's tokens are and what command they make (rules R196 to R199, R221). -/

namespace Sys2Proof

/-! ### The fields of a word -/

theorem pinField_eq_mod (w : Word) : pinField w = w.toNat % 65536 := by
  rw [pinField, BitVec.extractLsb'_toNat, Nat.shiftRight_zero]

theorem lvlField_eq_iff (w : Word) (l : Level) : lvlField w = l ↔ w.getLsbD 25 = Machine.bitOfLevel l := by
  unfold lvlField
  cases w.getLsbD 25 <;> cases l <;> decide

/-- Settles O3: a decoded command is its row's with the fields of the word as operands. -/
theorem operandsAreWordFields : Obligations.OperandsAreWordFields := by
  intro w
  have hpin := pinField_eq_mod w
  refine ⟨fun f p h => ?_, fun p l h => ?_, fun p h => ?_⟩
  · obtain ⟨hf, hp⟩ := Instr.addr.inj (decode_eq_legal_iff.mp h).2
    rw [← famField_code, hf, ← hp]
    exact ⟨hpin, by cases f <;> rfl⟩
  · have hfields : pinField w = p ∧ lvlField w = l := by
      rcases h with h | h
      · exact Instr.cfgout.inj (decode_eq_legal_iff.mp h).2
      · exact Instr.setlv.inj (decode_eq_legal_iff.mp h).2
    obtain ⟨hp, hl⟩ := hfields
    rw [(lvlField_eq_iff w l).mp hl, ← hp]
    exact ⟨hpin, by cases l <;> rfl⟩
  · have hp : pinField w = p := by
      rcases h with h | h | h
      · exact Instr.cfgin.inj (decode_eq_legal_iff.mp h).2
      · exact Instr.rdfn.inj (decode_eq_legal_iff.mp h).2
      · exact Instr.rdlv.inj (decode_eq_legal_iff.mp h).2
    rw [← hp, hpin]

/-- Settles O4: eight words, each evaluated. -/
theorem spelledWordsDecode : Obligations.SpelledWordsDecode := by
  unfold Obligations.SpelledWordsDecode
  decide

end Sys2Proof

namespace Sys2Proof.Machine

/-! ### Offsets and registers -/

/-- Settles O15: the family table put into `addressOf`. -/
theorem addressOfTriple : Obligations.AddressOfTriple := fun cfg p =>
  ⟨rfl, by simp [addressOf, base, ppr, bpp], by simp [addressOf, base, ppr, bpp], by simp [addressOf, base, ppr, bpp]⟩

/-- Settles O17: the register at a pin's offset is the pin's, so equal offsets have equal registers. -/
theorem offsetNamesOneRegister : Obligations.OffsetNamesOneRegister := by
  intro cfg f g p q ok hp hq
  have hreg := regAt_addressOf ok f hp
  refine ⟨hreg, fun he => ?_, ?_⟩
  · rw [he, regAt_addressOf ok g hq] at hreg
    obtain ⟨hfam, hidx⟩ := Prod.mk.inj (Option.some.inj hreg)
    exact ⟨hfam.symm, hidx.symm⟩
  · rintro ⟨rfl, hidx⟩
    rw [addressOf_offset, addressOf_offset, hidx]

/-- Settles O33: the check comes before the access. -/
theorem badOffsetFaults : Obligations.BadOffsetFaults := fun _ _ _ hbad => ⟨if_pos hbad, if_pos hbad⟩

/-! ### Tokens -/

theorem tokens_spaces {w : List Byte} (hw : ∀ b ∈ w, isSpace b = true) : tokens w = [] := by
  simpa [tokens, tokensFrom] using tokensFrom_spaces w [] hw

/-- A buffer of one token. -/
theorem tokens_single {w0 x w1 : List Byte} (h0 : ∀ b ∈ w0, isSpace b = true) (hx : ∀ b ∈ x, isSpace b = false)
    (hne : x ≠ []) (h1 : ∀ b ∈ w1, isSpace b = true) : tokens (w0 ++ x ++ w1) = [x] := by
  rw [tokens, List.append_assoc, tokensFrom_spaces _ _ h0, tokensFrom_run _ _ _ hx,
    tokensFrom_last _ _ (by simpa using hne) h1]
  simp

/-- Settles O46: whitespace is skipped, a run is gathered, and whitespace or the end closes it. -/
theorem tokensAreMaximalRuns : Obligations.TokensAreMaximalRuns := by
  refine ⟨isSpace_iff, fun w hw => tokens_spaces hw, fun w0 x w1 rest hw hx hne => ?_⟩
  have h0 : ∀ b ∈ w0, isSpace b = true := fun b hb => hw b (List.mem_append_left _ hb)
  have h1 : ∀ b ∈ w1, isSpace b = true := fun b hb => hw b (List.mem_append_right _ hb)
  exact ⟨tokens_single h0 hx hne h1, tokens_cons w0 x w1 rest h0 hx hne h1⟩

/-! ### Text commands -/

variable {s : State} {buf name : List Byte} {n : Nat} {act : Action}

theorem parseText_unbound_iff : parseText s .unbound buf = some (n, act) ↔
    ∃ tok, tokens buf = [tok, actionText act] ∧ parsePin s.cfg.numPins tok = some n := by
  unfold parseText
  constructor
  · intro h
    split at h
    · rename_i pinTok actTok _ htok
      split at h
      · rename_i m a hpin hact
        cases h
        exact ⟨pinTok, by rw [htok, (parseAction_iff _ _).mp hact], hpin⟩
      · cases h
    · rename_i hch _
      cases hch
    · cases h
  · rintro ⟨tok, htok, hpin⟩
    simp only [htok, hpin, (parseAction_iff _ act).mpr rfl]

theorem parseText_bound_iff : parseText s (.bound name) buf = some (n, act) ↔
    tokens buf = [actionText act] ∧ lookup s.bind name = some n := by
  unfold parseText
  constructor
  · intro h
    split at h
    · rename_i hch _
      cases hch
    · rename_i name' actTok hch htok
      cases hch
      split at h
      · rename_i m a hlook hact
        cases h
        exact ⟨by rw [htok, (parseAction_iff _ _).mp hact], hlook⟩
      · cases h
    · cases h
  · rintro ⟨htok, hlook⟩
    simp only [htok, hlook, (parseAction_iff _ act).mpr rfl]

/-- Settles O47: the forms are the two branches of the parser, and a digit appended counts ten times what stood before. -/
theorem textCommandForms : Obligations.TextCommandForms := by
  refine ⟨fun s buf n act word hword => ?_, rfl, fun digits d hd => ?_⟩
  · obtain rfl : word = actionText act := hword.trans (by cases act <;> rfl)
    refine ⟨?_, fun name => parseText_bound_iff⟩
    simp only [parseText_unbound_iff, parsePin_iff]
  · rw [decimalFrom_append, decimalFrom, decimalFrom, digit_val hd]

end Sys2Proof.Machine

/-! PROOFS, family other: acts of the other agents between two commands, as steps. A write of the bank by family (rules R62, R65,
R66, R69), an external line moved (rule R60), a pin probed (rule R71). -/

namespace Sys2Proof.Machine

variable {s t : State} {a : EnvAct} {off j : Nat} {v : Word} {rest : List Input}

/-! ### An act as a step -/

theorem step_act (h : s.inputs = .act a :: rest) (ok : ConfigOK s.cfg) (ha : envAct a (withInputs rest s) = .done () t) :
    step s = .next t := by
  rw [step_input h, takeInput, actInput, if_pos (by exact ok), ha]

theorem step_act_refused {why : Refusal} (h : s.inputs = .act a :: rest) (ok : ConfigOK s.cfg)
    (ha : envAct a (withInputs rest s) = .refused why) : step s = .refused why := by
  rw [step_input h, takeInput, actInput, if_pos (by exact ok), ha]

/-! ### A write of the bank, by the register it is for -/

theorem bankWrite_of_regAt_fsel (h : regAt s.cfg off = some (.fsel, j)) : bankWrite off v s = .done () (writeFsel j v s) := by
  rw [bankWrite, h]

theorem bankWrite_of_regAt_set (h : regAt s.cfg off = some (.set, j)) : bankWrite off v s = .done () (writeSet j v s) := by
  rw [bankWrite, h]

theorem bankWrite_of_regAt_clr (h : regAt s.cfg off = some (.clr, j)) : bankWrite off v s = .done () (writeClr j v s) := by
  rw [bankWrite, h]

theorem bankWrite_of_regAt_lev (h : regAt s.cfg off = some (.lev, j)) : bankWrite off v s = .refused .offRegister := by
  rw [bankWrite, h]

theorem bankWrite_of_no_register (h : ∀ f, ¬ IsRegister s.cfg f off) : bankWrite off v s = .refused .offRegister := by
  have hreg : regAt s.cfg off = none := by
    rcases hr : regAt s.cfg off with _ | ⟨f, j⟩
    · rfl
    · obtain ⟨hoff, hj⟩ := regAt_some hr
      exact absurd ⟨j, hj, hoff⟩ (h f)
  rw [bankWrite, hreg]

/-- A SET write as the spec puts it: the pins with a 1 bit, and the others (rule R65). -/
theorem latch_writeSet_eq_ite (s : State) (j : Nat) (v : Word) (p : Nat) : latch (writeSet j v s) p =
    if p / 32 = j ∧ v.getLsbD (p % 32) = true ∧ p < s.cfg.numPins then true else latch s p := by
  rw [latch_writeSet]
  split_ifs with h
  · simp [h]
  · have hno : (decide (p / 32 = j) && v.getLsbD (p % 32) && decide (p < s.cfg.numPins)) = false := by
      simpa [and_assoc] using h
    rw [hno, Bool.or_false]

/-- A CLR write likewise (rule R66). -/
theorem latch_writeClr_eq_ite (s : State) (j : Nat) (v : Word) (p : Nat) : latch (writeClr j v s) p =
    if p / 32 = j ∧ v.getLsbD (p % 32) = true ∧ p < s.cfg.numPins then false else latch s p := by
  rw [latch_writeClr]
  split_ifs with h
  · simp [h]
  · have hno : (decide (p / 32 = j) && v.getLsbD (p % 32) && decide (p < s.cfg.numPins)) = false := by
      simpa [and_assoc] using h
    rw [hno, Bool.not_false, Bool.and_true]

/-- Settles O31: the offset names the register, and the write of its family is the whole effect. -/
theorem bankWriteByFamily : Obligations.BankWriteByFamily := by
  intro s rest off v ok hin
  refine ⟨?_, ?_, ?_, ?_, fun hno => step_act_refused hin ok (bankWrite_of_no_register (s := withInputs rest s) hno)⟩
  · rintro j hj rfl
    refine ⟨_, step_act hin ok (bankWrite_of_regAt_fsel (s := withInputs rest s) (regAt_base ok hj)),
      fun i => fselReg_writeFsel _ i j v, fun a ha => byteAt_setWord_other _ _ _ _ ha, rfl⟩
  · rintro j hj rfl
    refine ⟨_, step_act hin ok (bankWrite_of_regAt_set (s := withInputs rest s) (regAt_base ok hj)), rfl,
      latch_writeSet_eq_ite _ _ _⟩
  · rintro j hj rfl
    refine ⟨_, step_act hin ok (bankWrite_of_regAt_clr (s := withInputs rest s) (regAt_base ok hj)), rfl,
      latch_writeClr_eq_ite _ _ _⟩
  · rintro j hj rfl
    exact step_act_refused hin ok (bankWrite_of_regAt_lev (s := withInputs rest s) (regAt_base ok hj))

/-! ### Lines and probes -/

theorem extLine_setLine {p : Nat} (l : Level) (hp : p < s.cfg.numPins) (q : Nat) :
    extLine (setLine p l s) q = if q = p then decide (l = .high) else extLine s q := by
  rw [extLine, setLine_ext, if_pos hp, packedBit_setPackedBit, bitOfLevel_eq_decide]
  rfl

theorem setLine_inside {p : Nat} (l : Level) (hp : p < s.cfg.numPins) :
    setLine p l s = { s with ext := setPackedBit s.ext p l } := if_pos hp

/-- Settles O32: the act is `setLine` of a pin that exists. -/
theorem environmentMovesLine : Obligations.EnvironmentMovesLine := by
  intro s rest p l ok hin hp
  refine ⟨_, step_act hin ok rfl, extLine_setLine l hp, ?_⟩
  rw [setLine_inside l (by exact hp)]
  rfl

theorem probePin_inside {p : Nat} (hp : p < s.cfg.numPins) : probePin p s = { s with probes := s.probes ++ [seen p s] } :=
  if_pos hp

theorem probePin_outside {p : Nat} (hp : s.cfg.numPins ≤ p) : probePin p s = s := if_neg (Nat.not_lt.mpr hp)

end Sys2Proof.Machine

/-! PROOFS, family other: the Pin Controller's commands where the accesses complete. Each command's state is given a name, with its
trace, fields and latches, and the statements of the results are read off it (rules R152 to R166). -/

namespace Sys2Proof.Machine

/-! ### The states after the commands -/

/-- The state after an undisturbed `CFGIN` (rule R152). -/
def afterCfgin (p : Nat) (s : State) : State :=
  respond .ok 0#32 0#32 (rmwDone p 0b000#32 (accept (.cfgin p) (atAccess s)))

/-- The state after an undisturbed `CFGOUT` (rule R156). -/
def afterCfgout (p : Nat) (l : Level) (s : State) : State :=
  respond .ok 0#32 0#32 (levelDone p l (passed (rmwDone p 0b001#32 (accept (.cfgout p l) (atAccess s)))))

/-- The states after `RDFN` and `RDLV` (rules R162, R165). -/
def afterRdfn (p : Nat) (s : State) : State :=
  respond .ok ((fnField (atAccess s) p).setWidth 32) 0#32 (fselDone p (accept (.rdfn p) (atAccess s)))

def afterRdlv (p : Nat) (s : State) : State :=
  respond .ok (levelWord (level (atAccess s) p)) 0#32 (levDone p (accept (.rdlv p) (atAccess s)))

/-- The words a `CFGIN` and a `CFGOUT` write back, with the mask written out (rule R151). -/
theorem rmwWord_input (p : Nat) (s : State) :
    rmwWord p 0b000#32 s = fselReg s (p / 10) &&& ~~~(0b111#32 <<< (3 * (p % 10))) := by
  simp [rmwWord, replaceField_three]

theorem rmwWord_output (p : Nat) (s : State) :
    rmwWord p 0b001#32 s = (fselReg s (p / 10) &&& ~~~(0b111#32 <<< (3 * (p % 10)))) ||| (0b001#32 <<< (3 * (p % 10))) :=
  replaceField_three _ _ _

theorem atAccess_rmwDone_ext (p : Nat) (m : Word) (s : State) :
    (atAccess (rmwDone p m s)).ext = (atAccess (atAccess s)).ext :=
  atAccess_ext_congr (by simp) (by simp) (by simp)

section
variable {s : State} {p : Nat} {l : Level}

theorem afterCfgin_trace : (afterCfgin p s).trace = s.trace ++
    [.rd (addressOf s.cfg .fsel p).offset (fselReg (atAccess s) (p / 10)),
      .wr (addressOf s.cfg .fsel p).offset (fselReg (atAccess s) (p / 10) &&& ~~~(0b111#32 <<< (3 * (p % 10))))] := by
  simp [afterCfgin, rmwWord_input]

theorem fselReg_afterCfgin :
    fselReg (afterCfgin p s) (p / 10) = fselReg (atAccess s) (p / 10) &&& ~~~(0b111#32 <<< (3 * (p % 10))) := by
  rw [afterCfgin, fselReg_respond, fselReg_rmwDone, rmwWord_accept, rmwWord_input]

theorem fnField_afterCfgin (q : Nat) : fnField (afterCfgin p s) q = if q = p then 0b000#3 else fnField (atAccess s) q := by
  rw [afterCfgin, fnField_respond, fnField_rmwDone _ _ _ fun j _ => getLsbD_zero32 j, fnField_accept]
  rfl

theorem latch_afterCfgin (q : Nat) : latch (afterCfgin p s) q = latch (atAccess s) q := by simp [afterCfgin]

theorem byteAt_afterCfgin {a : Nat}
    (ha : a < (addressOf s.cfg .fsel p).offset ∨ (addressOf s.cfg .fsel p).offset + 4 ≤ a) :
    byteAt (afterCfgin p s).mem a = byteAt (atAccess s).mem a :=
  byteAt_rmwDone p _ _ (by simpa using ha)

theorem sameRest_afterCfgin : SameRest s (afterCfgin p s) := by
  constructor <;> simp [afterCfgin]

theorem afterCfgout_trace : (afterCfgout p l s).trace = s.trace ++
    [.rd (addressOf s.cfg .fsel p).offset (fselReg (atAccess s) (p / 10)),
      .wr (addressOf s.cfg .fsel p).offset
        ((fselReg (atAccess s) (p / 10) &&& ~~~(0b111#32 <<< (3 * (p % 10)))) ||| (0b001#32 <<< (3 * (p % 10)))),
      .wr (addressOf s.cfg (levelFamily l) p).offset (1#32 <<< (p % 32))] := by
  simp [afterCfgout, rmwWord_output]

theorem fselReg_afterCfgout : fselReg (afterCfgout p l s) (p / 10) =
    (fselReg (atAccess s) (p / 10) &&& ~~~(0b111#32 <<< (3 * (p % 10)))) ||| (0b001#32 <<< (3 * (p % 10))) := by
  rw [afterCfgout, fselReg_respond, fselReg_levelDone, fselReg_passed, fselReg_rmwDone, rmwWord_accept, rmwWord_output]

theorem fnField_afterCfgout (q : Nat) :
    fnField (afterCfgout p l s) q = if q = p then 0b001#3 else fnField (atAccess s) q := by
  rw [afterCfgout, fnField_respond, fnField_levelDone, fnField_passed, fnField_rmwDone _ _ _ getLsbD_one_high, fnField_accept]
  rfl

theorem latch_afterCfgout (hp : p < s.cfg.numPins) (q : Nat) :
    latch (afterCfgout p l s) q = if q = p then decide (l = .high) else latch (atAccess s) q := by
  rw [afterCfgout, latch_respond, latch_levelDone l (by simpa using hp), bitOfLevel_eq_decide]
  simp

theorem byteAt_afterCfgout {a : Nat}
    (ha : a < (addressOf s.cfg .fsel p).offset ∨ (addressOf s.cfg .fsel p).offset + 4 ≤ a) :
    byteAt (afterCfgout p l s).mem a = byteAt (atAccess s).mem a := by
  rw [afterCfgout, respond_mem, levelDone_mem, passed_mem]
  exact byteAt_rmwDone p _ _ (by simpa using ha)

theorem afterCfgout_ext : (afterCfgout p l s).ext = (atAccess (atAccess (atAccess s))).ext := by
  rw [afterCfgout, respond_ext, levelDone_ext, passed_ext, atAccess_rmwDone_ext]
  simp

theorem afterSetlv_trace :
    (afterSetlv p l s).trace = s.trace ++ [.wr (addressOf s.cfg (levelFamily l) p).offset (1#32 <<< (p % 32))] := by
  simp [afterSetlv]

theorem fnField_afterSetlv (q : Nat) : fnField (afterSetlv p l s) q = fnField (atAccess s) q := by simp [afterSetlv]

theorem latch_afterSetlv_eq_ite (hp : p < s.cfg.numPins) (q : Nat) :
    latch (afterSetlv p l s) q = if q = p then decide (l = .high) else latch (atAccess s) q := by
  rw [latch_afterSetlv hp, bitOfLevel_eq_decide]

theorem afterRdfn_trace :
    (afterRdfn p s).trace = s.trace ++ [.rd (addressOf s.cfg .fsel p).offset (fselReg (atAccess s) (p / 10))] := by
  simp [afterRdfn]

theorem sameBank_afterRdfn : SameBank (atAccess s) (afterRdfn p s) := ⟨by simp [afterRdfn], by simp [afterRdfn]⟩

theorem afterRdlv_trace :
    (afterRdlv p s).trace = s.trace ++ [.rd (addressOf s.cfg .lev p).offset (levReg (atAccess s) (p / 32))] := by
  simp [afterRdlv]

theorem sameBank_afterRdlv : SameBank (atAccess s) (afterRdlv p s) := ⟨by simp [afterRdlv], by simp [afterRdlv]⟩

/-- The raw field as `RDFN` cuts it out of its register (rule R162). -/
theorem fselReg_shifted (s : State) (p : Nat) :
    (fselReg s (p / 10) >>> (3 * (p % 10))) &&& 0b111#32 = (fnField s p).setWidth 32 := by
  rw [fnField, ← extractField_three, extractField, lowMask_three]

/-- The level as `RDLV` cuts it out of its register (rule R165). -/
theorem levReg_shifted (hp : p < s.cfg.numPins) :
    (levReg s (p / 32) >>> (p % 32)) &&& 1#32 = levelWord (level s p) := by
  rw [← lowMask_one, ← extractField, extractField_bit, levReg_pin s p hp, levelWord]

/-- `LEV_MODEL`, spelled out (rule R68). -/
theorem level_eq_ite (s : State) (q : Nat) : level s q =
    if s.cfg.levModel = .latchAlways ∨ fnField s q = 0b001#3 then latch s q else extLine s q := by
  unfold level
  cases hm : s.cfg.levModel <;> simp

/-- A state of the same bank has the same fields and latches. -/
theorem SameBank.fnField_latch {t : State} (h : SameBank s t) (hc : t.cfg = s.cfg) (q : Nat) :
    fnField t q = fnField s q ∧ latch t q = latch s q := ⟨fnField_congr hc h.bytes q, latch_congr h.latches q⟩

end

/-! ### The statements -/

/-- Settles O20: the fields of `afterCfgin`. -/
theorem cfginClearsField : Obligations.CfginClearsField := by
  intro s p hr hc hw hs hp
  refine ⟨afterCfgin p s, exec_cfgin hr ⟨hc, hw⟩ hs hp, afterCfgin_trace, fselReg_afterCfgin, by simp [afterCfgin, okResponse],
    fun _ => byteAt_afterCfgin, by simp [afterCfgin], by simp [afterCfgin], by simp [afterCfgin], sameRest_afterCfgin⟩

/-- Settles O21: the fields of `afterCfgout`. -/
theorem cfgoutSetsFieldThenLevel : Obligations.CfgoutSetsFieldThenLevel := by
  intro s p l hr hc hw hs hp
  refine ⟨afterCfgout p l s, exec_cfgout hr ⟨hc, hw⟩ hs hp, afterCfgout_trace, fselReg_afterCfgout, latch_afterCfgout hp,
    by simp [afterCfgout, okResponse], fun _ => byteAt_afterCfgout, afterCfgout_ext, by simp [afterCfgout], ?_⟩
  constructor <;> simp [afterCfgout]

/-- Settles O22: the fields of `afterSetlv`. -/
theorem setlvDrivesLatch : Obligations.SetlvDrivesLatch := by
  intro s p l hr hc hw hp
  refine ⟨afterSetlv p l s, exec_setlv hr ⟨hc, hw⟩ hp l, afterSetlv_trace, latch_afterSetlv_eq_ite hp,
    by simp [afterSetlv, okResponse], by simp [afterSetlv], by simp [afterSetlv], by simp [afterSetlv], ?_⟩
  constructor <;> simp [afterSetlv]

/-- Settles O23: the fields of `afterRdfn`. -/
theorem rdfnReturnsField : Obligations.RdfnReturnsField := by
  intro s p hr hc hw hp
  refine ⟨afterRdfn p s, exec_rdfn hr ⟨hc, hw⟩ hp, by rw [fselReg_shifted]; simp [afterRdfn], fselReg_shifted _ _,
    afterRdfn_trace, sameBank_afterRdfn, by simp [afterRdfn], by simp [afterRdfn], ?_⟩
  constructor <;> simp [afterRdfn]

/-- Settles O24: the fields of `afterRdlv`, and each bit of the LEV register is its pin's level. -/
theorem rdlvReturnsLevel : Obligations.RdlvReturnsLevel := by
  intro s p hr hc hw hp
  refine ⟨afterRdlv p s, levReg (atAccess s) (p / 32), exec_rdlv hr ⟨hc, hw⟩ hp, afterRdlv_trace,
    by rw [levReg_shifted (by simpa using hp)]; simp [afterRdlv], fun q hreg hq => ?_, sameBank_afterRdlv, by simp [afterRdlv],
    by simp [afterRdlv], ?_⟩
  · rw [← hreg, levReg_pin _ _ (by simpa using hq), level_eq_ite, atAccess_cfg]
  · constructor <;> simp [afterRdlv]

/-- Settles O25: each row of the table is the state after its command. -/
theorem pinControllerSummary : Obligations.PinControllerSummary := by
  intro s p l hr hc hw hp
  have h : Answers s := ⟨hc, hw⟩
  refine ⟨fun hs => ?_, fun hs => ?_, ?_, ?_, ?_⟩
  · exact ⟨_, _, _, exec_cfgin hr h hs hp, afterCfgin_trace, fun q => ⟨fnField_afterCfgin q, latch_afterCfgin q⟩⟩
  · exact ⟨_, _, _, _, exec_cfgout hr h hs hp, afterCfgout_trace, fun q => ⟨fnField_afterCfgout q, latch_afterCfgout hp q⟩⟩
  · exact ⟨_, _, exec_setlv hr h hp l, afterSetlv_trace, fun q => ⟨fnField_afterSetlv q, latch_afterSetlv_eq_ite hp q⟩⟩
  · exact ⟨_, _, exec_rdfn hr h hp, afterRdfn_trace, sameBank_afterRdfn.fnField_latch (by simp [afterRdfn])⟩
  · exact ⟨_, _, exec_rdlv hr h hp, afterRdlv_trace, sameBank_afterRdlv.fnField_latch (by simp [afterRdlv])⟩

/-! ### A foreign write between the read and the write-back -/

theorem rmwWritten_trace (p : Nat) (m : Word) (s t : State) :
    (rmwWritten p m s t).trace = t.trace ++ [.wr (addressOf s.cfg .fsel p).offset (rmwWord p m s)] := by simp [rmwWritten]

theorem turnAnswers_cons {cfg : Config} {acts : List EnvAct} {rest : List BusTurn} (h : ∀ a ∈ acts, actDefined cfg a = true) :
    TurnAnswers cfg (⟨acts, .done⟩ :: rest) := fun t ht => by
  obtain rfl : ⟨acts, .done⟩ = t := by simpa using ht
  exact ⟨rfl, h⟩

/-- Settles O42: the write-back is computed from the word read, and no later act before the level write is of that register. -/
theorem foreignWriteLost : Obligations.ForeignWriteLost := by
  intro s p before between rest hr hp hscript hdef
  have hfirst : TurnAnswers s.cfg s.script := by
    rw [hscript]
    exact turnAnswers_cons fun a ha => hdef a (List.mem_append_left _ ha)
  have hsecond : TurnAnswers s.cfg s.script.tail := by
    rw [hscript]
    exact turnAnswers_cons fun a ha => hdef a (List.mem_append_right _ ha)
  refine ⟨⟨_, exec_cfgin_turns hr hp hfirst hsecond, ?_, ?_, by simp [okResponse]⟩, fun l hlast => ?_⟩
  · simp [rmwWritten_trace, rmwWord_input]
  · rw [fselReg_respond, fselReg_rmwWritten, rmwWord_accept, rmwWord_input]
  · have hthird : TurnAnswers s.cfg s.script.tail.tail := fun u hu =>
      have hu := hlast u (by cases rest <;> simp_all)
      ⟨hu.1, fun a ha => (hu.2 a ha).1⟩
    have huntouched : Untouched [(addressOf s.cfg .fsel p).offset] rest := fun u hu a ha off hoff => by
      rw [List.mem_singleton.mp hoff]
      exact ((hlast u hu).2 a ha).2
    refine ⟨_, _, exec_cfgout_turns hr hp l hfirst hsecond hthird, rfl, ?_, ?_, by simp [okResponse]⟩
    · simp [rmwWritten_trace, rmwWord_output]
    · rw [fselReg_respond, fselReg_levelDone, fselReg_atAccess_untouched (by simpa [hscript] using huntouched) (by simp),
        fselReg_rmwWritten, rmwWord_accept, rmwWord_output]

end Sys2Proof.Machine

/-! PROOFS, family other: every command under every bus script. One response, the cursor and the engine's frame where no reset
arrives (rules R24, R101, R233), `OUT_OF_RANGE` without any effect (rule R237), and the frame of the bank while the host serializes
(rules R80, R151, R155). -/

namespace Sys2Proof.Machine

variable {s t u w : State} {i : Instr} {p : Nat}

/-! ### Responses, the cursor and the engine -/

/-- Settles O36: a command that no reset cut ends with its response or with an error taken, and no command raises
`INVALID_COMMAND`. -/
theorem oneResponsePerCommand : Obligations.OneResponsePerCommand := by
  intro i s t hn h
  obtain ⟨⟨-, -, hhealthy⟩, hends⟩ := exec_noReset hn h
  rcases hends with ⟨d0, d1, u, ⟨hu, -⟩, rfl⟩ | ⟨e, u, ⟨hu, hcur⟩, herr, rfl⟩ | ⟨_, hno, -⟩
  · refine ⟨⟨.ok, d0, d1⟩, by simp [hu.responses], fun hne => absurd rfl hne, ?_, nofun⟩
    simp [hu.faulted, hhealthy]
  · refine ⟨⟨statusOfError e, 0#32, 0#32⟩, by simp [hu.responses], fun _ => ⟨rfl, rfl, hcur⟩, ?_, ?_⟩
    · rw [takeError_faulted, hu.faulted, hhealthy]
      cases e <;> simp [faultedAfter, statusOfError]
    · rcases herr with rfl | ⟨rfl, -⟩ <;> nofun
  · exact hno.elim

/-- Settles O39: however a command ends, `Framed` holds before the response, and the response writes none of these. -/
theorem commandKeepsEngineFrame : Obligations.CommandKeepsEngineFrame := by
  intro i s t hn h
  obtain ⟨-, ⟨_, _, u, ⟨hu, -⟩, rfl⟩ | ⟨_, u, ⟨hu, -⟩, -, rfl⟩ | ⟨_, hno, -⟩⟩ := exec_noReset hn h
  · exact ⟨hu.cfg, rfl, hu.bind, hu.configured, hu.inputs, hu.replies, hu.probes⟩
  · exact ⟨hu.cfg, rfl, hu.bind, hu.configured, hu.inputs, hu.replies, hu.probes⟩
  · exact hno.elim

/-- Settles O41: the cursor is written by `ENEXT` alone. -/
theorem onlyEnextMovesCursor : Obligations.OnlyEnextMovesCursor := by
  intro i s t hne hn h
  obtain ⟨-, ⟨_, _, u, ⟨-, hcur⟩, rfl⟩ | ⟨_, u, ⟨-, hcur⟩, -, rfl⟩ | ⟨_, hno, -⟩⟩ := exec_noReset hn h
  · exact hcur.resolve_left hne
  · exact hcur
  · exact hno.elim

/-- A command of a pin that does not exist ends at its check (rules R122, R150). -/
theorem exec_outOfRange (hr : Ready s) (hp : s.cfg.numPins ≤ i.pin) (hne : i ≠ .enext) :
    exec i s = .next { s with responses := s.responses ++ [errorResponse .outOfRange] } := by
  cases i with
  | enext => exact absurd rfl hne
  | _ => exact command_checkPin_out hr hp _ _

/-- Settles O37: of the ways a command ends only the check of a pin that does not exist answers `OUT_OF_RANGE`. -/
theorem outOfRangeChangesNothing : Obligations.OutOfRangeChangesNothing := by
  intro i s t r h hresp hstatus
  obtain ⟨hr, hends⟩ := exec_framed h
  rcases hends with ⟨d0, d1, u, hu, rfl⟩ | ⟨e, u, hu, herr, rfl⟩ | ⟨u, hu, rfl⟩
  · rw [respond_responses, hu.responses] at hresp
    obtain rfl : ⟨.ok, d0, d1⟩ = r := by simpa using hresp
    cases hstatus
  · rw [takeError_responses, hu.responses] at hresp
    obtain rfl : ⟨statusOfError e, 0#32, 0#32⟩ = r := by simpa using hresp
    rcases herr with rfl | ⟨-, hp, hne⟩
    · cases hstatus
    · rw [exec_outOfRange hr hp hne] at h
      injection h with h
      exact h.symm
  · rw [resetEngine_responses, hu.responses] at hresp
    simp at hresp

/-- `ENEXT` of a cursor that `ECUR` does not have (rule R24; log 13). -/
theorem exec_enext_beyond {k : Nat} (hr : Ready s) (hc : s.ecur = .atPin k) (hk : s.cfg.numPins < k) :
    exec .enext s = .fault .cursorOutside := by
  have hlt : ¬ k < s.cfg.numPins := by omega
  have hne : k ≠ s.cfg.numPins := by omega
  simp only [exec, execEnext, command_ready hr, accept_ecur, hc, accept_cfg, hlt, hne, if_false, finish]

/-- Settles O44: neither a pin nor the end is at such a cursor. -/
theorem cursorBeyondPinsStuck : Obligations.CursorBeyondPinsStuck := fun _ _ hr hc hk => exec_enext_beyond hr hc hk

/-! ### The frame of the bank -/

/-- The memories `m` and `l` are the bank of `b` but for what the command stores: its pin's FSEL register and latch. -/
structure BankFrame (i : Instr) (b : State) (m l : Memory) : Prop where
  bytes : ∀ a, (∀ p, i = .cfgin p ∨ (∃ l, i = .cfgout p l) →
    a < (addressOf b.cfg .fsel p).offset ∨ (addressOf b.cfg .fsel p).offset + 4 ≤ a) → byteAt m a = byteAt b.mem a
  latches : ∀ q, (∀ p l, i = .cfgout p l ∨ i = .setlv p l → q ≠ p) → packedBit l q = latch b q

theorem bankFrame_refl (i : Instr) (b : State) : BankFrame i b b.mem b.lat := ⟨fun _ _ => rfl, fun _ _ => rfl⟩

variable {b : State}

/-- An FSEL write of the command's pin stays within the frame (rule R151). -/
theorem BankFrame.fsel (h : BankFrame i b u.mem u.lat) (hc : u.cfg = b.cfg) (hi : i = .cfgin p ∨ ∃ l, i = .cfgout p l)
    (v : Word) : BankFrame i b (writeFsel (p / 10) v u).mem (writeFsel (p / 10) v u).lat where
  bytes a ha := by
    have hout := ha p hi
    rw [addressOf_offset, ppr] at hout
    rw [writeFsel_mem, hc, byteAt_setWord_other _ _ _ _ hout, h.bytes a ha]
  latches := h.latches

/-- So does its level write (rule R155). -/
theorem BankFrame.level {l : Level} (h : BankFrame i b u.mem u.lat) (hp : p < u.cfg.numPins)
    (hi : i = .cfgout p l ∨ i = .setlv p l) :
    BankFrame i b (writeLevelReg l (p / 32) (1#32 <<< (p % 32)) u).mem
      (writeLevelReg l (p / 32) (1#32 <<< (p % 32)) u).lat where
  bytes := by rw [writeLevelReg_mem]; exact h.bytes
  latches q hq := (latch_writeLevelReg u p q l hp).trans ((if_neg (hq p l hi)).trans (h.latches q hq))

/-- So does every write a command can make (rules R151, R155). -/
theorem BankFrame.stores (h : BankFrame i b u.mem u.lat) (ok : ConfigOK b.cfg) (hc : u.cfg = b.cfg)
    (hp : i.pin < b.cfg.numPins) {off : Nat} {v : Word} (hst : Stores b.cfg i off v) (hw : bankWrite off v u = .done () w) :
    BankFrame i b w.mem w.lat := by
  have ok' : ConfigOK u.cfg := hc ▸ ok
  have hp' : i.pin < u.cfg.numPins := hc ▸ hp
  rw [← hc] at hst
  cases i with
  | cfgin p =>
    obtain rfl := hst
    rw [bankWrite_fsel ok' (p := p) hp'] at hw
    cases hw
    exact h.fsel hc (.inl rfl) v
  | cfgout p l =>
    rcases hst with rfl | ⟨rfl, rfl⟩
    · rw [bankWrite_fsel ok' (p := p) hp'] at hw
      cases hw
      exact h.fsel hc (.inr ⟨l, rfl⟩) v
    · rw [bankWrite_level ok' (p := p) hp'] at hw
      cases hw
      exact h.level hp' (.inl rfl)
  | setlv p l =>
    obtain ⟨rfl, rfl⟩ := hst
    rw [bankWrite_level ok' (p := p) hp'] at hw
    cases hw
    exact h.level hp' (.inr rfl)
  | addr f p => exact hst.elim
  | rdfn p => exact hst.elim
  | rdlv p => exact hst.elim
  | enext => exact hst.elim

/-- An access before which nobody writes finds the bank framed if it was framed before. -/
theorem BankFrame.atAccess (h : BankFrame i b u.mem u.lat) (hw : NextUnwritten u.script) :
    BankFrame i b (atAccess u).mem (atAccess u).lat := by
  rw [atAccess_passed hw]
  exact h

theorem Run.Ends.mono {α : Type} {D D' R Q : State → Prop} {r : Run α} (h : r.Ends D R Q) (hD : ∀ u, D u → D' u) :
    r.Ends D' R Q := by
  cases r with
  | done a u => exact hD u h
  | _ => exact h

/-- Any error is one of the errors. -/
theorem Run.raises_any {α : Type} (r : Run α) : r.Raises fun _ => True := by cases r <;> trivial

/-- The bank is framed by that at the command's first access. -/
abbrev FramedBank (i : Instr) (s u : State) : Prop := BankFrame i (Machine.atAccess s) u.mem u.lat

/-- An access from `v` completed in `u`, and the bank is framed: what the next access of the command rests on. -/
abbrev AccessFramed (i : Instr) (s v u : State) : Prop :=
  nextAnswer v = .done ∧ u.script = v.script.tail ∧ u.cfg = v.cfg ∧ FramedBank i s u

section
variable {v : State} {off : Nat} {x : Word} (ok : ConfigOK s.cfg) (hc : v.cfg = s.cfg)
  (hbank : FramedBank i s (Machine.atAccess v))
include ok hc hbank

theorem memWrite_framed (hp : i.pin < s.cfg.numPins) (hoff : ¬ OffsetBad s.cfg off) (hst : Stores s.cfg i off x) :
    (memWrite off x v).Ends (AccessFramed i s v) (FramedBank i s) (FramedBank i s) :=
  memWrite_bank (R := BankFrame i (Machine.atAccess s)) (by rwa [hc]) hbank fun _ hw =>
    hbank.stores (by simpa using ok) (by simpa using hc) (by simpa using hp) (by simpa using hst) hw

theorem memRead_framed (f : Family) (hp : p < s.cfg.numPins) :
    (memRead (addressOf s.cfg f p).offset v).Ends (AccessFramed i s v) (FramedBank i s) (FramedBank i s) :=
  memRead_bank (R := BankFrame i (Machine.atAccess s)) (by rw [hc]; exact addressOf_ok ok f hp) hbank

theorem readPinField_framed (f : Family) (hp : p < s.cfg.numPins) :
    (readPinField f p v).Ends (FramedBank i s) (FramedBank i s) (FramedBank i s) := by
  unfold readPinField
  rw [hc]
  exact (memRead_framed ok hc hbank f hp).bind fun _ u hu => hu.2.2.2

theorem levelWrite_framed (hp : i.pin < s.cfg.numPins) {l : Level} (hi : i = .cfgout p l ∨ i = .setlv p l) :
    (levelWrite p l v).Ends (FramedBank i s) (FramedBank i s) (FramedBank i s) := by
  have hb : (addressOf s.cfg (levelFamily l) p).bitOffset = p % 32 := by cases l <;> simp [levelFamily, addressOf, ppr, bpp]
  have hp' : p < s.cfg.numPins := by rcases hi with rfl | rfl <;> exact hp
  have hst : Stores s.cfg i (addressOf s.cfg (levelFamily l) p).offset (1#32 <<< (p % 32)) := by
    rcases hi with rfl | rfl
    · exact .inr ⟨rfl, rfl⟩
    · exact ⟨rfl, rfl⟩
  unfold levelWrite
  rw [hc, hb]
  exact (memWrite_framed ok hc hbank hp (addressOf_ok ok _ hp') hst).mono fun u hu => hu.2.2.2

end

theorem framedBank_first (i : Instr) (s : State) : FramedBank i s (Machine.atAccess (accept i s)) := by
  rw [atAccess_accept]
  exact bankFrame_refl _ _

section
variable (ok : ConfigOK s.cfg) (hs : HostSerializes i s)
include ok hs

/-- The read-modify-write of a serialized command, and what the level write after it rests on. -/
theorem fselRmw_framed (hp : p < s.cfg.numPins) (hi : i = .cfgin p ∨ ∃ l, i = .cfgout p l) (m : Word) :
    (fselRmw p m (accept i s)).Ends
      (fun u => u.cfg = s.cfg ∧ FramedBank i s u ∧ (3 ≤ accessCount i s → NextUnwritten u.script))
      (FramedBank i s) (FramedBank i s) := by
  have hcount : 2 ≤ accessCount i s := by rcases hi with rfl | ⟨l, rfl⟩ <;> simp [accessCount, hp]
  have hpin : i.pin < s.cfg.numPins := by rcases hi with rfl | ⟨l, rfl⟩ <;> exact hp
  have hst : ∀ v, Stores s.cfg i (addressOf s.cfg .fsel p).offset v := fun v => by
    rcases hi with rfl | ⟨l, rfl⟩
    · exact rfl
    · exact .inl rfl
  unfold fselRmw
  refine (memRead_framed (v := accept i s) ok rfl (framedBank_first i s) .fsel hp).bind ?_
  rintro x u ⟨hdone, hscript, hcfg, hbank⟩
  rw [hcfg]
  have hnext : NextUnwritten u.script := hscript ▸ serialized_second (s := s) hs hcount hdone
  refine (memWrite_framed (v := setTemp (some x) u) ok hcfg (BankFrame.atAccess (u := setTemp (some x) u) hbank hnext) hpin
    (addressOf_ok ok .fsel hp) (hst _)).bind ?_
  rintro _ w ⟨hdone', hscript', hcfg', hbank'⟩
  refine ⟨hcfg'.trans hcfg, hbank', fun hcount => ?_⟩
  have hafter : (setTemp none w).script = s.script.tail.tail := by rw [setTemp_script, hscript', setTemp_script, hscript]; rfl
  rw [hafter]
  exact serialized_third (s := s) hs hcount hdone (by simpa [nextAnswer, hscript] using hdone')

end

theorem nextAnswer_of_completes (h : Completes s) : nextAnswer s = .done := by
  rcases busTurn_eq s with he | ⟨why, he⟩ <;> rw [h] at he
  · injection he with ha
    exact ha.symm
  · cases he

/-- A command whose first access, a read, does not complete ends there. -/
theorem memRead_incomplete (ok : ConfigOK s.cfg) (f : Family) (hp : p < s.cfg.numPins) (h : ¬ Completes (accept i s)) :
    (memRead (addressOf s.cfg f p).offset (accept i s)).Ends (fun _ => False) (FramedBank i s) (FramedBank i s) := by
  rcases busTurn_eq (accept i s) with he | ⟨why, he⟩
  · exact (memRead_framed (v := accept i s) ok rfl (framedBank_first i s) f hp).mono fun _ hu => h (by rw [Completes, he, hu.1])
  · rw [memRead, if_neg (by exact addressOf_ok ok f hp), he]
    trivial

/-- The second read of an `ENEXT` is made only of an input or output, so it too is serialized (rule R177). -/
theorem examinePin_framed (ok : ConfigOK s.cfg) (hs : HostSerializes .enext s) (hcur : s.ecur = .atPin p)
    (hp : p < s.cfg.numPins) :
    (examinePin p (accept .enext s)).Ends (FramedBank .enext s) (FramedBank .enext s) (FramedBank .enext s) := by
  unfold examinePin
  by_cases hdone : Completes (accept .enext s)
  · rw [readPinField_fsel (s := accept .enext s) ok hdone hp, atAccess_accept, fnField_accept]
    simp only [Run.bind]
    split
    · rename_i hio
      have hcount : 2 ≤ accessCount .enext s := by
        simp only [accessCount, hcur, hp, if_true, if_pos ((isIo_setWidth _).mp hio), le_refl]
      have hnext : NextUnwritten (fselDone p (accept .enext (Machine.atAccess s))).script := by
        simpa using serialized_second (s := s) hs hcount
          (nextAnswer_of_completes (s := accept .enext s) hdone)
      have hbank : FramedBank .enext s (fselDone p (accept .enext (Machine.atAccess s))) := bankFrame_refl _ _
      exact (readPinField_framed (v := fselDone p (accept .enext (Machine.atAccess s))) ok (by simp) (hbank.atAccess hnext)
        .lev hp).bind fun _ _ hu => hu
    · exact bankFrame_refl _ _
  · unfold readPinField
    exact ((memRead_incomplete ok .fsel hp hdone).bind (D := fun _ => False) fun _ _ hu => hu.elim).bind
      fun _ _ hu => hu.elim

theorem Run.bind_done {α β : Type} (a : α) (s : State) (k : α → State → Run β) : (Run.done a s).bind k = k a s := rfl

theorem command_bankFrame {body : State → Run (Word × Word)} (h : command i s body = .next t)
    (hb : (body (accept i s)).Ends (FramedBank i s) (FramedBank i s) (FramedBank i s)) : FramedBank i s t := by
  obtain ⟨-, ⟨_, _, u, hu, rfl⟩ | ⟨_, u, hu, -, rfl⟩ | ⟨u, hu, rfl⟩⟩ := command_next h (Run.raises_any _) fun _ => hb
  · exact hu
  · exact hu
  · exact hu

theorem command_pin_bankFrame {k : Unit → State → Run (Word × Word)}
    (h : command i s (fun s => (checkPin p s).bind k) = .next t) (hp : p < s.cfg.numPins)
    (hk : (k () (accept i s)).Ends (FramedBank i s) (FramedBank i s) (FramedBank i s)) : FramedBank i s t :=
  command_bankFrame h (by rwa [checkPin_ok (s := accept i s) hp, Run.bind_done])

/-- A command that makes an access: each of them leaves the bank framed. -/
theorem exec_accesses_bankFrame (hs : HostSerializes i s) (h : exec i s = .next t) (hcount : accessCount i s ≠ 0) :
    FramedBank i s t := by
  have ok := (exec_framed h).1.1
  have hfirst := framedBank_first i s
  cases i with
  | addr f p => exact absurd rfl hcount
  | cfgin p =>
    rw [exec, execCfgin] at h
    have hp : p < s.cfg.numPins := of_not_not fun hp => hcount (if_neg hp)
    exact command_pin_bankFrame h hp ((fselRmw_framed ok hs hp (.inl rfl) _).bind fun _ _ hu => hu.2.1)
  | cfgout p l =>
    rw [exec, execCfgout] at h
    have hp : p < s.cfg.numPins := of_not_not fun hp => hcount (if_neg hp)
    refine command_pin_bankFrame h hp ((fselRmw_framed ok hs hp (.inr ⟨l, rfl⟩) _).bind ?_)
    rintro _ u ⟨hcfg, hbank, hnext⟩
    have hthird : 3 ≤ accessCount (.cfgout p l) s := by rw [accessCount, if_pos hp]
    exact (levelWrite_framed ok hcfg (hbank.atAccess (hnext hthird)) hp (.inl rfl)).bind fun _ _ hu => hu
  | setlv p l =>
    rw [exec, execSetlv] at h
    have hp : p < s.cfg.numPins := of_not_not fun hp => hcount (if_neg hp)
    exact command_pin_bankFrame h hp ((levelWrite_framed (v := accept _ s) ok rfl hfirst hp (.inr rfl)).bind fun _ _ hu => hu)
  | rdfn p =>
    rw [exec, execRdfn] at h
    have hp : p < s.cfg.numPins := of_not_not fun hp => hcount (if_neg hp)
    exact command_pin_bankFrame h hp ((readPinField_framed (v := accept _ s) ok rfl hfirst .fsel hp).bind fun _ _ hu => hu)
  | rdlv p =>
    rw [exec, execRdlv] at h
    have hp : p < s.cfg.numPins := of_not_not fun hp => hcount (if_neg hp)
    exact command_pin_bankFrame h hp ((readPinField_framed (v := accept _ s) ok rfl hfirst .lev hp).bind fun _ _ hu => hu)
  | enext =>
    cases hcur : s.ecur with
    | start => exact absurd (by simp only [accessCount, hcur]) hcount
    | atPin k =>
      have hk : k < s.cfg.numPins := of_not_not fun hk => hcount (by simp only [accessCount, hcur, if_neg hk])
      rw [exec, execEnext] at h
      refine command_bankFrame h ?_
      simp only [accept_ecur, hcur, accept_cfg, hk, if_true]
      exact examinePin_framed ok hs hcur hk

/-- A command without an access leaves the bank as it is. -/
theorem exec_no_access_sameBank (h : exec i s = .next t) (hcount : accessCount i s = 0) : SameBank s t := by
  have hr := (exec_framed h).1
  by_cases hp : i ≠ .enext ∧ s.cfg.numPins ≤ i.pin
  · rw [exec_outOfRange hr hp.2 hp.1] at h
    cases h
    exact ⟨rfl, rfl⟩
  have hin : i ≠ .enext → i.pin < s.cfg.numPins := fun hne => Nat.lt_of_not_le fun hle => hp ⟨hne, hle⟩
  cases i with
  | addr f p =>
    rw [exec_addr hr (p := p) (hin nofun)] at h
    cases h
    exact ⟨rfl, rfl⟩
  | enext =>
    cases hcur : s.ecur with
    | start =>
      rw [exec_enext_start hr hcur] at h
      cases h
      exact ⟨rfl, rfl⟩
    | atPin k =>
      have hk : ¬ k < s.cfg.numPins := fun hk => by
        simp only [accessCount, hcur, if_pos hk] at hcount
        split at hcount <;> cases hcount
      by_cases hend : k = s.cfg.numPins
      · rw [exec_enext_end hr (hend ▸ hcur)] at h
        cases h
        exact ⟨rfl, rfl⟩
      · rw [exec_enext_beyond hr hcur (by omega)] at h
        cases h
  | _ => exact absurd (hcount.symm.trans (if_pos (hin nofun))) (by decide)

/-- However a serialized command ends, the bank is framed by that at its first access. -/
theorem exec_bankFrame (hs : HostSerializes i s) (h : exec i s = .next t) : BankFrame i (atFirstAccess i s) t.mem t.lat := by
  unfold atFirstAccess
  split
  · rename_i hcount
    obtain ⟨hmem, hlat⟩ := exec_no_access_sameBank h hcount
    rw [hmem, hlat]
    exact bankFrame_refl i s
  · rename_i hcount
    exact exec_accesses_bankFrame hs h hcount

/-- Settles O40: the frame of the bank is that of every command, however it ends. -/
theorem commandKeepsBankFrame : Obligations.CommandKeepsBankFrame := by
  intro i s t hs h
  have hcfg : (atFirstAccess i s).cfg = s.cfg := by unfold atFirstAccess; split <;> simp
  obtain ⟨hbytes, hlatches⟩ := exec_bankFrame hs h
  exact ⟨fun a ha => hbytes a (by rwa [hcfg]), hlatches⟩

end Sys2Proof.Machine

/-! PROOFS, family other: one turn of the bus script at a time. A read or a write that does not complete (rules R139, R233), a reset
between two accesses (rule R263). -/

namespace Sys2Proof.Machine

variable {s t u : State} {i : Instr} {p : Nat} {a : BusAnswer} {rest : List BusTurn} {b : Bool}

/-! ### A turn with no act before it -/

theorem atAccess_cons (h : s.script = ⟨[], a⟩ :: rest) : atAccess s = withScript rest s := by
  rw [atAccess, busTurn_cons h]

theorem completes_cons (h : s.script = ⟨[], .done⟩ :: rest) : Completes s := by
  rw [Completes, busTurn_cons h, atAccess_cons h]

theorem readPinField_fault (ok : ConfigOK s.cfg) (f : Family) (hp : p < s.cfg.numPins) (h : s.script = ⟨[], .fault b⟩ :: rest) :
    readPinField f p s = .raised .hardwareFault (withScript rest s) := by
  rw [readPinField, memRead_fault f ok hp h, Run.bind]

theorem fselRmw_fault (ok : ConfigOK s.cfg) (hp : p < s.cfg.numPins) (m : Word) (h : s.script = ⟨[], .fault b⟩ :: rest) :
    fselRmw p m s = .raised .hardwareFault (withScript rest s) := by
  rw [fselRmw, memRead_fault .fsel ok hp h, Run.bind]

/-! ### The commands, down to their first access -/

theorem exec_cfgin_eq (hr : Ready s) (hp : p < s.cfg.numPins) : exec (.cfgin p) s =
    finish ((fselRmw p 0b000#32 (accept (.cfgin p) s)).bind fun _ s => .done (0#32, 0#32) s) := by
  rw [exec, execCfgin, command_ready hr, checkPin_ok (s := accept _ s) hp, Run.bind_done]

theorem exec_cfgout_eq (hr : Ready s) (hp : p < s.cfg.numPins) (l : Level) : exec (.cfgout p l) s =
    finish ((fselRmw p 0b001#32 (accept (.cfgout p l) s)).bind fun _ s =>
      (levelWrite p l s).bind fun _ s => .done (0#32, 0#32) s) := by
  rw [exec, execCfgout, command_ready hr, checkPin_ok (s := accept _ s) hp, Run.bind_done]

theorem exec_setlv_eq (hr : Ready s) (hp : p < s.cfg.numPins) (l : Level) : exec (.setlv p l) s =
    finish ((levelWrite p l (accept (.setlv p l) s)).bind fun _ s => .done (0#32, 0#32) s) := by
  rw [exec, execSetlv, command_ready hr, checkPin_ok (s := accept _ s) hp, Run.bind_done]

theorem exec_rdfn_eq (hr : Ready s) (hp : p < s.cfg.numPins) : exec (.rdfn p) s =
    finish ((readPinField .fsel p (accept (.rdfn p) s)).bind fun f s => .done (f, 0#32) s) := by
  rw [exec, execRdfn, command_ready hr, checkPin_ok (s := accept _ s) hp, Run.bind_done]

theorem exec_rdlv_eq (hr : Ready s) (hp : p < s.cfg.numPins) : exec (.rdlv p) s =
    finish ((readPinField .lev p (accept (.rdlv p) s)).bind fun l s => .done (l, 0#32) s) := by
  rw [exec, execRdlv, command_ready hr, checkPin_ok (s := accept _ s) hp, Run.bind_done]

theorem exec_enext_eq (hr : Ready s) (hc : s.ecur = .atPin p) (hp : p < s.cfg.numPins) :
    exec .enext s = finish (examinePin p (accept .enext s)) := by
  simp only [exec, execEnext, command_ready hr, accept_ecur, hc, accept_cfg, hp, if_true]

/-- One pin examined, where its FSEL read completes and its field says input or output: what is left is the LEV read (R177). -/
theorem examinePin_io (ok : ConfigOK s.cfg) (h : Completes s) (hp : p < s.cfg.numPins)
    (hio : fnField (atAccess s) p = 0b000#3 ∨ fnField (atAccess s) p = 0b001#3) :
    examinePin p s = (readPinField .lev p (fselDone p (atAccess s))).bind fun l u =>
      .done (reportData p ((fnField (atAccess s) p).setWidth 32) l, kindData .report) (setCursor (.atPin (p + 1)) u) := by
  rw [examinePin, readPinField_fsel ok h hp, Run.bind_done, if_pos ((isIo_setWidth _).mpr hio)]

/-! ### An access that does not complete -/

/-- A fault taken by a command that has not touched the bank yet, or only read it (rules R102, R233). -/
theorem takeError_accept (hr : Ready s) (i : Instr) (accs : List Access) :
    takeError .hardwareFault { withScript rest (accept i s) with trace := s.trace ++ accs } =
      { s with script := rest, faulted := true, responses := s.responses ++ [errorResponse .hwFault],
               trace := s.trace ++ accs } := by
  obtain ⟨-, hidle, -⟩ := hr
  simp only [takeError, respond, withScript, accept, faultedAfter, statusOfError, errorResponse, hidle]

/-- A command whose first access, a read, faults. -/
theorem exec_first_read_fault (hr : Ready s) (hp : p < s.cfg.numPins) (h : s.script = ⟨[], .fault b⟩ :: rest)
    (hi : i = .cfgin p ∨ (∃ l, i = .cfgout p l) ∨ i = .rdfn p ∨ i = .rdlv p ∨ (i = .enext ∧ s.ecur = .atPin p)) :
    exec i s = .next (takeError .hardwareFault (withScript rest (accept i s))) := by
  have ok := hr.1
  rcases hi with rfl | ⟨l, rfl⟩ | rfl | rfl | ⟨rfl, hc⟩
  · rw [exec_cfgin_eq hr hp, fselRmw_fault (s := accept _ s) ok hp _ h]
    rfl
  · rw [exec_cfgout_eq hr hp, fselRmw_fault (s := accept _ s) ok hp _ h]
    rfl
  · rw [exec_rdfn_eq hr hp, readPinField_fault (s := accept _ s) ok _ hp h]
    rfl
  · rw [exec_rdlv_eq hr hp, readPinField_fault (s := accept _ s) ok _ hp h]
    rfl
  · rw [exec_enext_eq hr hc hp, examinePin, readPinField_fault (s := accept _ s) ok _ hp h]
    rfl

/-- Settles O34: a read that faults ends the command at once, with what was read before it in the trace. -/
theorem faultingReadEndsCommand : Obligations.FaultingReadEndsCommand := by
  intro s p b rest hr hp
  have ok := hr.1
  refine ⟨fun i h hi => ?_, fun h hc hio => ?_⟩
  · have htaken := takeError_accept (rest := rest) hr i []
    rw [List.append_nil] at htaken
    rw [exec_first_read_fault hr hp h hi]
    exact congrArg Host.Outcome.next htaken
  · have hsecond : readPinField .lev p (fselDone p (withScript (⟨[], .fault b⟩ :: rest) (accept .enext s))) =
        .raised .hardwareFault (withScript rest (fselDone p (withScript (⟨[], .fault b⟩ :: rest) (accept .enext s)))) :=
      readPinField_fault (s := fselDone p (withScript (⟨[], .fault b⟩ :: rest) (accept .enext s))) ok .lev hp rfl
    have hacc : (accept .enext s).script = ⟨[], .done⟩ :: ⟨[], .fault b⟩ :: rest := h
    rw [exec_enext_eq hr hc hp, examinePin_io (s := accept .enext s) ok (completes_cons hacc) hp
      (by rwa [atAccess_cons hacc]), atAccess_cons hacc, hsecond]
    exact congrArg Host.Outcome.next (takeError_accept hr .enext _)

/-! ### A write that does not complete -/

/-- A write that faults raises, and may have landed (rule R139). -/
theorem writeAnswered_fault (acc : Access) (b : Bool) (s u : State) :
    writeAnswered acc (.fault b) s u = .raised .hardwareFault (if b then u else s) := by cases b <;> rfl

/-- The write-back just landed, not yet in the trace (rules R139, R151). -/
def writeBack (p : Nat) (m : Word) (rest : List BusTurn) (s : State) : State :=
  writeFsel (p / 10) (rmwWord p m s) (midRmw p rest s)

theorem fnField_writeBack (m : Word) (hm : ∀ j, 3 ≤ j → m.getLsbD j = false) (q : Nat) :
    fnField (writeBack p m rest s) q = if q = p then m.setWidth 3 else fnField s q :=
  fnField_rmw (midRmw p rest s) p q m hm

/-- The read-modify-write whose read completes, by the answer to its write-back (rules R139, R151, R263). -/
theorem fselRmw_writeBack (ok : ConfigOK s.cfg) (hp : p < s.cfg.numPins) (m : Word)
    (h : s.script = ⟨[], .done⟩ :: ⟨[], a⟩ :: rest) :
    fselRmw p m s = (writeAnswered (.wr (addressOf s.cfg .fsel p).offset (rmwWord p m s)) a (midRmw p rest s)
      (writeBack p m rest s)).bind fun _ s => .done () (setTemp none s) :=
  fselRmw_turn ok hp m h

/-- The state after a read-modify-write whose two turns have no act before them. -/
def rmwTurned (p : Nat) (m : Word) (rest : List BusTurn) (s : State) : State :=
  setTemp none (logAccess (.wr (addressOf s.cfg .fsel p).offset (rmwWord p m s)) (writeBack p m rest s))

theorem fselRmw_turned (ok : ConfigOK s.cfg) (hp : p < s.cfg.numPins) (m : Word)
    (h : s.script = ⟨[], .done⟩ :: ⟨[], .done⟩ :: rest) : fselRmw p m s = .done () (rmwTurned p m rest s) := by
  rw [fselRmw_writeBack ok hp m h]
  rfl

theorem fnField_rmwTurned (m : Word) (hm : ∀ j, 3 ≤ j → m.getLsbD j = false) (q : Nat) :
    fnField (rmwTurned p m rest s) q = if q = p then m.setWidth 3 else fnField s q := fnField_writeBack m hm q

/-- The trace of a read-modify-write: the read, and the write-back that is in the trace once it completed. -/
theorem rmwTurned_trace (m : Word) : (rmwTurned p m rest s).trace = s.trace ++
    [.rd (addressOf s.cfg .fsel p).offset (fselReg s (p / 10)), .wr (addressOf s.cfg .fsel p).offset (rmwWord p m s)] :=
  List.append_assoc s.trace [_] [_]

/-- The field a read-modify-write of `CFGIN` or `CFGOUT` gives its pin (rules R152, R156). -/
def rmwField : Instr → Word
  | .cfgin _ => 0b000#32
  | _ => 0b001#32

theorem rmwField_high (i : Instr) (j : Nat) (hj : 3 ≤ j) : (rmwField i).getLsbD j = false := by
  cases i with
  | cfgin p => exact getLsbD_zero32 j
  | _ => exact getLsbD_one_high j hj

/-- The faulting write-back of a `CFGIN` or `CFGOUT` ends the command: no level write follows (rules R139, R156). -/
theorem exec_writeBack_fault {l : Level} (hr : Ready s) (hp : p < s.cfg.numPins)
    (h : s.script = ⟨[], .done⟩ :: ⟨[], .fault b⟩ :: rest) (hi : i = .cfgin p ∨ i = .cfgout p l) :
    exec i s = .next (takeError .hardwareFault
      (if b then writeBack p (rmwField i) rest (accept i s) else midRmw p rest (accept i s))) := by
  have hrmw := fun m => fselRmw_writeBack (s := accept i s) hr.1 hp m h
  simp only [writeAnswered_fault] at hrmw
  rcases hi with rfl | rfl
  · rw [exec_cfgin_eq hr hp, hrmw]
    rfl
  · rw [exec_cfgout_eq hr hp, hrmw]
    rfl

/-- A level write that may have landed (rule R139). -/
def levelLanded (p : Nat) (l : Level) (b : Bool) (u : State) : State :=
  if b then writeLevelReg l (p / 32) (1#32 <<< (p % 32)) u else u

section
variable (l : Level) (b : Bool) (u : State)

@[simp] theorem levelLanded_cfg : (levelLanded p l b u).cfg = u.cfg := by cases b <;> simp [levelLanded]
@[simp] theorem levelLanded_ecur : (levelLanded p l b u).ecur = u.ecur := by cases b <;> simp [levelLanded]
@[simp] theorem levelLanded_mem : (levelLanded p l b u).mem = u.mem := by cases b <;> simp [levelLanded]
@[simp] theorem levelLanded_responses : (levelLanded p l b u).responses = u.responses := by cases b <;> simp [levelLanded]
@[simp] theorem levelLanded_trace : (levelLanded p l b u).trace = u.trace := by cases b <;> simp [levelLanded]

theorem latch_levelLanded (hp : p < u.cfg.numPins) (q : Nat) :
    latch (levelLanded p l b u) q = if b = true ∧ q = p then decide (l = .high) else latch u q := by
  cases b with
  | false => simp [levelLanded]
  | true => simp [levelLanded, latch_writeLevelReg u p q l hp, bitOfLevel_eq_decide]
end

/-- The faulting level write of a `SETLV` (rule R139). -/
theorem exec_setlv_fault (hr : Ready s) (hp : p < s.cfg.numPins) (l : Level) (h : s.script = ⟨[], .fault b⟩ :: rest) :
    exec (.setlv p l) s = .next (takeError .hardwareFault (levelLanded p l b (withScript rest (accept (.setlv p l) s)))) := by
  rw [exec_setlv_eq hr hp, levelWrite_turn (s := accept _ s) hr.1 hp l h, writeAnswered_fault]
  rfl

/-- The faulting level write of a `CFGOUT` whose read-modify-write completed. -/
theorem exec_cfgout_level_fault (hr : Ready s) (hp : p < s.cfg.numPins) (l : Level)
    (h : s.script = ⟨[], .done⟩ :: ⟨[], .done⟩ :: ⟨[], .fault b⟩ :: rest) :
    exec (.cfgout p l) s = .next (takeError .hardwareFault
      (levelLanded p l b (rmwTurned p 0b001#32 rest (accept (.cfgout p l) s)))) := by
  have hlevel := levelWrite_turn (s := rmwTurned p 0b001#32 (⟨[], .fault b⟩ :: rest) (accept (.cfgout p l) s)) hr.1 hp l rfl
  rw [exec_cfgout_eq hr hp, fselRmw_turned (s := accept _ s) hr.1 hp _ h, Run.bind_done, hlevel, writeAnswered_fault]
  rfl

/-- The fields after a write-back that may have landed. -/
theorem fnField_landed (i : Instr) (b : Bool) (q : Nat) :
    fnField (if b then writeBack p (rmwField i) rest s else midRmw p rest s) q =
      if b = true ∧ q = p then (rmwField i).setWidth 3 else fnField s q := by
  cases b with
  | false => simp; rfl
  | true => simp [fnField_writeBack _ (rmwField_high i)]

/-- Settles O35: the state at the fault is that before the write or that with it done, and nothing follows. -/
theorem faultingWriteAdmitsBoth : Obligations.FaultingWriteAdmitsBoth := by
  intro s p l b rest hr hp
  refine ⟨fun h => ?_, fun h i hi => ?_, fun h => ?_⟩
  · exact ⟨_, exec_setlv_fault hr hp l h, rfl, by simp [errorResponse, statusOfError], by simp, by simp, by simp,
      latch_levelLanded (p := p) l b (withScript rest (accept (.setlv p l) s)) hp⟩
  · refine ⟨_, exec_writeBack_fault hr hp h hi, rfl, ?_, ?_, ?_, ?_, fun q => ?_⟩
    · cases b <;> rfl
    · cases b <;> rfl
    · cases b <;> rfl
    · cases b <;> rfl
    · rw [fnField_takeError, fnField_landed]
      rcases hi with rfl | rfl <;> simp [rmwField]
  · refine ⟨_, rmwWord p 0b001#32 s, exec_cfgout_level_fault hr hp l h, rfl, ?_, ?_, fun q => ?_, ?_,
      latch_levelLanded (p := p) l b (rmwTurned p 0b001#32 rest (accept (.cfgout p l) s)) hp⟩
    · rw [takeError_responses, levelLanded_responses]
      rfl
    · rw [takeError_trace, levelLanded_trace, rmwTurned_trace]
      rfl
    · rw [fnField_takeError, fnField_congr (levelLanded_cfg ..) (levelLanded_mem ..), fnField_rmwTurned _ getLsbD_one_high]
      rfl
    · rw [takeError_ecur, levelLanded_ecur]
      rfl

/-! ### A reset between two accesses -/

/-- The state `u` is `s` but for the engine, the script, and the FSEL read in the trace. -/
structure CutAfterRead (p : Nat) (s u : State) : Prop where
  bank : SameBank s u
  ext : u.ext = s.ext
  responses : u.responses = s.responses
  trace : u.trace = s.trace ++ [.rd (addressOf s.cfg .fsel p).offset (fselReg s (p / 10))]

/-- The two scripts that mean a reset just after the first access and before anything else (log 12). -/
abbrev ResetAfterFirst (rest script : List BusTurn) : Prop :=
  script = ⟨[], .done⟩ :: ⟨[], .reset⟩ :: rest ∨ script = ⟨[], .doneThenReset⟩ :: rest

theorem fselRmw_cut (ok : ConfigOK s.cfg) (hp : p < s.cfg.numPins) (m : Word) (h : ResetAfterFirst rest s.script) :
    ∃ u, fselRmw p m s = .abandoned u ∧ CutAfterRead p s u := by
  rcases h with h | h
  · exact ⟨midRmw p rest s, by rw [fselRmw_writeBack ok hp m h]; rfl, ⟨rfl, rfl⟩, rfl, rfl, rfl⟩
  · exact ⟨fselDone p (withScript rest s), by rw [fselRmw, memRead_doneThenReset ok hp h]; rfl, ⟨rfl, rfl⟩, rfl, rfl, rfl⟩

theorem examinePin_cut (ok : ConfigOK s.cfg) (hp : p < s.cfg.numPins)
    (hio : fnField s p = 0b000#3 ∨ fnField s p = 0b001#3) (h : ResetAfterFirst rest s.script) :
    ∃ u, examinePin p s = .abandoned u ∧ CutAfterRead p s u := by
  rcases h with h | h
  · have hlev := memRead_reset (s := fselDone p (withScript (⟨[], .reset⟩ :: rest) s)) .lev ok hp rfl
    refine ⟨withScript rest (fselDone p (withScript (⟨[], .reset⟩ :: rest) s)), ?_, ⟨rfl, rfl⟩, rfl, rfl, rfl⟩
    rw [examinePin_io ok (completes_cons h) hp (by rwa [atAccess_cons h]), atAccess_cons h, readPinField, hlev]
    rfl
  · exact ⟨fselDone p (withScript rest s),
      by rw [examinePin, readPinField, memRead_doneThenReset ok hp h]; rfl, ⟨rfl, rfl⟩, rfl, rfl, rfl⟩

/-- A command cut after its FSEL read, as its first access (rule R263). -/
theorem exec_cut_after_read (hr : Ready s) (hp : p < s.cfg.numPins) (h : ResetAfterFirst rest s.script)
    (hi : i = .cfgin p ∨ (∃ l, i = .cfgout p l) ∨
      (i = .enext ∧ s.ecur = .atPin p ∧ (fnField s p = 0b000#3 ∨ fnField s p = 0b001#3))) :
    ∃ u, exec i s = .next (resetEngine u) ∧ CutAfterRead p s u := by
  have ok := hr.1
  rcases hi with rfl | ⟨l, rfl⟩ | ⟨rfl, hc, hio⟩
  · obtain ⟨u, hu, hcut⟩ := fselRmw_cut (s := accept (.cfgin p) s) ok hp 0b000#32 h
    exact ⟨u, by rw [exec_cfgin_eq hr hp, hu]; rfl, ⟨hcut.bank.1, hcut.bank.2⟩, hcut.ext, hcut.responses, hcut.trace⟩
  · obtain ⟨u, hu, hcut⟩ := fselRmw_cut (s := accept (.cfgout p l) s) ok hp 0b001#32 h
    exact ⟨u, by rw [exec_cfgout_eq hr hp, hu]; rfl, ⟨hcut.bank.1, hcut.bank.2⟩, hcut.ext, hcut.responses, hcut.trace⟩
  · obtain ⟨u, hu, hcut⟩ := examinePin_cut (s := accept .enext s) ok hp hio h
    exact ⟨u, by rw [exec_enext_eq hr hc hp, hu]; rfl, ⟨hcut.bank.1, hcut.bank.2⟩, hcut.ext, hcut.responses, hcut.trace⟩

/-- A `CFGOUT` cut after its write-back: the state has the write-back done, and in the trace. -/
theorem exec_cfgout_cut_after_writeBack (hr : Ready s) (hp : p < s.cfg.numPins) (l : Level)
    (h : s.script = ⟨[], .done⟩ :: ⟨[], .done⟩ :: ⟨[], .reset⟩ :: rest ∨
      s.script = ⟨[], .done⟩ :: ⟨[], .doneThenReset⟩ :: rest) :
    ∃ u, exec (.cfgout p l) s = .next (resetEngine u) ∧ u.cfg = s.cfg
      ∧ u.mem = (writeBack p 0b001#32 rest s).mem ∧ u.lat = s.lat ∧ u.responses = s.responses
      ∧ u.trace = s.trace ++ [.rd (addressOf s.cfg .fsel p).offset (fselReg s (p / 10)),
          .wr (addressOf s.cfg .fsel p).offset (rmwWord p 0b001#32 s)] := by
  have ok := hr.1
  rcases h with h | h
  · have hlevel := levelWrite_turn (s := rmwTurned p 0b001#32 (⟨[], .reset⟩ :: rest) (accept (.cfgout p l) s)) ok hp l rfl
    refine ⟨rmwTurned p 0b001#32 rest (accept (.cfgout p l) s), ?_, rfl, rfl, rfl, rfl, rmwTurned_trace _⟩
    rw [exec_cfgout_eq hr hp, fselRmw_turned (s := accept _ s) ok hp _ h, Run.bind_done, hlevel]
    rfl
  · refine ⟨logAccess (.wr (addressOf s.cfg .fsel p).offset (rmwWord p 0b001#32 s))
      (writeBack p 0b001#32 rest (accept (.cfgout p l) s)), ?_, rfl, rfl, rfl, rfl, rmwTurned_trace (rest := rest) _⟩
    rw [exec_cfgout_eq hr hp, fselRmw_writeBack (s := accept _ s) ok hp _ h]
    rfl

/-- Settles O14: what was done stays in the bank and the trace, and the engine is that after reset. -/
theorem resetBetweenAccesses : Obligations.ResetBetweenAccesses := by
  intro s p hr hp
  refine ⟨fun i rest hi h => ?_, fun l rest h => ?_⟩
  · obtain ⟨u, hexec, hbank, hext, hresp, htrace⟩ := exec_cut_after_read hr hp h hi
    exact ⟨_, hexec, ⟨hbank.bytes, hbank.latches⟩, hext, rfl, rfl, rfl, rfl, hresp, htrace⟩
  · obtain ⟨u, hexec, hcfg, hmem, hlat, hresp, htrace⟩ := exec_cfgout_cut_after_writeBack hr hp l h
    refine ⟨_, _, hexec, ?_, latch_congr hlat, rfl, rfl, rfl, rfl, hresp, htrace⟩
    have hfield := fnField_writeBack (p := p) (rest := rest) (s := s) 0b001#32 getLsbD_one_high p
    rw [if_pos rfl] at hfield
    exact (fnField_congr (s := writeBack p 0b001#32 rest s) hcfg hmem p).trans hfield

end Sys2Proof.Machine

/-! PROOFS, family other: the enumerator's cases (rule R177), and what probing logic sees between two accesses (rules R71, R79). -/

namespace Sys2Proof.Machine

variable {s t u : State} {i : Instr} {p q : Nat} {a : BusAnswer} {rest : List BusTurn}

/-! ### The enumerator, by its cursor -/

theorem atLastRead_io (h : fnField (atAccess s) p = 0b000#3 ∨ fnField (atAccess s) p = 0b001#3) :
    atLastRead p s = atAccess (atAccess s) := if_pos h

theorem atLastRead_not_io (h : ¬ (fnField (atAccess s) p = 0b000#3 ∨ fnField (atAccess s) p = 0b001#3)) :
    atLastRead p s = atAccess s := if_neg h

/-- Settles O43: the two ends make no access, and a call at a pin is `enext_pin`. -/
theorem enextByCursor : Obligations.EnextByCursor := by
  intro s hr
  refine ⟨exec_enext_start hr, exec_enext_end hr, fun k hc hw hcur hk => ?_⟩
  obtain ⟨t, hexec, hcur', hbank, hrest, hresp, -, hext, htrace⟩ := enext_pin hr ⟨hc, hw⟩ hcur hk
  refine ⟨t, hexec, hcur', hrest, fun hio => ?_, fun hin hout => ?_⟩
  · rw [atLastRead_io hio] at hbank hext
    rw [level_congr (s := atAccess (atAccess s)) (by simp [hrest.cfg]) hbank.bytes hbank.latches hext] at hresp
    rw [if_pos hio] at htrace
    exact ⟨hresp, hbank, hext, htrace⟩
  · have hio := not_or.mpr ⟨hin, hout⟩
    rw [atLastRead_not_io hio] at hbank hext
    rw [pinRecord_skip hio] at hresp
    rw [if_neg hio] at htrace
    exact ⟨hresp, hbank, hext, htrace⟩

/-! ### Probes -/

theorem seen_congr (hc : t.cfg = s.cfg) (hm : t.mem = s.mem) (hl : t.lat = s.lat) (q : Nat) : seen q t = seen q s := by
  simp only [seen, fnField_congr hc hm, latch_congr hl]

/-- A turn before which a pin is probed. -/
theorem atAccess_probe (h : s.script = ⟨[.probe q], a⟩ :: rest) : atAccess s = probePin q (withScript rest s) := by
  simp only [atAccess, busTurn, h, envActs, envAct, Run.bind]

theorem atAccess_probes (h : s.script = ⟨[.probe q], a⟩ :: rest) (hq : q < s.cfg.numPins) :
    (atAccess s).probes = s.probes ++ [seen q s] := by
  rw [atAccess_probe h, probePin_probes, if_pos (by exact hq)]
  rfl

theorem nextUnwritten_probe : NextUnwritten (⟨[.probe q], a⟩ :: rest) := by simp [NextUnwritten, isWrite]

theorem turnAnswers_probe (cfg : Config) : TurnAnswers cfg (⟨[.probe q], .done⟩ :: rest) :=
  turnAnswers_cons (by simp [actDefined])

/-- A probe sees what was there before: the state at the access has the same field and latch. -/
theorem seen_atAccess (hw : NextUnwritten s.script) (q : Nat) : seen q (atAccess s) = seen q s := by
  rw [atAccess_passed hw]
  exact seen_congr rfl rfl rfl q

/-- `CFGIN` and `CFGOUT`, where nobody writes before their second and third accesses. -/
theorem exec_cfgin_unwritten (hr : Ready s) (hp : p < s.cfg.numPins) (h : TurnAnswers s.cfg s.script)
    (h' : TurnAnswers s.cfg s.script.tail) (hw : NextUnwritten s.script.tail) :
    exec (.cfgin p) s = .next (afterCfgin p s) := by
  rw [exec_cfgin_turns hr hp h h', atAccess_passed (s := rmwRead _ _) (by simpa using hw)]
  rfl

theorem exec_cfgout_unwritten (hr : Ready s) (hp : p < s.cfg.numPins) (l : Level) (h : TurnAnswers s.cfg s.script)
    (h' : TurnAnswers s.cfg s.script.tail) (h'' : TurnAnswers s.cfg s.script.tail.tail) (hw : NextUnwritten s.script.tail)
    (hw' : NextUnwritten s.script.tail.tail) : exec (.cfgout p l) s = .next (afterCfgout p l s) := by
  rw [exec_cfgout_turns hr hp l h h' h'', atAccess_passed (s := rmwRead _ _) (by simpa using hw), ← rmwDone,
    atAccess_passed (s := rmwDone _ _ _) (by simpa using hw')]
  rfl

/-! ### What is seen inside a command -/

/-- A probe between the read and the write-back sees what the read saw. -/
theorem rmwDone_probes (m : Word) (hq : q < u.cfg.numPins) (h : u.script = ⟨[.probe q], a⟩ :: rest) :
    (rmwDone p m u).probes = u.probes ++ [seen q u] := by
  have hseen : seen q (rmwRead p u) = seen q u := seen_congr (by simp) (by simp) (by simp) q
  have hprobes := atAccess_probes (s := rmwRead p u) (by simpa using h) (by simpa using hq)
  rw [rmwRead_probes, hseen] at hprobes
  exact hprobes

/-- A probe between the write-back and the level write sees the new field with the old latch (rule R79). -/
theorem seen_rmwDone_output (p q : Nat) (u : State) :
    seen q (rmwDone p 0b001#32 u) = ⟨q, if q = p then 0b001#3 else fnField u q, latch u q⟩ := by
  rw [seen, fnField_rmwDone _ _ _ getLsbD_one_high, latch_rmwDone]
  rfl

theorem passed_rmwDone_probes (hq : q < u.cfg.numPins) (h : u.script = ⟨[.probe q], a⟩ :: ⟨[.probe q], a⟩ :: rest) :
    (passed (rmwDone p 0b001#32 u)).probes =
      u.probes ++ [seen q u, ⟨q, if q = p then 0b001#3 else fnField u q, latch u q⟩] := by
  have hscript : (rmwDone p 0b001#32 u).script = ⟨[.probe q], a⟩ :: rest := by simp [h]
  rw [passed_probes, atAccess_probes hscript (by simpa using hq), rmwDone_probes _ hq h, seen_rmwDone_output]
  simp

/-- A `CFGOUT` probed before each of its accesses. -/
theorem afterCfgout_probes {l : Level} (hq : q < s.cfg.numPins)
    (h : s.script = ⟨[.probe q], .done⟩ :: ⟨[.probe q], .done⟩ :: ⟨[.probe q], .done⟩ :: rest) :
    (afterCfgout p l s).probes =
      s.probes ++ [seen q s, seen q s, ⟨q, if q = p then 0b001#3 else fnField s q, latch s q⟩] := by
  have hseen : seen q (accept (.cfgout p l) (atAccess s)) = seen q s := seen_atAccess (h ▸ nextUnwritten_probe) q
  obtain ⟨hfield, hlatch⟩ : fnField (atAccess s) q = fnField s q ∧ latch (atAccess s) q = latch s q := by
    simpa [seen] using hseen
  have hscript : (accept (.cfgout p l) (atAccess s)).script = ⟨[.probe q], .done⟩ :: ⟨[.probe q], .done⟩ :: rest := by simp [h]
  rw [afterCfgout, respond_probes, levelDone_probes, passed_rmwDone_probes (by simpa using hq) hscript, hseen, accept_probes,
    atAccess_probes h hq, fnField_accept, latch_accept, hfield, hlatch]
  simp

theorem afterCfgin_probes (hq : q < s.cfg.numPins) (h : s.script = ⟨[.probe q], .done⟩ :: ⟨[.probe q], .done⟩ :: rest) :
    (afterCfgin p s).probes = s.probes ++ [seen q s, seen q s] := by
  have hseen : seen q (accept (.cfgin p) (atAccess s)) = seen q s := seen_atAccess (h ▸ nextUnwritten_probe) q
  rw [afterCfgin, respond_probes, rmwDone_probes (a := .done) (rest := rest) _ (by simpa using hq) (by simp [h]), hseen,
    accept_probes, atAccess_probes h hq]
  simp

/-- An `ENEXT` that reports, its two reads completing. -/
theorem exec_enext_io (hr : Ready s) (hc : s.ecur = .atPin p) (hp : p < s.cfg.numPins)
    (hio : fnField (atAccess s) p = 0b000#3 ∨ fnField (atAccess s) p = 0b001#3) (h : TurnAnswers s.cfg s.script)
    (h' : TurnAnswers s.cfg s.script.tail) :
    ∃ d0, exec .enext s = .next (respond .ok d0 (kindData .report)
      (setCursor (.atPin (p + 1)) (levDone p (atAccess (fselDone p (accept .enext (atAccess s))))))) := by
  have ok := hr.1
  have hlev := readPinField_lev (s := fselDone p (accept .enext (atAccess s))) (p := p) (by simpa using ok)
    (completes_of_turn (by simpa using ok) (by simpa using h')) (by simpa using hp)
  have hexec := exec_enext_eq hr hc hp
  rw [examinePin_io (s := accept .enext s) ok (completes_of_turn ok h) hp (by rwa [atAccess_accept]), atAccess_accept, hlev]
    at hexec
  exact ⟨_, hexec⟩

theorem enext_probes (hr : Ready s) (hc : s.ecur = .atPin p) (hp : p < s.cfg.numPins) (hq : q < s.cfg.numPins)
    (hio : fnField s p = 0b000#3 ∨ fnField s p = 0b001#3)
    (h : s.script = ⟨[.probe q], .done⟩ :: ⟨[.probe q], .done⟩ :: rest) :
    ∃ t, exec .enext s = .next t ∧ t.probes = s.probes ++ [seen q s, seen q s] := by
  have hw : NextUnwritten s.script := h ▸ nextUnwritten_probe
  obtain ⟨d0, hexec⟩ := exec_enext_io hr hc hp (by rwa [atAccess_passed hw]) (h ▸ turnAnswers_probe _)
    (h ▸ turnAnswers_probe _)
  refine ⟨_, hexec, ?_⟩
  have hseen : seen q (fselDone p (accept .enext (atAccess s))) = seen q s := seen_atAccess hw q
  have hscript : (fselDone p (accept .enext (atAccess s))).script = ⟨[.probe q], .done⟩ :: rest := by simp [h]
  rw [respond_probes, setCursor_probes, levDone_probes, atAccess_probes hscript (by simpa using hq), hseen, fselDone_probes,
    accept_probes, atAccess_probes h hq]
  simp

/-! ### The torn pin -/

/-- A turn in which another master drives the pin's latch and then the pin is probed (rule R79). -/
theorem atAccess_level_probe (ok : ConfigOK u.cfg) (hp : p < u.cfg.numPins) (l : Level)
    (h : u.script = ⟨[.busWrite (addressOf u.cfg (levelFamily l) p).offset (1#32 <<< (p % 32)), .probe p], a⟩ :: rest) :
    atAccess u = probePin p (writeLevelReg l (p / 32) (1#32 <<< (p % 32)) (withScript rest u)) := by
  have hw := bankWrite_level (s := withScript rest u) ok hp l (1#32 <<< (p % 32))
  simp only [withScript_cfg] at hw
  simp only [atAccess, busTurn, h, envActs, envAct, hw, Run.bind]

/-- The write another master makes there is one the spec gives an effect (rules R65, R66). -/
theorem actDefined_level {cfg : Config} (hp : p < cfg.numPins) (l : Level) (v : Word) :
    actDefined cfg (.busWrite (addressOf cfg (levelFamily l) p).offset v) = true := by
  have hreg := isRegister_addressOf cfg (levelFamily l) hp
  refine decide_eq_true ?_
  cases l with
  | low => exact .inr (.inr hreg)
  | high => exact .inr (.inl hreg)

theorem seen_writeLevelReg (hp : p < u.cfg.numPins) (l : Level) :
    seen p (writeLevelReg l (p / 32) (1#32 <<< (p % 32)) u) = ⟨p, fnField u p, decide (l = .high)⟩ := by
  rw [seen, fnField_congr (writeLevelReg_cfg ..) (writeLevelReg_mem ..), latch_writeLevelReg u p p l hp, if_pos rfl,
    bitOfLevel_eq_decide]

theorem rmwWritten_probes (m : Word) : (rmwWritten p m s t).probes = t.probes := rfl

theorem latch_rmwWritten (m : Word) (q : Nat) : latch (rmwWritten p m s t) q = latch t q := rfl

/-- A `CFGIN` between whose accesses another master drives the latch: the torn pin, the new level with the old field. -/
theorem exec_cfgin_torn (hr : Ready s) (hp : p < s.cfg.numPins) (l : Level)
    (h : s.script = ⟨[], .done⟩ ::
      ⟨[.busWrite (addressOf s.cfg (levelFamily l) p).offset (1#32 <<< (p % 32)), .probe p], .done⟩ :: rest) :
    ∃ t, exec (.cfgin p) s = .next t ∧ t.probes = s.probes ++ [⟨p, fnField s p, decide (l = .high)⟩]
      ∧ fnField t p = 0b000#3 ∧ latch t p = decide (l = .high) := by
  have hfirst : TurnAnswers s.cfg s.script := h ▸ turnAnswers_cons (by simp)
  have hsecond : TurnAnswers s.cfg s.script.tail :=
    h ▸ turnAnswers_cons (List.forall_mem_cons.mpr ⟨actDefined_level hp l _, by simp [actDefined]⟩)
  have hmid := atAccess_level_probe (u := rmwRead p (accept (.cfgin p) (atAccess s))) (a := .done) (rest := rest)
    (by simpa using hr.1) (p := p) (by simpa using hp) l (by simp [h])
  have hexec := exec_cfgin_turns hr hp hfirst hsecond
  rw [hmid] at hexec
  refine ⟨_, hexec, ?_, ?_, ?_⟩
  · rw [respond_probes, rmwWritten_probes, probePin_probes, if_pos (by simpa using hp),
      seen_writeLevelReg (by simpa using hp)]
    simp [atAccess_cons h]
    rfl
  · rw [fnField_respond, fnField_rmwWritten _ (by simp)]
    rfl
  · rw [latch_respond, latch_rmwWritten, latch_congr (probePin_lat ..), latch_writeLevelReg _ _ _ _ (by simpa using hp),
      if_pos rfl, bitOfLevel_eq_decide]

/-- Settles O60: the act between commands records the pair, and so does a probe before each access, of the state there. -/
theorem probeSeesPin : Obligations.ProbeSeesPin := by
  refine ⟨fun s p rest ok hin => ⟨fun hp => ?_, fun hp => ?_⟩, fun s p q l rest hr hp hq h => ?_,
    fun s i p q rest hr hp hq h hi => ?_, fun s p l rest hr hp h => exec_cfgin_torn (rest := rest) hr hp l ?_⟩
  · rw [step_act hin ok rfl, probePin_inside (by exact hp)]
    rfl
  · rw [step_act hin ok rfl, probePin_outside (by exact hp)]
    rfl
  · have hexec := exec_cfgout_unwritten hr hp l (h ▸ turnAnswers_probe _) (h ▸ turnAnswers_probe _) (h ▸ turnAnswers_probe _)
      (h ▸ nextUnwritten_probe) (h ▸ nextUnwritten_probe)
    exact ⟨_, hexec, afterCfgout_probes hq h⟩
  · rcases hi with rfl | ⟨rfl, hc, hio⟩
    · exact ⟨_, exec_cfgin_unwritten hr hp (h ▸ turnAnswers_probe _) (h ▸ turnAnswers_probe _) (h ▸ nextUnwritten_probe),
        afterCfgin_probes hq h⟩
    · exact enext_probes hr hc hp hq hio h
  · cases l <;> exact h

end Sys2Proof.Machine

/-! PROOFS, family other: the front-end. Text commands, status queries and enumeration reads, by the response of the command they
issue (rules R200 to R208), and the binding table (rules R215 to R221). -/

namespace Sys2Proof.Machine

variable {s t u v : State} {i : Instr} {n : Nat} {r r' : Response} {rest : List Input} {q : QueryTarget} {ch : Channel}
  {buf : List Byte} {act : Action}

/-! ### Text commands -/

theorem wellFormed_actionInstr (h : n ≤ 65535) (act : Action) : (actionInstr n act).WellFormed := by
  cases act <;> exact pinFits_iff.mpr h

/-- A text command in a ready state, by whether it parses (rules R200 to R203). -/
theorem dispatchText_parsed (hr : Ready s) (h : parseText s ch buf = some (n, act)) :
    dispatchText ch buf s =
      issue (actionInstr n act) s fun r t => .next (reply (replyOfStatus r.status) t) := by
  rw [dispatchText, ifReady_ready hr, h]

theorem dispatchText_rejected (hr : Ready s) (h : parseText s ch buf = none) :
    dispatchText ch buf s = .next (reply .invalidCommand s) := by
  rw [dispatchText, ifReady_ready hr, h]

/-- Settles O48: the front-end's word decodes to the command, whose response or its absence is passed on. -/
theorem textActionIssuesCommand : Obligations.TextActionIssuesCommand := by
  intro s u ch buf rest n act hin hparse hn hexec
  have hexec : exec (actionInstr n act) (withInputs rest s) = .next u := by cases act <;> exact hexec
  have hdecode := decode_encode (wellFormed_actionInstr hn act)
  have hstep : step s = _ := (step_input hin).trans (dispatchText_parsed (exec_framed hexec).1 hparse)
  refine ⟨fun r hresp => ?_, fun hresp => hstep.trans (issue_abandoned hdecode hexec hresp)⟩
  rw [hstep, issue_next hdecode hexec hresp]
  exact ⟨fun hstatus => by rw [hstatus]; rfl, fun hstatus => by rw [hstatus]; rfl⟩

/-- Settles O49: nothing is issued, and the reply is the whole change. -/
theorem textRejectedIsNoOp : Obligations.TextRejectedIsNoOp := fun _ _ _ rest hr hin hparse =>
  (step_input hin).trans (dispatchText_rejected (s := withInputs rest _) hr hparse)

/-! ### Status queries -/

theorem onOk_ok {good : Result} (h : r.status = .ok) : onOk r t good = good := if_pos h

theorem onOk_error {good : Result} (h : r.status ≠ .ok) : onOk r t good = .next (reply (replyOfStatus r.status) t) := if_neg h

/-- What a status query does with the answer to its `RDFN` (rule R205). -/
def queryLevel (n : Nat) (r : Response) (t : State) : Result :=
  onOk r t <|
    if isIo r.d0 then
      issue (.rdlv n) t fun r' t' => onOk r' t' (.next (reply (.line (levelLine r.d0 r'.d0)) t'))
    else .next (reply (.line notIoText) t)

/-- A status query of a pin that a command word can hold (rule R204). -/
theorem statusQuery_fits (hr : Ready s) (hq : queryPin s q = some n) (hn : n ≤ 65535) :
    statusQuery q s = issue (.rdfn n) s (queryLevel n) := by
  rw [statusQuery, ifReady_ready hr, hq]
  exact if_pos (pinFits_iff.mpr hn)

/-- A status query of a pin above (log 15). -/
theorem statusQuery_no_word (hr : Ready s) (hq : queryPin s q = some n) (hn : ¬ n ≤ 65535) :
    statusQuery q s = .next (reply .outOfRange s) := by
  rw [statusQuery, ifReady_ready hr, hq]
  exact if_neg (mt pinFits_iff.mp hn)

theorem statusQuery_unresolved (hr : Ready s) (hq : queryPin s q = none) :
    statusQuery q s = .next (reply .invalidCommand s) := by
  rw [statusQuery, ifReady_ready hr, hq]

theorem queryPin_eq_some (h : q = .named n ∨ ∃ name, q = .bound name ∧ lookup s.bind name = some n) :
    queryPin s q = some n := by
  rcases h with rfl | ⟨name, rfl, hlook⟩
  · rfl
  · exact hlook

theorem decode_rdfn (h : n ≤ 65535) : decode (encode (.rdfn n)) = .legal (.rdfn n) := decode_encode (pinFits_iff.mpr h)

theorem decode_rdlv (h : n ≤ 65535) : decode (encode (.rdlv n)) = .legal (.rdlv n) := decode_encode (pinFits_iff.mpr h)

/-- An input or output goes on to its level read. -/
theorem queryLevel_io (h : r.status = .ok) (hio : isIo r.d0 = true) : queryLevel n r t =
    issue (.rdlv n) t fun r' t' => onOk r' t' (.next (reply (.line (levelLine r.d0 r'.d0)) t')) := by
  rw [queryLevel, onOk_ok h, if_pos hio]

theorem queryLevel_not_io (h : r.status = .ok) (hio : ¬ isIo r.d0 = true) :
    queryLevel n r t = .next (reply (.line notIoText) t) := by
  rw [queryLevel, onOk_ok h, if_neg hio]

/-- Settles O57: each command's error, or that it was abandoned, ends the query. -/
theorem statusQueryPassesErrors : Obligations.StatusQueryPassesErrors := by
  intro s u q n rest hin hq hn hexec
  have hr := (exec_framed hexec).1
  have hstep : step s = _ :=
    (step_input hin).trans (statusQuery_fits hr (queryPin_eq_some (s := withInputs rest s) hq) hn)
  refine ⟨fun hresp => hstep.trans (issue_abandoned (decode_rdfn hn) hexec hresp), fun r hresp => ?_⟩
  rw [hstep, issue_next (decode_rdfn hn) hexec hresp]
  refine ⟨fun hstatus => ?_, fun hstatus => ?_, fun v hstatus hio hlev => ?_⟩
  · rw [queryLevel, onOk_error (by simp [hstatus]), hstatus]
    rfl
  · rw [queryLevel, onOk_error (by simp [hstatus]), hstatus]
    rfl
  · rw [queryLevel_io hstatus (by simpa [isIo] using hio)]
    refine ⟨fun hresp' => issue_abandoned (decode_rdlv hn) hlev hresp', fun r' hresp' hstatus' => ?_⟩
    rw [issue_next (decode_rdlv hn) hlev hresp', onOk_error (by simp [hstatus']), hstatus']
    rfl

/-! ### The line of a query -/

@[simp] theorem fselReg_withInputs (rest : List Input) (s : State) (j : Nat) : fselReg (withInputs rest s) j = fselReg s j := rfl

@[simp] theorem fnField_withInputs (rest : List Input) (s : State) (p : Nat) : fnField (withInputs rest s) p = fnField s p := rfl

@[simp] theorem level_withInputs (rest : List Input) (s : State) (p : Nat) : level (withInputs rest s) p = level s p := rfl

/-- The state after the two commands of a query. -/
def afterQuery (n : Nat) (s : State) : State := afterRdlv n (afterRdfn n s)

@[simp] theorem afterQuery_ecur : (afterQuery n s).ecur = s.ecur := by simp [afterQuery, afterRdlv, afterRdfn]

@[simp] theorem afterQuery_bind : (afterQuery n s).bind = s.bind := by simp [afterQuery, afterRdlv, afterRdfn]

@[simp] theorem afterQuery_replies : (afterQuery n s).replies = s.replies := by simp [afterQuery, afterRdlv, afterRdfn]

theorem afterQuery_faulted (hr : Ready s) : (afterQuery n s).faulted = false := by
  simpa [afterQuery, afterRdlv, afterRdfn] using hr.2.2

@[simp] theorem afterQuery_ext : (afterQuery n s).ext = (atAccess (atAccess s)).ext := by
  simp [afterQuery, afterRdlv, afterRdfn]

@[simp] theorem afterQuery_mem : (afterQuery n s).mem = (atAccess (atAccess s)).mem := by
  simp [afterQuery, afterRdlv, afterRdfn]

@[simp] theorem afterQuery_lat : (afterQuery n s).lat = (atAccess (atAccess s)).lat := by
  simp [afterQuery, afterRdlv, afterRdfn]

theorem afterQuery_trace : (afterQuery n s).trace = s.trace ++
    [.rd (addressOf s.cfg .fsel n).offset (fselReg (atAccess s) (n / 10)),
      .rd (addressOf s.cfg .lev n).offset (levReg (atAccess (afterRdfn n s)) (n / 32))] := by
  rw [afterQuery, afterRdlv_trace, afterRdfn_trace]
  simp [afterRdfn]

section
variable (hr : Ready s) (h : Answers s) (hp : n < s.cfg.numPins)
include hr h hp

theorem answered_afterRdfn : Answered (.rdfn n) ⟨.ok, (fnField (atAccess s) n).setWidth 32, 0#32⟩ s (afterRdfn n s) :=
  answered_respond hr h 1 (exec_rdfn hr h hp) (by simp) (by simp) (by simp) (by simp)

theorem answered_afterRdlv : Answered (.rdlv n) ⟨.ok, levelWord (level (atAccess s) n), 0#32⟩ s (afterRdlv n s) :=
  answered_respond hr h 1 (exec_rdlv hr h hp) (by simp) (by simp) (by simp) (by simp)

variable (hq : queryPin s q = some n)
include hq

/-- The query of an input or output: both reads, and the line of field and level (rules R204, R205). -/
theorem statusQuery_io (hio : fnField (atAccess s) n = 0b000#3 ∨ fnField (atAccess s) n = 0b001#3) :
    statusQuery q s = .next (reply (.line (levelLine ((fnField (atAccess s) n).setWidth 32)
      (levelWord (level (atAccess (atAccess s)) n)))) (afterQuery n s)) := by
  have hn : n ≤ 65535 := by have := configOK_numPins hr.1; omega
  have hfn := answered_afterRdfn hr h hp
  have hlv := answered_afterRdlv hfn.ready hfn.answers (hfn.pin hp)
  have hlevel : level (atAccess (afterRdfn n s)) n = level (atAccess (atAccess s)) n := by simp [afterRdfn]
  rw [statusQuery_fits hr hq hn, issue_next (decode_rdfn hn) hfn.ran hfn.responses,
    queryLevel_io rfl ((isIo_setWidth _).mpr hio), issue_next (decode_rdlv hn) hlv.ran hlv.responses, onOk_ok rfl, hlevel,
    afterQuery]

/-- The query of any other pin: one read, and the fixed text. -/
theorem statusQuery_not_io (hio : ¬ (fnField (atAccess s) n = 0b000#3 ∨ fnField (atAccess s) n = 0b001#3)) :
    statusQuery q s = .next (reply (.line notIoText) (afterRdfn n s)) := by
  have hn : n ≤ 65535 := by have := configOK_numPins hr.1; omega
  have hfn := answered_afterRdfn hr h hp
  rw [statusQuery_fits hr hq hn, issue_next (decode_rdfn hn) hfn.ran hfn.responses,
    queryLevel_not_io rfl (mt (isIo_setWidth _).mp hio)]
end

/-- The query of a pin that does not exist (rule R204). -/
theorem statusQuery_outOfRange (hr : Ready s) (hq : queryPin s q = some n) (hn : s.cfg.numPins ≤ n) :
    ∃ rs, statusQuery q s = .next (reply .outOfRange { s with responses := rs }) := by
  by_cases hfits : n ≤ 65535
  · have hexec := exec_outOfRange (i := .rdfn n) hr hn nofun
    refine ⟨s.responses ++ [errorResponse .outOfRange], ?_⟩
    rw [statusQuery_fits hr hq hfits, issue_next (decode_rdfn hfits) hexec rfl]
    rfl
  · exact ⟨s.responses, statusQuery_no_word hr hq hfits⟩

theorem levelDigit_levelWord (b : Bool) : levelDigit (levelWord b) = if b then 0x31#8 else 0x30#8 := by cases b <;> rfl

/-- Settles O50: by the field of the pin the query reads once or twice, and its reply is the line. -/
theorem statusQueryLine : Obligations.StatusQueryLine := by
  intro s q rest hr hc hw hin
  have hrest : Ready (withInputs rest s) := hr
  have h : Answers (withInputs rest s) := ⟨hc, hw⟩
  have hstep : step s = statusQuery q (withInputs rest s) := step_input hin
  refine ⟨fun n hq => ?_, ?_⟩
  · have hpin := queryPin_eq_some (s := withInputs rest s) hq
    refine ⟨fun hn => ?_, fun hn => ?_⟩
    · by_cases hio : fnField (atAccess s) n = 0b000#3 ∨ fnField (atAccess s) n = 0b001#3
      · have hline := statusQuery_io hrest h hn hpin (by rwa [atAccess_withInputs])
        simp only [atAccess_withInputs, fnField_withInputs, level_withInputs] at hline
        exact ⟨_, hstep.trans hline, afterQuery_ecur, afterQuery_faulted hrest, afterQuery_bind,
          fun _ => ⟨⟨by simp, by simp⟩, by simp, _, by simpa using afterQuery_trace (s := withInputs rest s)⟩,
          fun h0 => by simp [h0, levelLine, levelDigit_levelWord, inputText],
          fun h1 => by simp [h1, levelLine, levelDigit_levelWord, outputText],
          fun h0 h1 => absurd hio (not_or.mpr ⟨h0, h1⟩)⟩
      · have hline := statusQuery_not_io hrest h hn hpin (by rwa [atAccess_withInputs])
        exact ⟨_, hstep.trans hline, by simp [afterRdfn], by simpa [afterRdfn] using hr.2.2, by simp [afterRdfn],
          fun h => absurd h hio, fun h0 => absurd (.inl h0) hio, fun h1 => absurd (.inr h1) hio,
          fun _ _ => ⟨⟨by simp [afterRdfn], by simp [afterRdfn]⟩, by simp [afterRdfn], by simp [afterRdfn_trace],
            by simp [afterRdfn, notIoText]⟩⟩
    · obtain ⟨rs, hline⟩ := statusQuery_outOfRange hrest hpin hn
      exact ⟨_, hstep.trans hline, rfl, ⟨rfl, rfl⟩, rfl, rfl, rfl⟩
  · rintro name rfl hlook
    exact hstep.trans (statusQuery_unresolved hrest hlook)

/-! ### Enumeration reads -/

theorem kindOfCode_iff (d1 : Word) (k : EnumKind) : kindOfCode d1 = k ↔ d1.extractLsb' 0 2 = kindCode k := by
  unfold kindOfCode
  generalize d1.extractLsb' 0 2 = c
  revert c
  cases k <;> decide

/-- A skipped pin and the end produce no byte (rule R182). -/
theorem enumBytes_silent (h : kindOfCode r.d1 = .fin ∨ kindOfCode r.d1 = .skip) : enumBytes r = [] := by
  unfold enumBytes
  rcases h with h | h <;> rw [h]

/-- Settles O51: the word of `ENEXT` decodes to it, and its response or its absence is passed on. -/
theorem enumReadIssuesEnext : Obligations.EnumReadIssuesEnext := by
  intro s u rest hin hexec
  have hdecode : decode (encode .enext) = .legal .enext := decode_encode rfl
  have hstep : step s = issue .enext (withInputs rest s) fun r t =>
      onOk r t (.next (reply (.enumerated (kindOfCode r.d1) (enumBytes r)) t)) :=
    (step_input hin).trans (ifReady_ready (exec_framed hexec).1 _)
  refine ⟨fun r hresp => ?_, fun hresp => hstep.trans (issue_abandoned hdecode hexec hresp)⟩
  rw [hstep, issue_next hdecode hexec hresp]
  refine ⟨fun hstatus => ⟨kindOfCode r.d1, enumBytes r, onOk_ok hstatus, kindOfCode_iff _ _, kindOfCode_iff _ _,
    kindOfCode_iff _ _, kindOfCode_iff _ _, enumBytes_silent⟩, fun hstatus => ?_⟩
  rw [onOk_error (by simp [hstatus]), hstatus]
  rfl

/-! ### The binding table -/

theorem configure_ready (hr : Ready s) (pins : List Nat) : configure pins s =
    if s.configured then .refused .secondConfigure
    else if pins.all (fun n => decide (n < s.cfg.numPins)) then
      .next (reply .ok (withTable (pins.map fun n => ⟨pinName n, n⟩) true s))
    else .next (reply .outOfRange s) := ifReady_ready hr _

/-- Settles O52: the three branches of `configure`. -/
theorem configureBindsList : Obligations.ConfigureBindsList := by
  intro s pins rest hr hin
  have hstep : step s = _ := (step_input hin).trans (configure_ready (s := withInputs rest s) hr pins)
  refine ⟨fun hc hpins => ?_, fun hc hpins => ?_, fun hc => hstep.trans (if_pos hc)⟩
  · have hall : pins.all (fun n => decide (n < s.cfg.numPins)) = true := by simpa using hpins
    exact hstep.trans ((if_neg (by simp [hc])).trans (if_pos hall))
  · have hall : ¬ pins.all (fun n => decide (n < s.cfg.numPins)) = true := by simpa using hpins
    exact hstep.trans ((if_neg (by simp [hc])).trans (if_neg hall))

/-- Settles O54: no name resolves in the empty table. -/
theorem teardownEmptiesTable : Obligations.TeardownEmptiesTable := by
  intro s rest hr hin
  refine ⟨_, (step_input hin).trans (ifReady_ready (s := withInputs rest s) hr _), rfl, fun name buf => ?_⟩
  rw [Option.eq_none_iff_forall_ne_some]
  rintro ⟨n, act⟩ hparse
  obtain ⟨-, hlook⟩ := parseText_bound_iff.mp hparse
  cases hlook

end Sys2Proof.Machine

/-! PROOFS, family other: lists of command words (rules R267, R275). What one word answered without a reset leaves is said once
(`WordAnswered`); a list is finished by induction over its words. -/

namespace Sys2Proof.Machine

variable {s t u : State} {w : Word} {words : List Word} {p : Nat} {rest : List BusTurn}

/-- What one word presented leaves where no reset arrives: a response, an idle engine, and no reset in the rest of the script. -/
structure WordAnswered (w : Word) (s t : State) : Prop where
  response : ∃ r, t.responses = s.responses ++ [r]
  idle : t.busy = none
  noReset : NoReset t
  cursor : w ≠ 0x70000000#32 → t.ecur = s.ecur

theorem NoReset.of_drop (k : Nat) (hn : NoReset s) (hs : t.script = s.script.drop k) : NoReset t :=
  fun turn h => hn turn (List.mem_of_mem_drop (hs ▸ h))

theorem noReset_of_completes (h : AccessesComplete s) : NoReset s := fun turn hturn => by simp [h turn hturn]

theorem present_noReset (hn : NoReset s) (h : present w s = .next t) : WordAnswered w s t := by
  have hr := present_needs_ready h
  cases hd : decode w with
  | legal i =>
    have hexec : exec i s = .next t := by rw [← h, present_legal hd]
    obtain ⟨k, hscript⟩ := exec_script hexec
    obtain ⟨r, hresp, -⟩ := oneResponsePerCommand i s t hn hexec
    obtain ⟨-, hidle, -⟩ := commandKeepsEngineFrame i s t hn hexec
    refine ⟨⟨r, hresp⟩, hidle, hn.of_drop k hscript, fun hw => onlyEnextMovesCursor i s t ?_ hn hexec⟩
    rintro rfl
    exact hw (encode_of_decode hd).1.symm
  | illegal why =>
    rw [present_illegal hr hd] at h
    cases h
    exact ⟨⟨_, rfl⟩, hr.2.1, hn, fun _ => rfl⟩

/-- The same of a list of words. -/
theorem runCommands_noReset (hidle : s.busy = none) (hn : NoReset s) (h : runCommands words s = .next t) :
    t.busy = none ∧ NoReset t ∧ t.responses.length = s.responses.length + words.length
      ∧ ((∀ w ∈ words, w ≠ 0x70000000#32) → t.ecur = s.ecur) := by
  induction words generalizing s with
  | nil => cases h; exact ⟨hidle, hn, rfl, fun _ => rfl⟩
  | cons w ws ih =>
    obtain ⟨u, hu, h⟩ := runCommands_cons_next h
    obtain ⟨⟨r, hresp⟩, hidle', hn', hcursor⟩ := present_noReset hn hu
    obtain ⟨htidle, htn, hlen, htcursor⟩ := ih hidle' hn' h
    refine ⟨htidle, htn, by simp [hlen, hresp]; omega, fun hws => ?_⟩
    obtain ⟨hw, hws⟩ := List.forall_mem_cons.mp hws
    rw [htcursor hws, hcursor hw]

/-- Where no reset arrives the last word of a list has its response. -/
theorem runCommands_last_answered {before : List Word} (hidle : s.busy = none) (hn : NoReset s)
    (h : runCommands (before ++ [w]) s = .next t) (hu : runCommands before s = .next u) :
    ∃ r, t.responses = u.responses ++ [r] := by
  obtain ⟨v, hv, hlast⟩ := runCommands_append before [w] h
  cases hu.symm.trans hv
  obtain ⟨-, hnu, -⟩ := runCommands_noReset hidle hn hu
  obtain ⟨v, hv, h⟩ := runCommands_cons_next hlast
  cases h
  exact (present_noReset hnu hv).response

theorem finished_iff_healthy (hidle : s.busy = none) (hn : NoReset s) (h : runCommands words s = .next t) :
    Finished words s t ↔ t.faulted = false := by
  refine ⟨fun hf => hf.healthy, fun hhealthy => ⟨h, ?_, (runCommands_noReset hidle hn h).1, hhealthy⟩⟩
  rintro before w u rfl hu
  exact runCommands_last_answered hidle hn h hu

/-- A list of one word that gave no response is not finished. -/
theorem not_finished_of_unanswered (h : t.responses = s.responses) : ¬ Finished [w] s t := by
  intro hf
  obtain ⟨r, hr⟩ := hf.answered [] w s rfl rfl
  simp [h] at hr

/-- Settles O58: without a reset each word is answered; a `CFGIN` cut after its read gave no response. -/
theorem finishedRuns : Obligations.FinishedRuns := by
  refine ⟨fun words s t ⟨_, hidle, _⟩ hn h => ?_, fun s p rest hr hp hscript => ?_⟩
  · obtain ⟨-, -, hlen, hcursor⟩ := runCommands_noReset hidle hn h
    exact ⟨finished_iff_healthy hidle hn h, hlen, hcursor⟩
  · have hn := configOK_numPins hr.1
    have hdecode : decode (encode (.cfgin p)) = .legal (.cfgin p) := decode_encode (pinFits_iff.mpr (by omega))
    obtain ⟨u, hexec, hcut⟩ := exec_cut_after_read (i := .cfgin p) hr hp (.inl hscript) (.inl rfl)
    refine ⟨resetEngine u, ?_, rfl, not_finished_of_unanswered hcut.responses⟩
    rw [runCommands_cons _ _ ((present_legal hdecode).trans hexec)]
    rfl

/-- One word is answered and leaves a healthy engine where the accesses complete. -/
theorem present_completes (w : Word) (hinv : Inv s) (hf : s.faulted = false) (h : Answers s) :
    ∃ t, present w s = .next t ∧ t.faulted = false ∧ Answers t := by
  have hr : Ready s := ⟨hinv.config, hinv.idle, hf⟩
  cases hd : decode w with
  | legal i =>
    obtain ⟨t, hexec, hhealthy⟩ := exec_completes i hr h hinv.cursor
    obtain ⟨k, hscript⟩ := exec_script hexec
    exact ⟨t, (present_legal hd).trans hexec, hhealthy, h.of_drop k (exec_cfg hexec) hscript⟩
  | illegal why => exact ⟨_, present_illegal hr hd, hf, h⟩

theorem runCommands_completes (words : List Word) (hinv : Inv s) (hf : s.faulted = false) (h : Answers s) :
    ∃ t, runCommands words s = .next t ∧ t.faulted = false := by
  induction words generalizing s with
  | nil => exact ⟨s, rfl, hf⟩
  | cons w ws ih =>
    obtain ⟨u, hu, hfu, hansw⟩ := present_completes w hinv hf h
    rw [runCommands_cons w ws hu]
    exact ih (inv_frontKeeps.present hu hinv) hfu hansw

/-- Settles O59: every word of the list is answered, and no reset arrives. -/
theorem commandListsFinish : Obligations.CommandListsFinish := by
  intro words s hinv hf hc hw
  obtain ⟨t, hran, hhealthy⟩ := runCommands_completes words hinv hf ⟨hc, hw⟩
  exact ⟨t, (finished_iff_healthy hinv.idle (noReset_of_completes hc) hran).mpr hhealthy⟩

end Sys2Proof.Machine
